-- ==== Sys2Proof/Word.lean ====
section
/-! DEFINITION. The bit patterns of the DCS decoder core: the words the spec treats as bits (R8, R42, R59 to R65). -/

namespace Sys2Proof

/-- A 23-bit word: a window, a candidate, an error pattern, a corrected word (R6 WINW, R59). Bit 0 is the least
significant bit (R8). -/
abbrev Word23 := BitVec 23

/-- An 11-bit syndrome, the coefficient of x^10 at bit 10 (R64). -/
abbrev Syndrome := BitVec 11

/-- The 12 data bits of a corrected word (R60). -/
abbrev Data12 := BitVec 12

/-- A 9-bit code number in [0, 511] (R61, R141). -/
abbrev Code := BitVec 9

/-- The recognized-code table as 512 membership bits, bit c for code c (R40 space ROM). -/
abbrev RomBits := BitVec 512

/-- A value of the numeric instance F64 of NUM: an IEEE 754 binary64 pattern (R9, R56). A structure, so that no
bit-vector operation is taken for a numeric one. -/
structure F64 where
  bits : BitVec 64
deriving DecidableEq, Repr

/-- Positive zero. -/
def F64.zero : F64 := ⟨0#64⟩

end Sys2Proof
end

