-- ==== Sys2Proof/Config.lean ====
section
/-! DEFINITION. What an implementation fixes and the spec leaves open (R7, R36), and the free values. An opaque
constant has no body: nothing can be proved of its value, so a claim holds for every value. -/

namespace Sys2Proof

/-- What a sign change does with a filtered value of exactly zero (R99). -/
inductive ZcMode where
  | strict
  | neg
  | pos
deriving DecidableEq, Repr

/-- Direction of the clock nudge (R7, R101; C13). -/
inductive NudgeDir where
  | asWritten
  | reversed
deriving DecidableEq, Repr

/-- `ZC_MODE`, decided `strict` (R99, D5). DESIGN CHOICE of the spec, log 14. -/
def Config.zcMode : ZcMode := .strict

/-- `NUDGE_DIR`, decided `as_written` (R91, R101, D33). DESIGN CHOICE of the spec, log 15. -/
def Config.nudgeDir : NudgeDir := .asWritten

/-- `CTXW`, the width of the sink context: OPEN (R7, D28). Log 9. -/
opaque Config.ctxw : Nat

/-- How many units in the last place, less 4, the implementation's `exp` is away from the correctly rounded value at
an argument with these bits: an open value within the bound the spec sets (R81, D27, U10). Log 7. -/
opaque Config.expUlp : BitVec 64 → Fin 9

/-- The value `SINK` holds after a reset: unspecified until BIND (R30, R210, U8). Log 11. -/
opaque Config.freeSink : Nat → Nat

/-- The value `SINK_CTX` holds after a reset: unspecified until BIND (R30, R210, U8). Log 11. -/
opaque Config.freeCtx : Nat → Nat

/-- The recognized-code set the implementation holds, before the constraints of R143 are imposed. Log 8. -/
opaque Config.codeRomDraw : RomBits

/-- The table of membership bits of a list of codes. -/
def romOfCodes (codes : List Nat) : RomBits :=
  codes.foldl (fun r c => r ||| (1#512 <<< c)) 0#512

/-- The number of members of a table. -/
def romSize (r : RomBits) : Nat := (List.range 512).countP (fun c => r.getLsbD c)

/-- What R143 requires of every `CODE_ROM`: exactly 105 members, the seven named members, and neither 412 nor 0. -/
def romAdmissible (r : RomBits) : Bool :=
  romSize r == 105 &&
  [19, 21, 23, 25, 43, 114, 265].all (fun c => r.getLsbD c) &&
  [412, 0].all (fun c => !r.getLsbD c)

/-- First half of the test set `ROM_T105` of 95_test_vectors.md section 1. -/
def romT105Low : List Nat :=
  [19, 21, 22, 23, 25, 26, 30, 35, 39, 41, 43, 44, 53, 57, 58, 59, 60, 76, 77, 78, 82, 85, 89, 90, 92, 99, 101] ++
  [106, 109, 110, 114, 117, 122, 124, 133, 138, 147, 149, 150, 163, 164, 165, 166, 169, 170, 173, 177, 179]

/-- Second half of `ROM_T105`. -/
def romT105High : List Nat :=
  [181, 182, 185, 188, 198, 201, 205, 213, 217, 218, 227, 230, 233, 238, 244, 245, 249, 265, 266, 267, 275] ++
  [281, 282, 293, 294, 298, 300, 301, 306, 308, 309, 310, 323, 326, 334, 339, 342, 346, 358, 373, 390, 394] ++
  [404, 407, 409, 410, 428, 434, 436, 451, 458, 467, 473, 474, 476, 483, 492]

/-- The test set `ROM_T105`: it meets R143, and stands here only as a witness that an admissible set exists. -/
def romT105 : RomBits := romOfCodes (romT105Low ++ romT105High)

/-- The test set `ROM_DOC7`: the seven named members alone (it breaks the size constraint on purpose). -/
def romDoc7 : RomBits := romOfCodes [19, 21, 23, 25, 43, 114, 265]

/-- `CODE_ROM`, OPEN under the constraints of R143 (D16): every admissible set is possible and no other is. Where
the draw is not admissible the witness stands in for it, so that the constraints hold of every value. Log 8. -/
def Config.codeRom : RomBits :=
  if romAdmissible Config.codeRomDraw then Config.codeRomDraw else romT105

/-- `CONFIRM_MIN`, the counter value at which emission starts (R6). -/
def Config.confirmMin : Nat := 2

/-- The least sample rate with `SPB >= 2` (R192: `fs >= 269`). -/
def Config.minSampleRate : Nat := 269

/-- `SYN_ENTRIES` (R6, R40). -/
def Config.synEntries : Nat := 2048

/-- The Golay generator g(x) as the pattern `0xC75`, bit i the coefficient of x^i (R65, R120), in a 23-bit word. -/
def Config.generator : Word23 := 0xC75#23

end Sys2Proof
end

