-- ==== Sys2Proof/Syntax.lean ====
section
/-! DEFINITION. The instructions: the four host operations (R56) and the 22 micro-operations (R58), one constructor
for each row of spec/opcode_table.json. -/

namespace Sys2Proof

/-- The two formats of the opcode table: command words (R56) and micro-operation labels (R58). -/
inductive Format where
  | cmd
  | uop
deriving DecidableEq, Repr

/-- The candidate index k (R66): `a` = `WINDOW_A`, `notA` its complement, `b` = `WINDOW_B`, `notB` its complement. -/
inductive CandIdx where
  | a
  | notA
  | b
  | notB
deriving DecidableEq, Repr

/-- One constructor per row of the opcode table. The context and the sink handle are opaque values, never
interpreted, of a width the spec leaves open (R57, D28): natural numbers here (log 9). -/
inductive Instr where
  /-- CREATE fs (R170). -/
  | create (fs : BitVec 32)
  /-- BIND en, sink, ctx (R172). -/
  | bind (en : Bool) (sink : Nat) (ctx : Nat)
  /-- SAMPLE x (R173). -/
  | sample (x : F64)
  /-- DESTROY (R175). -/
  | destroy
  /-- 0x00, filter step (R80). -/
  | lpf
  /-- 0x01, zero-crossing detect and phase nudge (R91). -/
  | zcn
  /-- 0x02, latch the previous filtered value (R83). -/
  | prv
  /-- 0x03, accumulate (R92). -/
  | acc
  /-- 0x04, phase increment (R93). -/
  | phi
  /-- 0x05, boundary test and slice (R94). -/
  | slc
  /-- 0x06, shift window A (R110). -/
  | wsha
  /-- 0x07, shift window B (R111). -/
  | wshb
  /-- 0x08, candidate generation (R112). -/
  | cgen
  /-- 0x09, syndrome of the candidate in turn (R121). -/
  | syn
  /-- 0x0A, table lookup (R125). -/
  | lut
  /-- 0x0B, apply the correction (R126). -/
  | cor
  /-- 0x0C, extract the data bits (R127). -/
  | ext
  /-- 0x0D, top-three-bits check (R140). -/
  | top3
  /-- 0x0E, recognized-code lookup (R142). -/
  | romv
  /-- 0x0F, select the decode of this bit boundary (R145). -/
  | sel
  /-- 0x10, confirmation update (R150). -/
  | cnf
  /-- 0x11, deliver the event (R156). -/
  | emit
  /-- 0x18, compute the filter coefficient (R81). -/
  | cfga
  /-- 0x19, compute samples per bit (R90). -/
  | cfgs
  /-- 0x1A, build the syndrome table (R123). -/
  | tbld
  /-- 0x1B, reset the streaming state (R210). -/
  | init
deriving DecidableEq, Repr

end Sys2Proof
end

