-- ==== Sys2Proof/WellFormed.lean ====
section
/-! DEFINITION. Which instructions the encoding can carry (R56, R57). -/

namespace Sys2Proof

/-- The one bound an encoding sets on an operand that its type does not: the context has `CTXW` bits (R56, R57). -/
def Instr.wellFormedAt (ctxw : Nat) : Instr → Bool
  | .create _ => true
  | .bind _ _ ctx => decide (ctx < 2 ^ ctxw)
  | .sample _ => true
  | .destroy => true
  | .lpf => true
  | .zcn => true
  | .prv => true
  | .acc => true
  | .phi => true
  | .slc => true
  | .wsha => true
  | .wshb => true
  | .cgen => true
  | .syn => true
  | .lut => true
  | .cor => true
  | .ext => true
  | .top3 => true
  | .romv => true
  | .sel => true
  | .cnf => true
  | .emit => true
  | .cfga => true
  | .cfgs => true
  | .tbld => true
  | .init => true

/-- Well-formed at the width the implementation has. -/
def Instr.wellFormed (i : Instr) : Bool := i.wellFormedAt Config.ctxw

end Sys2Proof
end

