-- ==== Sys2Proof/Decode.lean ====
section
/-! DEFINITION. Decoding and encoding (R56 to R58, R68, R69). Command words are bit strings, not bytes (R42): a word
is a natural number whose bit 0 is its least significant bit. -/

namespace Sys2Proof

/-- Why a word is no instruction. -/
inductive DecodeError where
  /-- A micro-operation index in 0x12..0x17 or 0x1C..0x1F: an unused label (R58, R68). -/
  | unusedLabel (u : BitVec 5)
deriving DecidableEq, Repr

/-- `n` bits of a word from bit `lo` upward (R8 `v[hi:lo]`). -/
def bitField (w lo n : Nat) : BitVec n := BitVec.ofNat n (w >>> lo)

/-- A command word `{payload, op[1:0]}` (R56, R57): all four selectors are used. Bits above an operation's payload
are no part of it (match and mask over the low bits; log 4). The sink handle is all the bits above the context. -/
def decodeCmdAt (ctxw w : Nat) : Instr :=
  match w % 4 with
  | 0 => .create (bitField w 2 32)
  | 1 => .bind (w.testBit 2) (w >>> (ctxw + 3)) ((w >>> 3) % 2 ^ ctxw)
  | 2 => .sample ⟨bitField w 2 64⟩
  | _ => .destroy

/-- A micro-operation index u[4:0] (R58); the ten unused labels are rejected by name. -/
def decodeUop (u : BitVec 5) : Except DecodeError Instr :=
  match u.toNat with
  | 0x00 => .ok .lpf
  | 0x01 => .ok .zcn
  | 0x02 => .ok .prv
  | 0x03 => .ok .acc
  | 0x04 => .ok .phi
  | 0x05 => .ok .slc
  | 0x06 => .ok .wsha
  | 0x07 => .ok .wshb
  | 0x08 => .ok .cgen
  | 0x09 => .ok .syn
  | 0x0A => .ok .lut
  | 0x0B => .ok .cor
  | 0x0C => .ok .ext
  | 0x0D => .ok .top3
  | 0x0E => .ok .romv
  | 0x0F => .ok .sel
  | 0x10 => .ok .cnf
  | 0x11 => .ok .emit
  | 0x18 => .ok .cfga
  | 0x19 => .ok .cfgs
  | 0x1A => .ok .tbld
  | 0x1B => .ok .init
  | _ => .error (.unusedLabel u)

/-- A word in one of the two formats, at a given context width. -/
def decodeAt (ctxw : Nat) (f : Format) (w : Nat) : Except DecodeError Instr :=
  match f with
  | .cmd => .ok (decodeCmdAt ctxw w)
  | .uop => decodeUop (bitField w 0 5)

/-- A word in one of the two formats. -/
def decode (f : Format) (w : Nat) : Except DecodeError Instr := decodeAt Config.ctxw f w

/-- The word of an instruction, with the format it is written in (R56, R58). -/
def encodeAt (ctxw : Nat) : Instr → Format × Nat
  | .create fs => (.cmd, fs.toNat * 4)
  | .bind en sink ctx => (.cmd, ((sink * 2 ^ ctxw + ctx) * 2 + en.toNat) * 4 + 1)
  | .sample x => (.cmd, x.bits.toNat * 4 + 2)
  | .destroy => (.cmd, 3)
  | .lpf => (.uop, 0x00)
  | .zcn => (.uop, 0x01)
  | .prv => (.uop, 0x02)
  | .acc => (.uop, 0x03)
  | .phi => (.uop, 0x04)
  | .slc => (.uop, 0x05)
  | .wsha => (.uop, 0x06)
  | .wshb => (.uop, 0x07)
  | .cgen => (.uop, 0x08)
  | .syn => (.uop, 0x09)
  | .lut => (.uop, 0x0A)
  | .cor => (.uop, 0x0B)
  | .ext => (.uop, 0x0C)
  | .top3 => (.uop, 0x0D)
  | .romv => (.uop, 0x0E)
  | .sel => (.uop, 0x0F)
  | .cnf => (.uop, 0x10)
  | .emit => (.uop, 0x11)
  | .cfga => (.uop, 0x18)
  | .cfgs => (.uop, 0x19)
  | .tbld => (.uop, 0x1A)
  | .init => (.uop, 0x1B)

/-- The word of a well-formed instruction, at the width the implementation has. -/
def encode (i : Instr) : Format × Nat := encodeAt Config.ctxw i

/-- Whether a 5-bit index is one of the 22 assigned labels (R58). -/
def labelAssigned (u : BitVec 5) : Bool :=
  match decodeUop u with
  | .ok _ => true
  | .error _ => false

/-- The format a word of the opcode table is read in. The table's two formats are not told apart by their bits (its
CMD masks 0x3 and its UOP masks 0x1F both cover 0x00 to 0x03), so the width tells: a word of at most a byte whose low
five bits are an assigned label is that label, every other word is a command word. DESIGN CHOICE, log 3. -/
def tableFormat (nbits w : Nat) : Format :=
  if nbits ≤ 8 && labelAssigned (bitField w 0 5) then .uop else .cmd

/-- The instruction the decoder reads from a word of the opcode table. -/
def decodeTableWord (nbits w : Nat) : Option Instr :=
  match decode (tableFormat nbits w) w with
  | .ok i => some i
  | .error _ => none

end Sys2Proof
end

