-- ==== Sys2Proof/Machine/State.lean ====
section
/-! DEFINITION. The state of the DCS decoder core (10_state.md), plain data, and the state after reset. -/

namespace Sys2Proof.Machine

/-- Reasons a step stops with a fault: none. The block raises no trap (R193), a creation failure is a status and not
a stop (R190), and no table index can be out of range (R45, U21). -/
inductive Fault where
deriving DecidableEq, Repr

/-- The four host operations, as a refusal names them. -/
inductive HostOp where
  | create
  | bind
  | sample
  | destroy
deriving DecidableEq, Repr

/-- Reasons a step is refused: R10 "the model gives the operation no meaning (a protocol violation or an input
outside the envelope); nothing may be claimed of the run". Every one is safe: nothing is provable past it. -/
inductive Refusal where
  /-- An instruction without a meaning: raised by no arm of this model. Safe. -/
  | notModelled (mnemonic : String)
  /-- A host operation in the wrong lifecycle state (R176, U5). Raised by CREATE, BIND, SAMPLE, DESTROY. Safe. -/
  | wrongLifecycle (op : HostOp)
  /-- A host operation issued from inside the sink (R214, R68, U6). Raised by CREATE, BIND, SAMPLE, DESTROY. Safe. -/
  | reentrant (op : HostOp)
  /-- CREATE with `fs = 0`: not a positive integer (R170, U2). Safe. -/
  | zeroSampleRate
  /-- CREATE with `1 <= fs <= 268`: `SPB < 2`, behaviour undefined by the source (R192, U1). Safe. -/
  | sampleRateOutsideEnvelope
  /-- SAMPLE with a NaN or an infinity (R192, R200, U4). Safe. -/
  | nonFiniteSample
  /-- An arithmetic result that is not finite (R192, U4 "an intermediate overflow"). Raised by LPF, ZCN, ACC, PHI, SLC
  and by SAMPLE, which runs them. Safe. -/
  | intermediateOverflow
  /-- A micro-operation index that is an unused label (R58, R68). Raised by the step, before any meaning. Safe. -/
  | unusedLabel (u : BitVec 5)
deriving DecidableEq, Repr

/-- The lifecycle `LIFE` (R20). -/
inductive Life where
  | absent
  | ready
deriving DecidableEq, Repr

/-- The status CREATE returns: `OK` = 0, `CREATE_FAIL` = 1 (R190). -/
inductive Status where
  | ok
  | createFail
deriving DecidableEq, Repr

/-- An entry of `SYN_TABLE`: `{valid, pattern[22:0]}` (R64). -/
structure SynEntry where
  valid : Bool
  pattern : Word23
deriving DecidableEq, Repr

/-- The table space SYN (R40): pairs of an index and an entry, in one canonical form (`Memory.wf`, log 25). -/
structure Memory where
  cells : List (Nat × SynEntry)
deriving DecidableEq, Repr

/-- The transient values of one candidate (R33): rows `CAND[k]` to `INROM[k]`. -/
structure CandWires where
  cand : Word23
  cinv : Bool
  syndrome : Syndrome
  eok : Bool
  pattern : Word23
  corr : Word23
  data : Data12
  t3ok : Bool
  code : Code
  inrom : Bool
deriving DecidableEq, Repr

/-- The transient conditions of one SAMPLE (R33), and the loop variable `k` of R173. -/
structure Wires where
  x : F64
  y : F64
  zc : Bool
  bnd : Bool
  bit : Bool
  k : CandIdx
  candA : CandWires
  candNotA : CandWires
  candB : CandWires
  candNotB : CandWires
  found : Bool
  dcode : Code
  dinv : Bool
  matched : Bool
  emitReq : Bool
  emitted : Bool
deriving DecidableEq, Repr

/-- An event as it is delivered to a sink (R63, R156): the handle it goes to, and the triple it carries. -/
structure Event where
  sink : Nat
  ctx : Nat
  inv : Bool
  code : Code
deriving DecidableEq, Repr

/-- One request at the command interface (R56, R180): a word and its format, the candidate a micro-operation label is
run for, the environment's draw `alloc_ok` (R171), and whether the caller is the instance's own sink (R196). -/
structure Request where
  format : Format
  word : Nat
  cand : CandIdx
  allocOk : Bool
  fromSink : Bool
deriving DecidableEq, Repr

/-- The whole machine. Names are the spec's; the last group is the model's own. -/
structure State where
  /-- `LIFE` (R20). -/
  life : Life
  /-- The busy condition: an operation is being issued from inside the sink of a running SAMPLE (R20, R214). -/
  busy : Bool
  /-- `STATUS` of the last CREATE (R170, R190). -/
  status : Status
  /-- `FS` (R21). -/
  fs : BitVec 32
  /-- `ALPHA` (R21). -/
  alpha : F64
  /-- `SPB` (R21). -/
  spb : F64
  /-- `LPF_Y` (R22). -/
  lpfY : F64
  /-- `PREV_Y` (R23). -/
  prevY : F64
  /-- `BIT_PHASE` (R24). -/
  bitPhase : F64
  /-- `BIT_ACC` (R25). -/
  bitAcc : F64
  /-- `WINDOW_A` (R26). -/
  windowA : Word23
  /-- `WINDOW_B` (R27). -/
  windowB : Word23
  /-- `LAST_CODE` (R28): none is -1 (R70). -/
  lastCode : Option Code
  /-- `LAST_INV` (R28). -/
  lastInv : Bool
  /-- `COUNTER`, an unbounded natural number (R29, R158). -/
  counter : Nat
  /-- `SINK_EN` (R30). -/
  sinkEn : Bool
  /-- `SINK` (R30). -/
  sink : Nat
  /-- `SINK_CTX` (R30). -/
  sinkCtx : Nat
  /-- `SYN_TABLE` (R31, R40). -/
  synTable : Memory
  /-- `CODE_ROM` (R32, R40): nothing writes it. -/
  codeRom : RomBits
  /-- The ghost counter `N_SAMPLE` (R34). -/
  nSample : Nat
  /-- The ghost counter `N_BIT` (R34). -/
  nBit : Nat
  /-- The transient conditions (R33). -/
  wires : Wires
  /-- Model's own: every event delivered so far, oldest first (R49, R177; log 27). -/
  events : List Event
  /-- Model's own: the requests the host has yet to issue, next first (R48; log 1). -/
  inbox : List Request
  /-- Model's own: the draw `alloc_ok` that came with the request being run (R171; log 10). -/
  allocOk : Bool
  /-- Model's own: the index of the next free value (log 11). -/
  freeIdx : Nat
deriving DecidableEq, Repr

/-- Transients of a candidate that no operation has computed yet (R33: no reset value; log 24). -/
def CandWires.unset : CandWires where
  cand := 0
  cinv := false
  syndrome := 0
  eok := false
  pattern := 0
  corr := 0
  data := 0
  t3ok := false
  code := 0
  inrom := false

/-- Transients that no operation has computed yet (R33: no reset value; log 24). -/
def Wires.unset : Wires where
  x := .zero
  y := .zero
  zc := false
  bnd := false
  bit := false
  k := .a
  candA := .unset
  candNotA := .unset
  candB := .unset
  candNotB := .unset
  found := false
  dcode := 0
  dinv := false
  matched := false
  emitReq := false
  emitted := false

/-- The machine before any CREATE: `LIFE = ABSENT` (R20, R212). An absent instance has no other register (R20); the
values they hold here are the reset values of R39 where it gives one, and otherwise those of log 12. -/
def State.reset : State where
  life := .absent
  busy := false
  status := .ok
  fs := 0
  alpha := .zero
  spb := .zero
  lpfY := .zero
  prevY := .zero
  bitPhase := .zero
  bitAcc := .zero
  windowA := 0
  windowB := 0
  lastCode := none
  lastInv := false
  counter := 0
  sinkEn := false
  sink := 0
  sinkCtx := 0
  synTable := ⟨[]⟩
  codeRom := Config.codeRom
  nSample := 0
  nBit := 0
  wires := .unset
  events := []
  inbox := []
  allocOk := true
  freeIdx := 0

end Sys2Proof.Machine
end

