-- ==== Sys2Proof/Machine/F64.lean ====
section
/-! DEFINITION. Arithmetic of the instance F64 of NUM (R9): each operator is one IEEE 754 binary64 operation, rounded
to nearest, ties to even; none is fused. Every finite value is an integer number of units of 2^-1074, so a result is
computed exactly as a quotient of integers and rounded once. Log 5, log 6. -/

namespace Sys2Proof

/-- The sign bit. -/
def F64.sign (a : F64) : Bool := a.bits.toNat.testBit 63

/-- The eleven exponent bits. -/
def F64.expo (a : F64) : Nat := a.bits.toNat / 2 ^ 52 % 2 ^ 11

/-- The 52 fraction bits. -/
def F64.frac (a : F64) : Nat := a.bits.toNat % 2 ^ 52

/-- Neither an infinity nor a NaN: what R192 asks of every sample and every intermediate result. -/
def F64.isFinite (a : F64) : Bool := a.expo != 2047

/-- A NaN. -/
def F64.isNaN (a : F64) : Bool := a.expo == 2047 && a.frac != 0

/-- The magnitude of a finite value in units of 2^-1074. -/
def F64.mag (a : F64) : Nat :=
  if a.expo = 0 then a.frac else (2 ^ 52 + a.frac) * 2 ^ (a.expo - 1)

/-- A finite value in units of 2^-1074. -/
def F64.units (a : F64) : Int := if a.sign then -(a.mag : Int) else (a.mag : Int)

/-- The real value of a finite pattern. -/
def F64.toRat (a : F64) : ℚ := (a.units : ℚ) / 2 ^ 1074

/-- The pattern of an infinity, without its sign. -/
def F64.infBits : Nat := 2047 * 2 ^ 52

/-- The NaN that stands for every NaN result: PRESUMED, no result can depend on it (log 6). -/
def F64.nan : F64 := ⟨0x7FF8000000000000#64⟩

/-- A sign in front of a magnitude pattern. -/
def F64.pack (neg : Bool) (bits : Nat) : F64 :=
  ⟨BitVec.ofNat 64 (if neg then 2 ^ 63 + bits else bits)⟩

/-- The quotient of two integers, rounded to nearest, ties to even (R9). -/
def roundQuotient (num den : Nat) : Nat :=
  let q := num / den
  let r := num % den
  if 2 * r < den then q
  else if den < 2 * r then q + 1
  else q + q % 2

/-- The pattern of the magnitude `num / den` units of 2^-1074, rounded once to 53 significant bits, gradual underflow
below; an infinity where the rounded value is too large. -/
def F64.roundBits (num den : Nat) : Nat :=
  let shift := Nat.log2 (num / den) - 52
  min (shift * 2 ^ 52 + roundQuotient num (den * 2 ^ shift)) F64.infBits

/-- The value `num / den` units of 2^-1074, rounded; a zero takes the given sign. -/
def F64.ofUnits (num : Int) (den : Nat) (zeroNeg : Bool) : F64 :=
  if num = 0 then F64.pack zeroNeg 0 else F64.pack (decide (num < 0)) (F64.roundBits num.natAbs den)

/-- The value of a natural number. -/
def F64.ofNat (n : Nat) : F64 := F64.ofUnits (n * 2 ^ 1074) 1 false

/-- Negation: the sign bit inverted. -/
def F64.neg (a : F64) : F64 := ⟨a.bits ^^^ 0x8000000000000000#64⟩

/-- Addition. -/
def F64.add (a b : F64) : F64 :=
  if a.isFinite && b.isFinite then F64.ofUnits (a.units + b.units) 1 (a.sign && b.sign)
  else if a.isNaN || b.isNaN then F64.nan
  else if a.isFinite then b
  else if b.isFinite then a
  else if a.sign == b.sign then a
  else F64.nan

/-- Subtraction. -/
def F64.sub (a b : F64) : F64 := F64.add a (F64.neg b)

/-- Multiplication. -/
def F64.mul (a b : F64) : F64 :=
  let neg := a.sign ^^ b.sign
  if a.isFinite && b.isFinite then F64.ofUnits (a.units * b.units) (2 ^ 1074) neg
  else if a.isNaN || b.isNaN then F64.nan
  else if (a.isFinite && a.mag == 0) || (b.isFinite && b.mag == 0) then F64.nan
  else F64.pack neg F64.infBits

/-- Division. -/
def F64.div (a b : F64) : F64 :=
  let neg := a.sign ^^ b.sign
  if a.isNaN || b.isNaN then F64.nan
  else if a.isFinite && b.isFinite then
    if b.mag = 0 then (if a.mag = 0 then F64.nan else F64.pack neg F64.infBits)
    else F64.ofUnits (if neg then -((a.mag * 2 ^ 1074 : Nat) : Int) else ((a.mag * 2 ^ 1074 : Nat) : Int)) b.mag neg
  else if a.isFinite then F64.pack neg 0
  else if b.isFinite then F64.pack neg F64.infBits
  else F64.nan

/-- The place of a value in the usual order: both zeros at 0 (R9), the infinities at the ends. -/
def F64.orderKey (a : F64) : Int :=
  if a.sign then -((a.bits.toNat % 2 ^ 63 : Nat) : Int) else ((a.bits.toNat % 2 ^ 63 : Nat) : Int)

/-- `a < b`: false where either is a NaN. -/
def F64.lt (a b : F64) : Bool := !a.isNaN && !b.isNaN && decide (a.orderKey < b.orderKey)

/-- `a <= b`: false where either is a NaN. -/
def F64.le (a b : F64) : Bool := !a.isNaN && !b.isNaN && decide (a.orderKey ≤ b.orderKey)

/-- The value 1. -/
def F64.one : F64 := ⟨0x3FF0000000000000#64⟩

/-- The value 2. -/
def F64.two : F64 := ⟨0x4000000000000000#64⟩

/-- The value nearest 0.05 (R98). -/
def F64.nudgeFrac : F64 := ⟨0x3FA999999999999A#64⟩

/-- The value nearest 134.4 (R90). -/
def F64.bitRate : F64 := ⟨0x4060CCCCCCCCCCCD#64⟩

/-- The value nearest pi (R81). -/
def F64.pi : F64 := ⟨0x400921FB54442D18#64⟩

/-- `FC` = 300 (R6). -/
def F64.cornerFreq : F64 := ⟨0x4072C00000000000#64⟩

/-- The scale of the fixed-point arithmetic in which `exp` is computed before it is rounded. -/
def expScale : Nat := 2 ^ 256

/-- `exp(-u)` for `0 <= u < 1` in fixed point: the series in nested form, `n` terms from term `k` on. -/
def expSeries (u : Nat) : Nat → Nat → Nat
  | 0, _ => expScale
  | n + 1, k => expScale - u * expSeries u n (k + 1) / (expScale * k)

/-- `n` squarings in fixed point. -/
def squareTimes : Nat → Nat → Nat
  | 0, h => h
  | n + 1, h => squareTimes n (h * h / expScale)

/-- The binary64 value nearest `exp(t)` for a `t` at or below zero: the argument is divided by 2^12, the series
summed, and the result squared twelve times. Zero where the argument is not finite or is below -4096. -/
def F64.expNearest (t : F64) : F64 :=
  if t.isFinite && decide (t.mag < 2 ^ 1086) then
    let u := t.mag * 2 ^ 256 / 2 ^ 1086
    F64.ofUnits ((squareTimes 12 (expSeries u 48 1) * 2 ^ 1074 : Nat) : Int) expScale false
  else F64.zero

/-- The binary64 value an implementation's `exp` gives: `off - 4` units in the last place from the nearest one
(R81 "a correctly rounded or near-correctly rounded exp"; D27, U10; log 7). -/
def F64.expWithin (off : Fin 9) (t : F64) : F64 :=
  F64.pack false ((F64.expNearest t).bits.toNat + off.val - 4)

end Sys2Proof
end

