-- ==== Sys2Proof/Machine/Num.lean ====
section
/-! DEFINITION. The numeric part of the pipeline over any instance of NUM (R7, R9): what LPF, ZCN, ACC, PHI, SLC and
CFGS compute, written once. The machine uses the instance F64; `exactOps` is exact arithmetic over an ordered field,
whose case of the real numbers is the instance REAL. Log 5. -/

namespace Sys2Proof.Machine

/-- The operations and constants of an instance of NUM that the rules use (R9). -/
structure NumOps (N : Type) where
  zero : N
  one : N
  two : N
  /-- `NUDGE_FRAC` = 0.05 (R98). -/
  nudgeFrac : N
  /-- `BITRATE` = 134.4 (R90). -/
  bitRate : N
  ofNat : Nat → N
  add : N → N → N
  sub : N → N → N
  mul : N → N → N
  div : N → N → N
  lt : N → N → Bool
  le : N → N → Bool

/-- The instance F64: IEEE 754 binary64 (R9). -/
def f64Ops : NumOps F64 where
  zero := F64.zero
  one := F64.one
  two := F64.two
  nudgeFrac := F64.nudgeFrac
  bitRate := F64.bitRate
  ofNat := F64.ofNat
  add := F64.add
  sub := F64.sub
  mul := F64.mul
  div := F64.div
  lt := F64.lt
  le := F64.le

/-- Exact arithmetic over an ordered field; REAL is the case of the real numbers (R9). -/
def exactOps (K : Type) [Field K] [LinearOrder K] : NumOps K where
  zero := 0
  one := 1
  two := 2
  nudgeFrac := 1 / 20
  bitRate := 672 / 5
  ofNat := fun n => (n : K)
  add := fun a b => a + b
  sub := fun a b => a - b
  mul := fun a b => a * b
  div := fun a b => a / b
  lt := fun a b => decide (a < b)
  le := fun a b => decide (a ≤ b)

/-- `Y <- (ALPHA * X) + ((1 - ALPHA) * LPF_Y)`, in this grouping (R80). -/
def filtered {N : Type} (o : NumOps N) (alpha x lpfY : N) : N :=
  o.add (o.mul alpha x) (o.mul (o.sub o.one alpha) lpfY)

/-- `ZC` (R91, R99): a sign change between the previous and the current filtered value, in each `ZC_MODE`. -/
def signChange {N : Type} (o : NumOps N) (mode : ZcMode) (prev y : N) : Bool :=
  match mode with
  | .strict => (o.lt prev o.zero && o.lt o.zero y) || (o.lt o.zero prev && o.lt y o.zero)
  | .neg => o.lt prev o.zero != o.lt y o.zero
  | .pos => o.lt o.zero prev != o.lt o.zero y

/-- `HALF = SPB / 2` (R91, R98). -/
def halfPeriod {N : Type} (o : NumOps N) (spb : N) : N := o.div spb o.two

/-- `NUDGE = NUDGE_FRAC * SPB` (R91, R98). -/
def nudgeStep {N : Type} (o : NumOps N) (spb : N) : N := o.mul o.nudgeFrac spb

/-- The nudged phase (R91): as written, added below `HALF` and subtracted otherwise; reversed, the opposite (R7). -/
def nudgedPhase {N : Type} (o : NumOps N) (dir : NudgeDir) (spb phase : N) : N :=
  match dir, o.lt phase (halfPeriod o spb) with
  | .asWritten, true => o.add phase (nudgeStep o spb)
  | .asWritten, false => o.sub phase (nudgeStep o spb)
  | .reversed, true => o.sub phase (nudgeStep o spb)
  | .reversed, false => o.add phase (nudgeStep o spb)

/-- The phase after `ZCN` (R91). -/
def phaseAfterZcn {N : Type} (o : NumOps N) (mode : ZcMode) (dir : NudgeDir) (spb prev y phase : N) : N :=
  if signChange o mode prev y then nudgedPhase o dir spb phase else phase

/-- `BIT_ACC + Y` (R92). -/
def accumulated {N : Type} (o : NumOps N) (acc y : N) : N := o.add acc y

/-- `BIT_PHASE + 1` (R93). -/
def advancedPhase {N : Type} (o : NumOps N) (phase : N) : N := o.add phase o.one

/-- `BIT_PHASE >= SPB` (R94). -/
def atBoundary {N : Type} (o : NumOps N) (spb phase : N) : Bool := o.le spb phase

/-- The sliced bit: 1 where the accumulator is strictly positive (R94). -/
def slicedBit {N : Type} (o : NumOps N) (acc : N) : Bool := o.lt o.zero acc

/-- `BIT_PHASE - SPB` (R94). -/
def wrappedPhase {N : Type} (o : NumOps N) (spb phase : N) : N := o.sub phase spb

/-- `FS / BITRATE` (R90). -/
def samplesPerBit {N : Type} (o : NumOps N) (fs : Nat) : N := o.div (o.ofNat fs) o.bitRate

/-- The registers of type NUM (R21 to R25). -/
structure Front (N : Type) where
  alpha : N
  spb : N
  lpfY : N
  prevY : N
  bitPhase : N
  bitAcc : N
deriving DecidableEq, Repr

/-- The numeric part of one SAMPLE (R95, R173: LPF, ZCN, PRV, ACC, PHI, SLC in this order): the registers after it,
and the sliced bit where the sample is a bit boundary. -/
def Front.sample {N : Type} (o : NumOps N) (mode : ZcMode) (dir : NudgeDir) (f : Front N) (x : N) :
    Front N × Option Bool :=
  let y := filtered o f.alpha x f.lpfY
  let phase := advancedPhase o (phaseAfterZcn o mode dir f.spb f.prevY y f.bitPhase)
  let acc := accumulated o f.bitAcc y
  if atBoundary o f.spb phase then
    ({ f with lpfY := y, prevY := y, bitPhase := wrappedPhase o f.spb phase, bitAcc := o.zero },
      some (slicedBit o acc))
  else
    ({ f with lpfY := y, prevY := y, bitPhase := phase, bitAcc := acc }, none)

/-- A whole stream through the numeric part: the registers at the end, and what each sample sliced, in order. -/
def Front.stream {N : Type} (o : NumOps N) (mode : ZcMode) (dir : NudgeDir) :
    Front N → List N → Front N × List (Option Bool)
  | f, [] => (f, [])
  | f, x :: xs =>
    let r := Front.sample o mode dir f x
    let rest := Front.stream o mode dir r.1 xs
    (rest.1, r.2 :: rest.2)

/-- The argument of `exp` in R81 in F64: `-(2*pi * FC) / FS`, left to right. -/
def alphaExponent (fs : BitVec 32) : F64 :=
  F64.div (F64.mul (F64.mul (F64.neg F64.two) F64.pi) F64.cornerFreq) (F64.ofNat fs.toNat)

/-- `1 - exp(-(2*pi * FC) / FS)` in F64 (R81), for an `exp` that is `off - 4` units in the last place away from the
nearest value. -/
def alphaWithin (off : Fin 9) (fs : BitVec 32) : F64 :=
  F64.sub F64.one (F64.expWithin off (alphaExponent fs))

/-- `ALPHA` as this implementation computes it (R81, D27, U10). Log 7. -/
def alphaOf (fs : BitVec 32) : F64 := alphaWithin (Config.expUlp (alphaExponent fs).bits) fs

/-- `1 - exp(-(2*pi * FC) / FS)` in REAL: the exact real number (R81). -/
noncomputable def realAlpha (fs : Nat) : ℝ := 1 - Real.exp (-(2 * Real.pi * 300) / fs)

/-- An instance of NUM (R7, R9): its operations, what CFGA computes in it (R81), and which of its values are inside the
envelope (R192). -/
structure NumInstance (N : Type) where
  ops : NumOps N
  /-- CFGA: `ALPHA` from `FS` (R81). -/
  coefficient : BitVec 32 → N
  /-- Neither an infinity nor a NaN (R192). -/
  finite : N → Bool

/-- The instance F64. -/
def f64Instance : NumInstance F64 where
  ops := f64Ops
  coefficient := alphaOf
  finite := F64.isFinite

/-- The instance REAL: exact real arithmetic, in which every value is finite. -/
noncomputable def realInstance : NumInstance ℝ where
  ops := exactOps ℝ
  coefficient := fun fs => realAlpha fs.toNat
  finite := fun _ => true

/-- The registers of type NUM after a CREATE: CFGA, CFGS and INIT (R81, R90, R210). -/
def Front.created {N : Type} (I : NumInstance N) (fs : BitVec 32) : Front N where
  alpha := I.coefficient fs
  spb := samplesPerBit I.ops fs.toNat
  lpfY := I.ops.zero
  prevY := I.ops.zero
  bitPhase := I.ops.zero
  bitAcc := I.ops.zero

/-- The part of R192 that speaks of one SAMPLE: a finite sample and no result that overflows. -/
def Front.inEnvelope {N : Type} (I : NumInstance N) (mode : ZcMode) (dir : NudgeDir) (f : Front N) (x : N) : Bool :=
  let y := filtered I.ops f.alpha x f.lpfY
  let nudged := phaseAfterZcn I.ops mode dir f.spb f.prevY y f.bitPhase
  let acc := accumulated I.ops f.bitAcc y
  let phase := advancedPhase I.ops nudged
  I.finite x && I.finite y && I.finite nudged && I.finite acc && I.finite phase &&
    (!atBoundary I.ops f.spb phase || I.finite (wrappedPhase I.ops f.spb phase))

end Sys2Proof.Machine
end

