-- ==== Sys2Proof/Machine/Operands.lean ====
section
/-! DEFINITION. Operands: the candidates by their index (R33, R66), the fields of a 23-bit word (R59, R60), the tables
by their index (R40, R46), the event word (R63). -/

namespace Sys2Proof.Machine

/-- The four candidates in the order of R66, which is the order of R145. -/
def candOrder : List CandIdx := [.a, .notA, .b, .notB]

/-- The number of a candidate (R66). -/
def candNumber : CandIdx → BitVec 2
  | .a => 0
  | .notA => 1
  | .b => 2
  | .notB => 3

/-- The polarity of a candidate: bit 0 of its number (R66, R112). -/
def candInverted : CandIdx → Bool
  | .a => false
  | .notA => true
  | .b => false
  | .notB => true

/-- The transients of candidate k (R33). -/
def Wires.candidate (w : Wires) : CandIdx → CandWires
  | .a => w.candA
  | .notA => w.candNotA
  | .b => w.candB
  | .notB => w.candNotB

/-- The transients with those of candidate k replaced. -/
def Wires.setCandidate (w : Wires) (k : CandIdx) (c : CandWires) : Wires :=
  match k with
  | .a => { w with candA := c }
  | .notA => { w with candNotA := c }
  | .b => { w with candB := c }
  | .notB => { w with candNotB := c }

/-- The transients of the candidate in turn, changed by `f`. -/
def Wires.updateTurn (w : Wires) (f : CandWires → CandWires) : Wires :=
  w.setCandidate w.k (f (w.candidate w.k))

/-- The transients of the candidate in turn. -/
def Wires.turn (w : Wires) : CandWires := w.candidate w.k

/-- The data bits 22..11 of a 23-bit word (R59, R127). -/
def dataField (w : Word23) : Data12 := w.extractLsb' 11 12

/-- The top three data bits, `zero3` (R60, R140). -/
def zero3Field (d : Data12) : BitVec 3 := d.extractLsb' 9 3

/-- The low nine data bits, `code[8:0]` (R60, R140). -/
def codeField (d : Data12) : Code := d.extractLsb' 0 9

/-- `MemRead(ROM, c, 1)`: one bit of `CODE_ROM` (R40, R46, R142). -/
def romRead (rom : RomBits) (c : Code) : Bool := rom.getLsbD c.toNat

/-- The event word `{ctx, inv, code[8:0]}` (R63). -/
def Event.word (e : Event) : Nat := (e.ctx * 2 + e.inv.toNat) * 512 + e.code.toNat

/-- The status as the number CREATE returns (R190). -/
def Status.number : Status → Nat
  | .ok => 0
  | .createFail => 1

/-- `LAST_CODE` in its 10-bit encoding (R70). -/
def lastCodeBits : Option Code → BitVec 10
  | none => 0x3FF
  | some c => c.zeroExtend 10

/-- A `SYN_TABLE` entry as its 24 bits (R64). -/
def SynEntry.bits (e : SynEntry) : BitVec 24 := BitVec.ofBool e.valid ++ e.pattern

end Sys2Proof.Machine
end

