-- ==== Sys2Proof/Machine/Flags.lean ====
section
/-! DEFINITION. The conditions of R33 that a micro-operation computes: ZC, BND, BIT (F64), T3OK, INROM, VALID, MATCH,
EMITREQ, EMITTED. -/

namespace Sys2Proof.Machine

/-- `ZC` of the machine (R91, R99). -/
def flagZc (prevY y : F64) : Bool := signChange f64Ops Config.zcMode prevY y

/-- `BND` of the machine (R94). -/
def flagBnd (spb bitPhase : F64) : Bool := atBoundary f64Ops spb bitPhase

/-- `BIT` of the machine (R94). -/
def flagBit (bitAcc : F64) : Bool := slicedBit f64Ops bitAcc

/-- `T3OK` (R140). -/
def flagT3ok (d : Data12) : Bool := zero3Field d == 0

/-- `INROM` (R142). -/
def flagInrom (rom : RomBits) (c : Code) : Bool := romRead rom c

/-- `VALID[k]` (R144). -/
def CandWires.valid (c : CandWires) : Bool := c.eok && c.t3ok && c.inrom

/-- `MATCH` (R150). -/
def flagMatch (found : Bool) (dcode : Code) (dinv : Bool) (lastCode : Option Code) (lastInv : Bool) : Bool :=
  found && lastCode == some dcode && dinv == lastInv

/-- `EMITREQ`, from `MATCH` and the counter after the increment (R150, R154). -/
def flagEmitReq (matched : Bool) (newCounter : Nat) : Bool :=
  matched && decide (Config.confirmMin ≤ newCounter)

/-- `EMITTED` (R156). -/
def flagEmitted (emitReq sinkEn : Bool) : Bool := emitReq && sinkEn

end Sys2Proof.Machine
end

