-- ==== Sys2Proof/Machine/Ops.lean ====
section
/-! DEFINITION. The named operations: sequencing of outcomes, the table memory (R40, R41, R46), the refusal of a result
that is not finite (R192), the candidate in turn (R173), delivery of an event (R156), the one failure (R190). -/

namespace Sys2Proof.Machine

/-- What an operation of this machine answers. -/
abbrev Result := Host.Outcome State Fault Refusal

/-- One operation after another: a stop ends the sequence (R48). -/
def andThen (o : Result) (f : State → Result) : Result :=
  match o with
  | .next s => f s
  | .fault r => .fault r
  | .refused r => .refused r

/-- An entry of `SYN` that nothing has written: the source's sentinel, `valid = 0` (R64, R123 step 1; log 25). -/
def SynEntry.sentinel : SynEntry := ⟨false, 0⟩

/-- The cell at an index, or the sentinel where none is listed. -/
def readCells : List (Nat × SynEntry) → Nat → SynEntry
  | [], _ => SynEntry.sentinel
  | (j, e) :: rest, i => if i = j then e else readCells rest i

/-- The cells with one replaced, kept in rising order. -/
def insertCell : List (Nat × SynEntry) → Nat → SynEntry → List (Nat × SynEntry)
  | [], i, e => [(i, e)]
  | (j, d) :: rest, i, e =>
    if i < j then (i, e) :: (j, d) :: rest
    else if i = j then (i, e) :: rest
    else (j, d) :: insertCell rest i e

/-- The cells without the one at an index. -/
def removeCell : List (Nat × SynEntry) → Nat → List (Nat × SynEntry)
  | [], _ => []
  | (j, d) :: rest, i => if i = j then rest else (j, d) :: removeCell rest i

/-- `MemRead(SYN, s, 24)` (R10, R46). -/
def Memory.read (m : Memory) (s : Syndrome) : SynEntry := readCells m.cells s.toNat

/-- `MemWrite(SYN, s, 24, e)` (R10): writing the sentinel removes the cell, so equal tables are equal data. -/
def Memory.write (m : Memory) (s : Syndrome) (e : SynEntry) : Memory :=
  if e = SynEntry.sentinel then ⟨removeCell m.cells s.toNat⟩ else ⟨insertCell m.cells s.toNat e⟩

/-- The table with the sentinel in every entry. -/
def Memory.empty : Memory := ⟨[]⟩

/-- Cells in rising order from `lo` on, each inside the table and none the sentinel. -/
def cellsWf : Nat → List (Nat × SynEntry) → Bool
  | _, [] => true
  | lo, (j, e) :: rest =>
    decide (lo ≤ j) && decide (j < Config.synEntries) && decide (e ≠ SynEntry.sentinel) && cellsWf (j + 1) rest

/-- The canonical form of the table memory. -/
def Memory.wf (m : Memory) : Bool := cellsWf 0 m.cells

/-- The transients changed by `f`. -/
def State.mapWires (s : State) (f : Wires → Wires) : State := { s with wires := f s.wires }

/-- The transients of the candidate in turn changed by `f`. -/
def State.mapTurn (s : State) (f : CandWires → CandWires) : State := s.mapWires (fun w => w.updateTurn f)

/-- Candidate k made the one in turn: the loop of R173. -/
def State.turnTo (s : State) (k : CandIdx) : State := s.mapWires (fun w => { w with k := k })

/-- `t`, where the value just computed is finite; refused otherwise (R192, U4; log 20). -/
def guardFinite (v : F64) (t : State) : Result :=
  if v.isFinite then .next t else .refused .intermediateOverflow

/-- The event `EMIT` delivers (R156). -/
def State.eventDue (s : State) : Event where
  sink := s.sink
  ctx := s.sinkCtx
  inv := s.wires.dinv
  code := s.wires.dcode

/-- `deliver to SINK` (R156, R177). -/
def State.deliver (s : State) (e : Event) : State := { s with events := s.events ++ [e] }

/-- The one failure, CreationFailure (R10 `raise`, R171, R190): the status says so, nothing else changes, no register
holds the pc or a cause and there is no return from it (R193, R195). -/
def State.creationFailure (s : State) : State := { s with status := .createFail }

/-- What every host operation checks: it does not come from inside the sink (R214), and the lifecycle state is the one
it needs (R176). -/
def guardHostOp (op : HostOp) (need : Life) (s : State) (act : State → Result) : Result :=
  if s.busy then .refused (.reentrant op)
  else if s.life ≠ need then .refused (.wrongLifecycle op)
  else act s

end Sys2Proof.Machine
end

