-- ==== Sys2Proof/Machine/Clock.lean ====
section
/-! DEFINITION. The bit clock and slicer: ZCN, ACC, PHI, SLC, CFGS (41_bitclock_slicer.md). -/

namespace Sys2Proof.Machine

/-- ZCN (R91): `ZC`, and the nudged phase where it is true. -/
def opZcn (s : State) : Result :=
  if flagZc s.prevY s.wires.y then
    let phase := nudgedPhase f64Ops Config.nudgeDir s.spb s.bitPhase
    guardFinite phase { s with bitPhase := phase, wires := { s.wires with zc := true } }
  else .next { s with wires := { s.wires with zc := false } }

/-- ACC (R92): `BIT_ACC <- BIT_ACC + Y`. -/
def opAcc (s : State) : Result :=
  let acc := accumulated f64Ops s.bitAcc s.wires.y
  guardFinite acc { s with bitAcc := acc }

/-- PHI (R93): `BIT_PHASE <- BIT_PHASE + 1`. -/
def opPhi (s : State) : Result :=
  let phase := advancedPhase f64Ops s.bitPhase
  guardFinite phase { s with bitPhase := phase }

/-- SLC (R94): `BND`; at a boundary the bit, the wrapped phase and the cleared accumulator. -/
def opSlc (s : State) : Result :=
  if flagBnd s.spb s.bitPhase then
    let phase := wrappedPhase f64Ops s.spb s.bitPhase
    guardFinite phase
      { s with bitPhase := phase, bitAcc := F64.zero, wires := { s.wires with bnd := true, bit := flagBit s.bitAcc } }
  else .next { s with wires := { s.wires with bnd := false } }

/-- CFGS (R90): `SPB <- FS / BITRATE`. -/
def opCfgs (s : State) : State := { s with spb := samplesPerBit f64Ops s.fs.toNat }

/-- ZCN, micro-operation 0x01 (R91). -/
def execZcn (s : State) : Result := opZcn s

/-- ACC, micro-operation 0x03 (R92). -/
def execAcc (s : State) : Result := opAcc s

/-- PHI, micro-operation 0x04 (R93). -/
def execPhi (s : State) : Result := opPhi s

/-- SLC, micro-operation 0x05 (R94). -/
def execSlc (s : State) : Result := opSlc s

/-- CFGS, micro-operation 0x19 (R90). -/
def execCfgs (s : State) : Result := .next (opCfgs s)

end Sys2Proof.Machine
end

