-- ==== Sys2Proof/Machine/Confirm.lean ====
section
/-! DEFINITION. The confirmation layer and the event: CNF, EMIT (45_confirmation.md). -/

namespace Sys2Proof.Machine

/-- CNF (R150): a miss decays the counter (R151), a different decode replaces the pair (R152), an equal one counts up
(R153) and asks for an event from `CONFIRM_MIN` on (R154). -/
def opCnf (s : State) : State :=
  let w := s.wires
  let matched := flagMatch w.found w.dcode w.dinv s.lastCode s.lastInv
  if !w.found then
    { s with counter := s.counter - 1, wires := { w with matched := matched, emitReq := false } }
  else if !matched then
    { s with
      lastCode := some w.dcode
      lastInv := w.dinv
      counter := 1
      wires := { w with matched := matched, emitReq := false } }
  else
    { s with
      counter := s.counter + 1
      wires := { w with matched := matched, emitReq := flagEmitReq matched (s.counter + 1) } }

/-- EMIT (R156): the event delivered where one is asked for and a sink is bound. -/
def opEmit (s : State) : State :=
  if flagEmitted s.wires.emitReq s.sinkEn then
    (s.deliver s.eventDue).mapWires (fun w => { w with emitted := true })
  else s.mapWires (fun w => { w with emitted := false })

/-- CNF, micro-operation 0x10 (R150). -/
def execCnf (s : State) : Result := .next (opCnf s)

/-- EMIT, micro-operation 0x11 (R156). -/
def execEmit (s : State) : Result := .next (opEmit s)

end Sys2Proof.Machine
end

