-- ==== Sys2Proof/Machine/Filter.lean ====
section
/-! DEFINITION. The low-pass filter: LPF, PRV, CFGA (40_lpf.md). -/

namespace Sys2Proof.Machine

/-- LPF (R80): `Y` and `LPF_Y` from `X`, `ALPHA`, `LPF_Y`. -/
def opLpf (s : State) : Result :=
  let y := filtered f64Ops s.alpha s.wires.x s.lpfY
  guardFinite y { s with lpfY := y, wires := { s.wires with y := y } }

/-- PRV (R83): `PREV_Y <- Y`. -/
def opPrv (s : State) : State := { s with prevY := s.wires.y }

/-- CFGA (R81): `ALPHA` from `FS`. -/
def opCfga (s : State) : State := { s with alpha := alphaOf s.fs }

/-- LPF, micro-operation 0x00 (R80). -/
def execLpf (s : State) : Result := opLpf s

/-- PRV, micro-operation 0x02 (R83). -/
def execPrv (s : State) : Result := .next (opPrv s)

/-- CFGA, micro-operation 0x18 (R81). -/
def execCfga (s : State) : Result := .next (opCfga s)

end Sys2Proof.Machine
end

