-- ==== Sys2Proof/Machine/Golay.lean ====
section
/-! DEFINITION. The Golay (23,12) syndrome and correction: SYN, TBLD, LUT, COR, EXT, and the test bench's encoder
(43_golay.md). -/

namespace Sys2Proof.Machine

/-- The positions of the long division, 22 down to 11 (R121). -/
def divisionPositions : List Nat := [22, 21, 20, 19, 18, 17, 16, 15, 14, 13, 12, 11]

/-- One step of the division: where bit i of the working value is set, the generator shifted to it is added (R121). -/
def divisionStep (r : Word23) (i : Nat) : Word23 :=
  if r.getLsbD i then r ^^^ (Config.generator <<< (i - 11)) else r

/-- `syndrome(W)` (R121). -/
def syndrome (w : Word23) : Syndrome := (divisionPositions.foldl divisionStep w).extractLsb' 0 11

/-- Every pattern with exactly `k` bits set among the `n` lowest positions, once each (R123). -/
def patterns : Nat → Nat → List Word23
  | _, 0 => [0#23]
  | 0, _ + 1 => []
  | n + 1, k + 1 => patterns n (k + 1) ++ (patterns n k).map (fun p => p ||| (1#23 <<< n))

/-- One pattern stored where the slot is still invalid: the first writer wins (R123). -/
def storePattern (m : Memory) (e : Word23) : Memory :=
  if (m.read (syndrome e)).valid then m else m.write (syndrome e) ⟨true, e⟩

/-- Steps 1 and 2 of R123: the sentinel everywhere, then entry 0. -/
def tableStart : Memory := Memory.empty.write 0 ⟨true, 0⟩

/-- Steps 3, 4, 5 of R123: the patterns of weight 1, then 2, then 3. -/
def builtTable : Memory := (patterns 23 1 ++ patterns 23 2 ++ patterns 23 3).foldl storePattern tableStart

/-- `ENC(d) = (d << 11) | syndrome(d << 11)`: a function of the test bench, no part of the block (R130). -/
def enc (d : Data12) : Word23 :=
  (d.zeroExtend 23 <<< 11) ||| (syndrome (d.zeroExtend 23 <<< 11)).zeroExtend 23

/-- SYN (R121): the syndrome of the candidate in turn. -/
def opSyn (s : State) : State := s.mapTurn (fun c => { c with syndrome := syndrome c.cand })

/-- LUT (R125): the table entry at that syndrome. -/
def opLut (s : State) : State :=
  s.mapTurn (fun c =>
    { c with eok := (s.synTable.read c.syndrome).valid, pattern := (s.synTable.read c.syndrome).pattern })

/-- COR (R126): the error pattern added to the candidate. -/
def opCor (s : State) : State := s.mapTurn (fun c => { c with corr := c.cand ^^^ c.pattern })

/-- EXT (R127): the data bits of the corrected word. -/
def opExt (s : State) : State := s.mapTurn (fun c => { c with data := dataField c.corr })

/-- TBLD (R123): the whole table written. -/
def opTbld (s : State) : State := { s with synTable := builtTable }

/-- SYN, micro-operation 0x09 (R121). -/
def execSyn (s : State) : Result := .next (opSyn s)

/-- LUT, micro-operation 0x0A (R125). -/
def execLut (s : State) : Result := .next (opLut s)

/-- COR, micro-operation 0x0B (R126). -/
def execCor (s : State) : Result := .next (opCor s)

/-- EXT, micro-operation 0x0C (R127). -/
def execExt (s : State) : Result := .next (opExt s)

/-- TBLD, micro-operation 0x1A (R123). -/
def execTbld (s : State) : Result := .next (opTbld s)

end Sys2Proof.Machine
end

