-- ==== Sys2Proof/Machine/Reset.lean ====
section
/-! DEFINITION. The reset of the streaming state: INIT (70_reset_and_hazards.md). -/

namespace Sys2Proof.Machine

/-- INIT (R210). `SINK` and `SINK_CTX` are unspecified until BIND: free values, the next of their kind (U8; log 11). -/
def opInit (s : State) : State :=
  { s with
    lpfY := F64.zero
    prevY := F64.zero
    bitPhase := F64.zero
    bitAcc := F64.zero
    windowA := 0
    windowB := 0
    lastCode := none
    lastInv := false
    counter := 0
    sinkEn := false
    sink := Config.freeSink s.freeIdx
    sinkCtx := Config.freeCtx s.freeIdx
    nSample := 0
    nBit := 0
    freeIdx := s.freeIdx + 1 }

/-- INIT, micro-operation 0x1B (R210). -/
def execInit (s : State) : Result := .next (opInit s)

end Sys2Proof.Machine
end

