-- ==== Sys2Proof/Machine/Validator.lean ====
section
/-! DEFINITION. The code validator and the selection: TOP3, ROMV, SEL (44_validator.md). -/

namespace Sys2Proof.Machine

/-- TOP3 (R140): `T3OK` and `CODE` of the candidate in turn. -/
def opTop3 (s : State) : State :=
  s.mapTurn (fun c => { c with t3ok := flagT3ok c.data, code := codeField c.data })

/-- ROMV (R142): `INROM` of the candidate in turn. -/
def opRomv (s : State) : State := s.mapTurn (fun c => { c with inrom := flagInrom s.codeRom c.code })

/-- The first valid candidate of a list (R145). -/
def firstValid (w : Wires) : List CandIdx → Option CandWires
  | [] => none
  | k :: rest => if (w.candidate k).valid then some (w.candidate k) else firstValid w rest

/-- SEL (R145): the decode of this bit boundary; on a miss `DCODE` and `DINV` are not written. -/
def opSel (s : State) : State :=
  s.mapWires (fun w =>
    match firstValid w candOrder with
    | some c => { w with found := true, dcode := c.code, dinv := c.cinv }
    | none => { w with found := false })

/-- TOP3, micro-operation 0x0D (R140). -/
def execTop3 (s : State) : Result := .next (opTop3 s)

/-- ROMV, micro-operation 0x0E (R142). -/
def execRomv (s : State) : Result := .next (opRomv s)

/-- SEL, micro-operation 0x0F (R145). -/
def execSel (s : State) : Result := .next (opSel s)

end Sys2Proof.Machine
end

