-- ==== Sys2Proof/Machine/Windows.lean ====
section
/-! DEFINITION. The shift windows and the candidate generator: WSHA, WSHB, CGEN (42_windows.md). -/

namespace Sys2Proof.Machine

/-- The sliced bit as a 23-bit value. -/
def bitWord (b : Bool) : Word23 := (BitVec.ofBool b).zeroExtend 23

/-- `(WINDOW_A >> 1) | (BIT << 22)` (R110). -/
def shiftedA (w : Word23) (b : Bool) : Word23 := (w >>> 1) ||| (bitWord b <<< 22)

/-- `((WINDOW_B << 1) | BIT) & 0x7FFFFF` (R111): the 23-bit type is the mask. -/
def shiftedB (w : Word23) (b : Bool) : Word23 := (w <<< 1) ||| bitWord b

/-- WSHA (R110). -/
def opWsha (s : State) : State := { s with windowA := shiftedA s.windowA s.wires.bit }

/-- WSHB (R111). -/
def opWshb (s : State) : State := { s with windowB := shiftedB s.windowB s.wires.bit }

/-- Candidate k and its polarity tag (R112). -/
def candidateOf (windowA windowB : Word23) : CandIdx → Word23
  | .a => windowA
  | .notA => ~~~windowA
  | .b => windowB
  | .notB => ~~~windowB

/-- The pair `CAND[k]`, `CINV[k]` written into the transients (R112). -/
def generateCandidate (windowA windowB : Word23) (w : Wires) (k : CandIdx) : Wires :=
  w.setCandidate k
    { w.candidate k with cand := candidateOf windowA windowB k, cinv := candInverted k }

/-- CGEN (R112): the four candidates. -/
def opCgen (s : State) : State :=
  s.mapWires (fun w => candOrder.foldl (generateCandidate s.windowA s.windowB) w)

/-- WSHA, micro-operation 0x06 (R110). -/
def execWsha (s : State) : Result := .next (opWsha s)

/-- WSHB, micro-operation 0x07 (R111). -/
def execWshb (s : State) : Result := .next (opWshb s)

/-- CGEN, micro-operation 0x08 (R112). -/
def execCgen (s : State) : Result := .next (opCgen s)

end Sys2Proof.Machine
end

