-- ==== Sys2Proof/Machine/HostOps.lean ====
section
/-! DEFINITION. The four host operations: CREATE, BIND, SAMPLE, DESTROY (46_host_operations.md). -/

namespace Sys2Proof.Machine

/-- The part of CREATE that runs where the allocation succeeds (R170). -/
def createInstance (fs : BitVec 32) (s : State) : State :=
  { opInit (opTbld (opCfgs (opCfga { s with fs := fs }))) with life := .ready, status := .ok }

/-- CREATE fs (R170, R171): refused where an instance exists (R176), for `fs = 0` (R170) and below the envelope
(R192); otherwise the environment's draw decides between a new instance and the creation failure. -/
def execCreate (fs : BitVec 32) (s : State) : Result :=
  guardHostOp .create .absent s (fun s =>
    if fs.toNat = 0 then .refused .zeroSampleRate
    else if fs.toNat < Config.minSampleRate then .refused .sampleRateOutsideEnvelope
    else if s.allocOk then .next (createInstance fs s)
    else .next s.creationFailure)

/-- BIND en, sink, ctx (R172). -/
def execBind (en : Bool) (sink ctx : Nat) (s : State) : Result :=
  guardHostOp .bind .ready s (fun s =>
    if en then .next { s with sinkEn := true, sink := sink, sinkCtx := ctx }
    else .next { s with sinkEn := false })

/-- The numeric micro-operations of every sample, in the order of R95 and R173. -/
def sampleFront (s : State) : Result :=
  andThen (andThen (andThen (andThen (opLpf s) opZcn) (fun t => opAcc (opPrv t))) opPhi) opSlc

/-- The micro-operations of one candidate (R173): COR, EXT, TOP3, ROMV are skipped for a sentinel (R125), and ROMV for
a candidate that TOP3 rejects (R140). -/
def decodeCandidate (s : State) (k : CandIdx) : State :=
  let t := opLut (opSyn (s.turnTo k))
  if t.wires.turn.eok then
    let u := opTop3 (opExt (opCor t))
    if u.wires.turn.t3ok then opRomv u else u
  else t

/-- The micro-operations of a bit boundary, in the order of R173. -/
def sampleBoundary (s : State) : State :=
  opEmit (opCnf (opSel (candOrder.foldl decodeCandidate (opCgen (opWshb (opWsha s))))))

/-- The end of a SAMPLE (R173): the boundary part or `EMITTED <- false`, and the ghost counters. -/
def sampleTail (s : State) : State :=
  if s.wires.bnd then
    { sampleBoundary s with nSample := s.nSample + 1, nBit := s.nBit + 1 }
  else
    { s with nSample := s.nSample + 1, wires := { s.wires with emitted := false } }

/-- SAMPLE x (R173). -/
def execSample (x : F64) (s : State) : Result :=
  guardHostOp .sample .ready s (fun s =>
    if x.isFinite then
      andThen (sampleFront { s with wires := { s.wires with x := x } }) (fun t => .next (sampleTail t))
    else .refused .nonFiniteSample)

/-- DESTROY (R175): the instance ceases to exist; what its registers held is not written (log 23). -/
def execDestroy (s : State) : Result :=
  guardHostOp .destroy .ready s (fun s => .next { s with life := .absent })

end Sys2Proof.Machine
end

