-- ==== Sys2Proof/Machine/Dispatch.lean ====
section
/-! DEFINITION. One arm per instruction: each is one direct call of its meaning. -/

namespace Sys2Proof.Machine

def exec (i : Instr) (s : State) : Host.Outcome State Fault Refusal :=
  match i with
  | .create fs => Sys2Proof.Machine.execCreate fs s
  | .bind en sink ctx => Sys2Proof.Machine.execBind en sink ctx s
  | .sample x => Sys2Proof.Machine.execSample x s
  | .destroy => Sys2Proof.Machine.execDestroy s
  | .lpf => Sys2Proof.Machine.execLpf s
  | .zcn => Sys2Proof.Machine.execZcn s
  | .prv => Sys2Proof.Machine.execPrv s
  | .acc => Sys2Proof.Machine.execAcc s
  | .phi => Sys2Proof.Machine.execPhi s
  | .slc => Sys2Proof.Machine.execSlc s
  | .wsha => Sys2Proof.Machine.execWsha s
  | .wshb => Sys2Proof.Machine.execWshb s
  | .cgen => Sys2Proof.Machine.execCgen s
  | .syn => Sys2Proof.Machine.execSyn s
  | .lut => Sys2Proof.Machine.execLut s
  | .cor => Sys2Proof.Machine.execCor s
  | .ext => Sys2Proof.Machine.execExt s
  | .top3 => Sys2Proof.Machine.execTop3 s
  | .romv => Sys2Proof.Machine.execRomv s
  | .sel => Sys2Proof.Machine.execSel s
  | .cnf => Sys2Proof.Machine.execCnf s
  | .emit => Sys2Proof.Machine.execEmit s
  | .cfga => Sys2Proof.Machine.execCfga s
  | .cfgs => Sys2Proof.Machine.execCfgs s
  | .tbld => Sys2Proof.Machine.execTbld s
  | .init => Sys2Proof.Machine.execInit s

end Sys2Proof.Machine
end

