-- ==== Sys2Proof/Machine/Fetch.lean ====
section
/-! DEFINITION. Taking the next request (R48), and the request a word of the opcode table stands for. -/

namespace Sys2Proof.Machine

/-- The state in which a request runs: it is off the inbox, its draw and its candidate are the ones in force, and the
instance is busy where its own sink is the caller (R20, R171, R214). -/
def State.accept (s : State) (r : Request) (rest : List Request) : State :=
  { s with
    inbox := rest
    busy := r.fromSink
    allocOk := r.allocOk
    wires := { s.wires with k := r.cand } }

/-- A request run: its instruction, or a refusal of the unused label by name (R58, R68). -/
def runRequest (s : State) (r : Request) (rest : List Request) : Result :=
  match decode r.format r.word with
  | .ok i => exec i (s.accept r rest)
  | .error (.unusedLabel u) => .refused (.unusedLabel u)

/-- The request that presents a word of the opcode table, with the draw and the candidate the state has. -/
def State.tableRequest (s : State) (nbits w : Nat) : Request where
  format := tableFormat nbits w
  word := w
  cand := s.wires.k
  allocOk := s.allocOk
  fromSink := false

/-- A request for an instruction in its encoding, from outside the sink. -/
def requestOf (i : Instr) (k : CandIdx) (allocOk : Bool) : Request where
  format := (encode i).1
  word := (encode i).2
  cand := k
  allocOk := allocOk
  fromSink := false

end Sys2Proof.Machine
end

