-- ==== Sys2Proof/Machine/Step.lean ====
section
/-! DEFINITION. The step: the next request of the inbox is run, whole (R46, R48). With none the block waits (R224). -/

namespace Sys2Proof.Machine

/-- One step: one operation of the host, atomic (D1, R46); nothing where the host issues none (R224). -/
def step (s : State) : Host.Outcome State Fault Refusal :=
  match s.inbox with
  | [] => .next s
  | r :: rest => runRequest s r rest

/-- The same state with a word of the opcode table presented as the next request. -/
def State.withFetchWord (s : State) (nbits w : Nat) : State :=
  { s with inbox := s.tableRequest nbits w :: s.inbox }

end Sys2Proof.Machine
end

