-- ==== Sys2Proof/Machine/Stimulus.lean ====
section
/-! DEFINITION. The pseudo-operations of the stimulus syntax (R72, R174) as the operations they expand to, and a run
of operations. -/

namespace Sys2Proof.Machine

/-- PROCESS (R72, R174): one SAMPLE for each value, in order. -/
def processOps (xs : List F64) : List Instr := xs.map Instr.sample

/-- REPEAT n SAMPLE x (R72). -/
def repeatOps (n : Nat) (x : F64) : List Instr := List.replicate n (.sample x)

/-- UNBIND (R72): `BIND NULL 0`. -/
def unbindOp : Instr := .bind false 0 0

/-- The sample NRZ sends for a bit: `+amp` for a 1, `-amp` for a 0 (R72). -/
def nrzSample (amp : F64) (b : Bool) : F64 := if b then amp else F64.neg amp

/-- The bit of the list that NRZ sends as its sample number j: `floor(j * 1344 / (10 * FS)) mod len` (R72). -/
def nrzBit (fs : Nat) (bits : List Bool) (j : Nat) : Bool :=
  bits.getD (j * 1344 / (10 * fs) % bits.length) false

/-- NRZ bits n amp (R72), for an instance with this `FS`. -/
def nrzOps (fs : Nat) (bits : List Bool) (n : Nat) (amp : F64) : List Instr :=
  (List.range n).map (fun j => .sample (nrzSample amp (nrzBit fs bits j)))

/-- Operations one after another, up to the first stop (R48). -/
def execAll : List Instr → State → Result
  | [], s => .next s
  | i :: is, s => andThen (exec i s) (execAll is)

/-- The registers of type NUM of a state. -/
def State.front (s : State) : Front F64 where
  alpha := s.alpha
  spb := s.spb
  lpfY := s.lpfY
  prevY := s.prevY
  bitPhase := s.bitPhase
  bitAcc := s.bitAcc

/-- A bit fed straight to the windows and all that follows them at a bit boundary (R173 from WSHA on). -/
def feedBit (s : State) (b : Bool) : State :=
  { sampleBoundary { s with wires := { s.wires with bnd := true, bit := b } } with nBit := s.nBit + 1 }

/-- Bits fed one per boundary, the first one first. -/
def feedBits (s : State) (bits : List Bool) : State := bits.foldl feedBit s

/-- The decoder over any instance of NUM (R7, R9): the numeric part slices the stream, and the bits go to the windows
and what follows them, which holds no value of type NUM. At `exactOps` of the real numbers it is the decoder in REAL. -/
def streamDecode {N : Type} (o : NumOps N) (f : Front N) (xs : List N) (s : State) : Front N × State :=
  let r := Front.stream o Config.zcMode Config.nudgeDir f xs
  (r.1, { feedBits s (r.2.filterMap id) with nSample := s.nSample + xs.length })

/-- The requests a host issues for a list of operations, with an allocation draw for each. -/
def requestsOf (ops : List (Instr × Bool)) : List Request := ops.map (fun p => requestOf p.1 .a p.2)

/-- The requests of one PROCESS call (R174), with the draw in force. -/
def sampleRequests (allocOk : Bool) (xs : List F64) : List Request :=
  requestsOf ((processOps xs).map (fun i => (i, allocOk)))

end Sys2Proof.Machine
end

