-- ==== Sys2Proof/Machine/Decoder.lean ====
section
/-! DEFINITION. The decoder with its number format as an argument (R7, R9, R36): a state, a reset and the four host
operations over any instance of NUM. At F64 it is the machine of `exec`; at REAL it is the decoder in exact real
arithmetic. What holds no value of type NUM is shared with the machine. Log 5. -/

namespace Sys2Proof.Machine

/-- A decoder over an instance of NUM: the registers of type NUM (R21 to R25), and all else. Nothing reads the registers
of type NUM that `rest` has as a state of the machine. -/
structure Decoder (N : Type) where
  num : Front N
  rest : State
deriving DecidableEq, Repr

/-- The four operations of the interface (R56), with the sample in the number format. -/
inductive HostCall (N : Type) where
  | create (fs : BitVec 32)
  | bind (en : Bool) (sink ctx : Nat)
  | sample (x : N)
  | destroy
deriving DecidableEq, Repr

/-- The instruction of a host operation in F64. -/
def HostCall.instr : HostCall F64 → Instr
  | .create fs => .create fs
  | .bind en sink ctx => .bind en sink ctx
  | .sample x => .sample x
  | .destroy => .destroy

/-- What an operation over NUM answers. -/
abbrev ResultIn (N : Type) := Host.Outcome (Decoder N) Fault Refusal

/-- An operation on all else, with the registers of type NUM it leaves. -/
def withNum {N : Type} (o : Result) (num : State → Front N) : ResultIn N :=
  match o with
  | .next t => .next ⟨num t, t⟩
  | .fault r => .fault r
  | .refused r => .refused r

/-- The decoder before any CREATE (R20, R212). -/
def Decoder.reset {N : Type} (I : NumInstance N) : Decoder N where
  num := ⟨I.ops.zero, I.ops.zero, I.ops.zero, I.ops.zero, I.ops.zero, I.ops.zero⟩
  rest := State.reset

/-- The bits of a SAMPLE after its numeric part, and the end of the SAMPLE (R173). -/
def restAfterSample (s : State) : Option Bool → State
  | some b => { feedBit s b with nSample := s.nSample + 1 }
  | none => { s with nSample := s.nSample + 1, wires := { s.wires with bnd := false, emitted := false } }

/-- SAMPLE over NUM (R173, R192). -/
def sampleIn {N : Type} (I : NumInstance N) (x : N) (d : Decoder N) : ResultIn N :=
  let r := Front.sample I.ops Config.zcMode Config.nudgeDir d.num x
  withNum
    (guardHostOp .sample .ready d.rest (fun s =>
      if !I.finite x then .refused .nonFiniteSample
      else if Front.inEnvelope I Config.zcMode Config.nudgeDir d.num x then .next (restAfterSample s r.2)
      else .refused .intermediateOverflow))
    (fun _ => r.1)

/-- A host operation over NUM (R170, R172, R173, R175). -/
def execIn {N : Type} (I : NumInstance N) (c : HostCall N) (d : Decoder N) : ResultIn N :=
  match c with
  | .create fs =>
    withNum (execCreate fs d.rest) (fun t => if t.life = .ready then Front.created I fs else d.num)
  | .bind en sink ctx => withNum (execBind en sink ctx d.rest) (fun _ => d.num)
  | .sample x => sampleIn I x d
  | .destroy => withNum (execDestroy d.rest) (fun _ => d.num)

/-- Operations over NUM one after another, up to the first stop (R48). -/
def runIn {N : Type} (I : NumInstance N) : List (HostCall N) → Decoder N → ResultIn N
  | [], d => .next d
  | c :: cs, d =>
    match execIn I c d with
    | .next e => runIn I cs e
    | .fault r => .fault r
    | .refused r => .refused r

/-- A decoder over F64 and a state of the machine with the same registers, events and requests: the registers of type
NUM are the decoder's own, and the transients may differ (R33, U18). -/
def Decoder.Agrees (d : Decoder F64) (s : State) : Prop :=
  d.num = s.front ∧
  { d.rest with
    alpha := s.alpha, spb := s.spb, lpfY := s.lpfY, prevY := s.prevY, bitPhase := s.bitPhase, bitAcc := s.bitAcc
    wires := s.wires } = s

/-- R38(a), R38(b), R97 of a decoder in REAL: while an instance exists its coefficient lies strictly between 0 and 1,
its period is at least 2, and its phase is inside the period. -/
def Decoder.RealInv (d : Decoder ℝ) : Prop :=
  d.rest.life = .ready → 0 < d.num.alpha ∧ d.num.alpha < 1 ∧ 2 ≤ d.num.spb ∧
    0 ≤ d.num.bitPhase ∧ d.num.bitPhase < d.num.spb

end Sys2Proof.Machine
end

