-- ==== Sys2Proof/Safety.lean ====
section
/-! DEFINITION. What counts as a safe run, in the terms the statements use: the operating envelope (R192), the
invariants between operations (R38), and the boundary part as one function of the registers, without the transients,
against which the micro-operations are compared. -/

namespace Sys2Proof.Machine

/-- Only command words are pending: what a host can issue (R56, R58). -/
def State.hostOnly (s : State) : Bool := s.inbox.all (fun r => r.format == .cmd)

/-- The part of R192 that speaks of one SAMPLE: a finite sample and no result that overflows. -/
def State.sampleInEnvelope (s : State) (x : F64) : Bool :=
  Front.inEnvelope f64Instance Config.zcMode Config.nudgeDir s.front x

/-- What holds between the operations of a host (R38, and what follows it): the table is the one R123 builds, the
configuration is a function of `FS` (R21, R216), `PREV_Y` equals `LPF_Y` (g), the counter is 0 while no decode has been
seen (h), and every code seen or delivered is recognized (R159). -/
structure State.Inv (s : State) : Prop where
  notBusy : s.busy = false
  tableForm : s.synTable.wf = true
  romForm : romAdmissible s.codeRom = true
  tableBuilt : s.life = .ready → s.synTable = builtTable
  rate : s.life = .ready → Config.minSampleRate ≤ s.fs.toNat
  alphaConstant : s.life = .ready → s.alpha = alphaOf s.fs
  spbConstant : s.life = .ready → s.spb = samplesPerBit f64Ops s.fs.toNat
  latched : s.life = .ready → s.prevY = s.lpfY
  quiet : s.life = .ready → s.lastCode = none → s.counter = 0
  lastRecognized : s.life = .ready → ∀ c, s.lastCode = some c → romRead s.codeRom c = true
  bitsCounted : s.life = .ready → s.nBit ≤ s.nSample
  eventsRecognized : ∀ e ∈ s.events, romRead s.codeRom e.code = true

/-- The weight `wt(v)` of a 23-bit word (R8). -/
def weight (w : Word23) : Nat := (List.range 23).countP (fun i => w.getLsbD i)

/-- The product of a polynomial of degree at most 11 and g(x), over GF(2) (R120, R122). -/
def multipleOfG (q : Data12) : Word23 :=
  (List.range 12).foldl (fun r i => if q.getLsbD i then r ^^^ (Config.generator <<< i) else r) 0

/-- A codeword: a multiple of the generator (R122). -/
def IsCodeword (w : Word23) : Prop := ∃ q : Data12, w = multipleOfG q

/-- A word rotated left by one place within 23 bits (R132). -/
def rotated (w : Word23) : Word23 := (w <<< 1) ||| (w >>> 22)

/-- The word with its 23 bits in the opposite order (R43). -/
def reversed23 (w : Word23) : Word23 := BitVec.ofFnLE (fun i : Fin 23 => w.getLsbD (22 - i.val))

/-- The bits of a word, bit 22 first (R43: sent MSB-first). -/
def bitsMsbFirst (w : Word23) : List Bool := (List.range 23).map (fun i => w.getLsbD (22 - i))

/-- The bits of a word, bit 0 first (R43: sent LSB-first). -/
def bitsLsbFirst (w : Word23) : List Bool := (List.range 23).map (fun i => w.getLsbD i)

/-- The window after a run of bits, the first one first (R110). -/
def windowAAfter (w : Word23) (bits : List Bool) : Word23 := bits.foldl shiftedA w

/-- The window after a run of bits, the first one first (R111). -/
def windowBAfter (w : Word23) (bits : List Bool) : Word23 := bits.foldl shiftedB w

/-- The code a word decodes to, if any, as a function of the tables alone (R121, R125 to R127, R140, R142, R144). -/
def codeOf (table : Memory) (rom : RomBits) (w : Word23) : Option Code :=
  let e := table.read (syndrome w)
  let d := dataField (w ^^^ e.pattern)
  if e.valid && zero3Field d == 0 && romRead rom (codeField d) then some (codeField d) else none

/-- The decode of a bit boundary (R112, R145): the first candidate that decodes, with its polarity. -/
def decodeOf (table : Memory) (rom : RomBits) (windowA windowB : Word23) : Option (Code × Bool) :=
  match codeOf table rom windowA, codeOf table rom (~~~windowA), codeOf table rom windowB,
      codeOf table rom (~~~windowB) with
  | some c, _, _, _ => some (c, false)
  | none, some c, _, _ => some (c, true)
  | none, none, some c, _ => some (c, false)
  | none, none, none, some c => some (c, true)
  | none, none, none, none => none

/-- The confirmation state (R150): the last pair, none where no decode has been seen, and the counter. -/
structure Confirmation where
  last : Option (Code × Bool)
  counter : Nat
deriving DecidableEq, Repr

/-- The source's transition table (R150), with the row for a match at counter 0 (R155). -/
def Confirmation.next (c : Confirmation) (decode : Option (Code × Bool)) : Confirmation :=
  match decode with
  | none => ⟨c.last, c.counter - 1⟩
  | some p => if c.last = some p then ⟨c.last, c.counter + 1⟩ else ⟨some p, 1⟩

/-- Whether a decode asks for an event (R154): it equals the last pair and the counter was at least 1. -/
def Confirmation.emits (c : Confirmation) (decode : Option (Code × Bool)) : Bool :=
  decode.isSome && decide (c.last = decode) && decide (1 ≤ c.counter)

/-- A run of decodes, one per bit boundary. -/
def Confirmation.after (c : Confirmation) (decodes : List (Option (Code × Bool))) : Confirmation :=
  decodes.foldl Confirmation.next c

/-- The confirmation state of the machine. -/
def State.confirmation (s : State) : Confirmation :=
  ⟨s.lastCode.map (fun c => (c, s.lastInv)), s.counter⟩

/-- Every register and record but the transients. -/
def State.sameButWires (s t : State) : Prop := t = { s with wires := t.wires }

end Sys2Proof.Machine
end

