-- ==== Sys2Proof/Certificates/Slice0/Obligations.lean ====
section
/-! DEFINITION. The statements for the provers, one `def Obligations.<Name> : Prop` each. A docstring names the rule a
statement formalises; where a clause is the model's own choice it names the log entry. -/

open Sys2Proof Sys2Proof.Machine

/-! Encoding and the step -/

/-- R56, R57, R58, R68: words written out from the spec's encodings decode to the operations they stand for, exactly
the ten unused labels are rejected, and no two labels name one micro-operation. (Which words of the opcode table are
read as labels is the model's choice, log 3.) -/
def Obligations.WrittenWordsDecode : Prop :=
  decodeTableWord 40 0xFA00 = some (.create 16000#32) ∧
  decodeTableWord 72 0xFFC0000000000002 = some (.sample F64.one) ∧
  decodeTableWord 16 0x3 = some .destroy ∧
  decodeCmdAt 8 0x2D = .bind true 0 5 ∧
  decodeCmdAt 8 0x53D = .bind true 0 0xA7 ∧
  decodeCmdAt 8 0x1 = .bind false 0 0 ∧
  decodeTableWord 8 0x0A = some .lut ∧
  decodeTableWord 8 0x1A = some .tbld ∧
  (∀ u : BitVec 5, decodeUop u = .error (.unusedLabel u) ↔
    (0x12 ≤ u.toNat ∧ u.toNat ≤ 0x17) ∨ 0x1C ≤ u.toNat) ∧
  (∀ (u v : BitVec 5) (i : Instr), decodeUop u = .ok i → decodeUop v = .ok i → u = v)

/-- R56, R57, R58: decoding the encoding of a well-formed instruction gives the instruction back, with every operand
at every value the encoding admits, at every width of the context. -/
def Obligations.DecodeInvertsEncode : Prop :=
  ∀ (ctxw : Nat) (i : Instr), i.wellFormedAt ctxw = true →
    decodeAt ctxw (encodeAt ctxw i).1 (encodeAt ctxw i).2 = .ok i

/-- R48, R224: a step takes the next request and runs the instruction its word decodes to, with the request's caller,
draw and candidate in force; with no request the block waits; an unused label is refused by name. (The inbox is the
model's own, log 1; that a label can be a request is log 2.) -/
def Obligations.StepRunsTheDecodedInstruction : Prop :=
  (∀ (s : State) (r : Request) (rest : List Request) (i : Instr),
    s.inbox = r :: rest → decode r.format r.word = .ok i →
      step s = exec i { s with
        inbox := rest, busy := r.fromSink, allocOk := r.allocOk, wires := { s.wires with k := r.cand } }) ∧
  (∀ s : State, s.inbox = [] → step s = .next s) ∧
  (∀ (s : State) (r : Request) (rest : List Request) (u : BitVec 5),
    s.inbox = r :: rest → decode r.format r.word = .error (.unusedLabel u) →
      step s = .refused (.unusedLabel u))

/-! Reset and invariants -/

/-- R20, R176, R212: before any CREATE the instance is absent and nothing has been delivered, and every host operation
but CREATE is refused. -/
def Obligations.ResetStateIsAbsent : Prop :=
  State.reset.life = .absent ∧ State.reset.events = [] ∧ State.reset.inbox = [] ∧
  (∀ (en : Bool) (sink ctx : Nat), exec (.bind en sink ctx) State.reset = .refused (.wrongLifecycle .bind)) ∧
  (∀ x : F64, exec (.sample x) State.reset = .refused (.wrongLifecycle .sample)) ∧
  exec .destroy State.reset = .refused (.wrongLifecycle .destroy)

/-- The invariants between operations hold in the reset state. -/
def Obligations.ResetStateMeetsTheInvariants : Prop := State.reset.Inv

/-- R38, R21, R31, R32, R159: every step of a machine whose pending requests are command words keeps the invariants
between operations: the table is the one R123 builds, `ALPHA` and `SPB` are those of `FS`, `PREV_Y = LPF_Y`, the
counter is 0 while no decode has been seen, and every code seen or delivered is recognized. -/
def Obligations.EveryHostStepKeepsTheInvariants : Prop :=
  ∀ s t : State, s.Inv → s.hostOnly = true → step s = .next t → t.Inv ∧ t.hostOnly = true

/-- R32, R41: every step, of a micro-operation alone too, keeps the canonical form of the table memory (the model's
representation, log 25) and never writes `CODE_ROM`. -/
def Obligations.EveryStepKeepsTheTables : Prop :=
  ∀ s t : State, s.synTable.wf = true → step s = .next t → t.synTable.wf = true ∧ t.codeRom = s.codeRom

/-- R49, R96, R177, R194: a step delivers at most one event, after all earlier ones, to the sink that is bound. (The
record of delivered events is the model's own, log 27.) -/
def Obligations.AStepDeliversAtMostOneEvent : Prop :=
  ∀ s t : State, step s = .next t →
    t.events = s.events ∨
    (s.sinkEn = true ∧ ∃ (inv : Bool) (code : Code),
      t.events = s.events ++ [{ sink := s.sink, ctx := s.sinkCtx, inv := inv, code := code }])

/-! The host operations -/

/-- R170, R39, R210: CREATE with a rate inside the envelope, where the allocation succeeds, completes with the instance
in its reset state. `SINK` and `SINK_CTX` hold values that nothing is said of (R30); how `ALPHA` is rounded is log 7. -/
def Obligations.CreateMakesAnInstance : Prop :=
  ∀ (s : State) (fs : BitVec 32), s.busy = false → s.life = .absent → 269 ≤ fs.toNat → s.allocOk = true →
    ∃ sink ctx idx : Nat, exec (.create fs) s = .next { s with
      life := .ready
      status := .ok
      fs := fs
      alpha := alphaOf fs
      spb := F64.div (F64.ofNat fs.toNat) F64.bitRate
      lpfY := F64.zero
      prevY := F64.zero
      bitPhase := F64.zero
      bitAcc := F64.zero
      windowA := 0
      windowB := 0
      lastCode := none
      lastInv := false
      counter := 0
      sinkEn := false
      sink := sink
      sinkCtx := ctx
      synTable := builtTable
      nSample := 0
      nBit := 0
      freeIdx := idx }

/-- R171, R190: where the allocation fails CREATE completes with the status `CREATE_FAIL`, no instance and nothing else
changed, so that a later CREATE may succeed. -/
def Obligations.CreateFailureLeavesNoInstance : Prop :=
  ∀ (s : State) (fs : BitVec 32), s.busy = false → s.life = .absent → 269 ≤ fs.toNat → s.allocOk = false →
    exec (.create fs) s = .next { s with status := .createFail } ∧
    ∃ t, exec (.create fs) { s with status := .createFail, allocOk := true } = .next t ∧ t.life = .ready

/-- R170, R176, R192, R200: CREATE is refused for a rate of 0, for a rate below the envelope, and on an existing
instance. -/
def Obligations.CreateIsRefusedOutsideTheEnvelope : Prop :=
  (∀ (s : State) (fs : BitVec 32), s.busy = false → s.life = .absent → fs.toNat = 0 →
    exec (.create fs) s = .refused .zeroSampleRate) ∧
  (∀ (s : State) (fs : BitVec 32), s.busy = false → s.life = .absent → 1 ≤ fs.toNat → fs.toNat ≤ 268 →
    exec (.create fs) s = .refused .sampleRateOutsideEnvelope) ∧
  (∀ (s : State) (fs : BitVec 32), s.busy = false → s.life = .ready →
    exec (.create fs) s = .refused (.wrongLifecycle .create))

/-- R211, R175: nothing of an earlier instance survives: two absent states that agree on the world around the instance
are taken by CREATE to the same state. -/
def Obligations.CreateForgetsTheEarlierInstance : Prop :=
  ∀ (s u : State) (fs : BitVec 32), s.busy = false → u.busy = false → s.life = .absent → u.life = .absent →
    s.allocOk = true → u.allocOk = true → 269 ≤ fs.toNat → u.codeRom = s.codeRom → u.wires = s.wires →
    u.events = s.events → u.inbox = s.inbox → u.freeIdx = s.freeIdx →
      exec (.create fs) u = exec (.create fs) s

/-- R172: BIND writes the binding and nothing else, a second one replaces the first, and a detaching one writes
`SINK_EN` alone. -/
def Obligations.BindWritesTheBindingAlone : Prop :=
  (∀ (s : State) (sink ctx : Nat), s.busy = false → s.life = .ready →
    exec (.bind true sink ctx) s = .next { s with sinkEn := true, sink := sink, sinkCtx := ctx }) ∧
  (∀ (s : State) (sink ctx : Nat), s.busy = false → s.life = .ready →
    exec (.bind false sink ctx) s = .next { s with sinkEn := false }) ∧
  (∀ (s : State) (sink ctx sink' ctx' : Nat), s.busy = false → s.life = .ready →
    execAll [.bind true sink ctx, .bind true sink' ctx'] s = exec (.bind true sink' ctx') s)

/-- R176, R214: on an absent instance BIND, SAMPLE and DESTROY are refused, and from inside the sink all four host
operations are. -/
def Obligations.HostOperationsOutOfOrderAreRefused : Prop :=
  (∀ (s : State) (en : Bool) (sink ctx : Nat) (x : F64), s.busy = false → s.life = .absent →
    exec (.bind en sink ctx) s = .refused (.wrongLifecycle .bind) ∧
    exec (.sample x) s = .refused (.wrongLifecycle .sample) ∧
    exec .destroy s = .refused (.wrongLifecycle .destroy)) ∧
  (∀ (s : State) (fs : BitVec 32) (en : Bool) (sink ctx : Nat) (x : F64), s.busy = true →
    exec (.create fs) s = .refused (.reentrant .create) ∧
    exec (.bind en sink ctx) s = .refused (.reentrant .bind) ∧
    exec (.sample x) s = .refused (.reentrant .sample) ∧
    exec .destroy s = .refused (.reentrant .destroy))

/-- R175: DESTROY completes with the instance absent and delivers nothing. (That the register values are left in place
is the model's choice, log 23; no operation on an absent instance reads them.) -/
def Obligations.DestroyEndsTheInstance : Prop :=
  ∀ s : State, s.busy = false → s.life = .ready → exec .destroy s = .next { s with life := .absent }

/-- R192, R200: SAMPLE is refused for a sample that is not finite. It is refused too where a value it writes is not
finite: R192 only puts an intermediate overflow outside the envelope, and that the model refuses it, tested on each
written value, is the model's reading (log 20). -/
def Obligations.SampleIsRefusedOutsideTheEnvelope : Prop :=
  (∀ (s : State) (x : F64), s.busy = false → s.life = .ready → x.isFinite = false →
    exec (.sample x) s = .refused .nonFiniteSample) ∧
  (∀ (s : State) (x : F64), s.busy = false → s.life = .ready → x.isFinite = true → s.sampleInEnvelope x = false →
    exec (.sample x) s = .refused .intermediateOverflow)

/-- R173, R37, R95: a SAMPLE inside the envelope that is no bit boundary completes; it writes the numeric registers,
the sample count and transients, and delivers nothing. -/
def Obligations.SampleBetweenBitBoundaries : Prop :=
  ∀ (s : State) (x : F64) (f : Front F64), s.busy = false → s.life = .ready → s.sampleInEnvelope x = true →
    Front.sample f64Ops .strict .asWritten s.front x = (f, none) →
      ∃ w : Wires, exec (.sample x) s = .next { s with
          lpfY := f.lpfY
          prevY := f.prevY
          bitPhase := f.bitPhase
          bitAcc := f.bitAcc
          nSample := s.nSample + 1
          wires := w } ∧ w.emitted = false ∧ w.bnd = false ∧ w.x = x ∧ w.y = f.lpfY

/-- R173, R110, R111, R112, R144, R145, R150, R156: a SAMPLE inside the envelope that is a bit boundary completes, and
its twelve boundary micro-operations, run over the transients, come to one function of the registers: the shifted
windows, the first candidate that decodes, the confirmation table, and the event. -/
def Obligations.SampleAtABitBoundary : Prop :=
  ∀ (s : State) (x : F64) (f : Front F64) (b : Bool) (a bw : Word23) (d : Option (Code × Bool)),
    s.busy = false → s.life = .ready → s.sampleInEnvelope x = true →
    Front.sample f64Ops .strict .asWritten s.front x = (f, some b) →
    a = shiftedA s.windowA b → bw = shiftedB s.windowB b → d = decodeOf s.synTable s.codeRom a bw →
      ∃ w : Wires, exec (.sample x) s = .next { s with
          lpfY := f.lpfY
          prevY := f.prevY
          bitPhase := f.bitPhase
          bitAcc := f.bitAcc
          windowA := a
          windowB := bw
          lastCode := (match d with | some p => some p.1 | none => s.lastCode)
          lastInv := (match d with | some p => p.2 | none => s.lastInv)
          counter := (s.confirmation.next d).counter
          events := (match d with
            | some p =>
              if s.confirmation.emits d && s.sinkEn then
                s.events ++ [{ sink := s.sink, ctx := s.sinkCtx, inv := p.2, code := p.1 }]
              else s.events
            | none => s.events)
          nSample := s.nSample + 1
          nBit := s.nBit + 1
          wires := w } ∧
        w.emitted = (s.confirmation.emits d && s.sinkEn) ∧ w.bnd = true ∧ w.bit = b

/-- R173, R95, R125, R140: SAMPLE is its micro-operations in the order the rule lists them, those of a candidate
skipped as R125 and R140 say. -/
def Obligations.SampleRunsItsMicroOperationsInOrder : Prop :=
  (∀ (s : State) (x : F64), s.busy = false → s.life = .ready → x.isFinite = true →
    exec (.sample x) s =
      andThen (execAll [.lpf, .zcn, .prv, .acc, .phi, .slc] { s with wires := { s.wires with x := x } }) (fun t =>
        if t.wires.bnd then
          andThen (execAll [.wsha, .wshb, .cgen] t) (fun u =>
            andThen (execAll [.sel, .cnf, .emit] (candOrder.foldl decodeCandidate u)) (fun v =>
              .next { v with nSample := t.nSample + 1, nBit := t.nBit + 1 }))
        else .next { t with nSample := t.nSample + 1, wires := { t.wires with emitted := false } })) ∧
  (∀ (s : State) (k : CandIdx),
    .next (decodeCandidate s k) =
      andThen (execAll [.syn, .lut] { s with wires := { s.wires with k := k } }) (fun t =>
        if t.wires.turn.eok then
          andThen (execAll [.cor, .ext, .top3] t) (fun u => if u.wires.turn.t3ok then exec .romv u else .next u)
        else .next t))

/-- R156 ("With no sink bound the confirmation state is updated exactly as with one"): what SAMPLE does to every
register is the same whatever is bound; the delivery alone differs. -/
def Obligations.SampleDoesNotDependOnTheSink : Prop :=
  ∀ (s t : State) (x : F64) (en : Bool) (sink ctx : Nat), exec (.sample x) s = .next t →
    ∃ t' : State, exec (.sample x) { s with sinkEn := en, sink := sink, sinkCtx := ctx } = .next t' ∧
      t' = { t with
        sinkEn := en
        sink := sink
        sinkCtx := ctx
        events := t'.events
        wires := { t.wires with emitted := t'.wires.emitted } }

/-- R33 ("recomputed every time"): what SAMPLE does to every register and event is the same whatever the transients
held before. -/
def Obligations.SampleDoesNotDependOnTransients : Prop :=
  ∀ (s t : State) (x : F64) (w : Wires), exec (.sample x) s = .next t →
    ∃ t' : State, exec (.sample x) { s with wires := w } = .next t' ∧ t.sameButWires t'

/-- R37, R211, R216: SAMPLE writes the numeric registers on every sample and the windows, the confirmation state and
the events at bit boundaries only; the lifecycle, the configuration, the tables and the binding it never writes. -/
def Obligations.SampleWritesOnlyTheStreamingState : Prop :=
  ∀ (s t : State) (x : F64), exec (.sample x) s = .next t →
    (∃ (lpfY prevY bitPhase bitAcc : F64) (w : Wires), t = { s with
        lpfY := lpfY, prevY := prevY, bitPhase := bitPhase, bitAcc := bitAcc
        nSample := s.nSample + 1, wires := w }) ∨
    (∃ (lpfY prevY bitPhase bitAcc : F64) (w : Wires) (a b : Word23) (c : Option Code) (i : Bool) (n : Nat)
        (es : List Event), t = { s with
        lpfY := lpfY, prevY := prevY, bitPhase := bitPhase, bitAcc := bitAcc, windowA := a, windowB := b
        lastCode := c, lastInv := i, counter := n, events := es
        nSample := s.nSample + 1, nBit := s.nBit + 1, wires := w })

/-! The micro-operations -/

/-- R80: LPF completes where its result is finite, with `Y` and `LPF_Y` the filtered value in the grouping the rule
writes, and nothing else written. -/
def Obligations.LpfWritesTheFilteredValue : Prop :=
  ∀ (s : State) (y : F64),
    y = F64.add (F64.mul s.alpha s.wires.x) (F64.mul (F64.sub F64.one s.alpha) s.lpfY) → y.isFinite = true →
      exec .lpf s = .next { s with lpfY := y, wires := { s.wires with y := y } }

/-- R91, R99: ZCN nudges the phase at a strict sign change, up below half a period and down from there on, and without
a sign change leaves it. (That a value of exactly zero has no sign and that the direction is as written are the spec's
decisions, log 14 and log 15.) -/
def Obligations.ZcnNudgesThePhaseAtACrossing : Prop :=
  (∀ s : State,
    ((F64.lt s.prevY F64.zero && F64.lt F64.zero s.wires.y) ||
      (F64.lt F64.zero s.prevY && F64.lt s.wires.y F64.zero)) = false →
      exec .zcn s = .next { s with wires := { s.wires with zc := false } }) ∧
  (∀ (s : State) (p : F64),
    ((F64.lt s.prevY F64.zero && F64.lt F64.zero s.wires.y) ||
      (F64.lt F64.zero s.prevY && F64.lt s.wires.y F64.zero)) = true →
    F64.lt s.bitPhase (F64.div s.spb F64.two) = true →
    p = F64.add s.bitPhase (F64.mul F64.nudgeFrac s.spb) → p.isFinite = true →
      exec .zcn s = .next { s with bitPhase := p, wires := { s.wires with zc := true } }) ∧
  (∀ (s : State) (p : F64),
    ((F64.lt s.prevY F64.zero && F64.lt F64.zero s.wires.y) ||
      (F64.lt F64.zero s.prevY && F64.lt s.wires.y F64.zero)) = true →
    F64.lt s.bitPhase (F64.div s.spb F64.two) = false →
    p = F64.sub s.bitPhase (F64.mul F64.nudgeFrac s.spb) → p.isFinite = true →
      exec .zcn s = .next { s with bitPhase := p, wires := { s.wires with zc := true } })

/-- R83, R92, R93: PRV latches `Y`; ACC adds it to the accumulator and PHI adds 1 to the phase where the sum is finite
(the other case is log 20); none writes anything else. -/
def Obligations.PrvAccPhiWriteOneRegisterEach : Prop :=
  (∀ s : State, exec .prv s = .next { s with prevY := s.wires.y }) ∧
  (∀ s : State, (F64.add s.bitAcc s.wires.y).isFinite = true →
    exec .acc s = .next { s with bitAcc := F64.add s.bitAcc s.wires.y }) ∧
  (∀ s : State, (F64.add s.bitPhase F64.one).isFinite = true →
    exec .phi s = .next { s with bitPhase := F64.add s.bitPhase F64.one })

/-- R94: SLC at a boundary slices 1 for a strictly positive accumulator and 0 otherwise, subtracts the period from the
phase and clears the accumulator; before a boundary it writes `BND` alone. -/
def Obligations.SlcSlicesABitAtABoundary : Prop :=
  (∀ s : State, F64.le s.spb s.bitPhase = true → (F64.sub s.bitPhase s.spb).isFinite = true →
    exec .slc s = .next { s with
      bitPhase := F64.sub s.bitPhase s.spb
      bitAcc := F64.zero
      wires := { s.wires with bnd := true, bit := F64.lt F64.zero s.bitAcc } }) ∧
  (∀ s : State, F64.le s.spb s.bitPhase = false →
    exec .slc s = .next { s with wires := { s.wires with bnd := false } })

/-- R192, R200: a numeric micro-operation whose result is not finite is outside the envelope and refused. (That the
single micro-operation is refused, as the SAMPLE that runs it is, is log 20.) -/
def Obligations.NumericMicroOperationsRefuseOverflow : Prop :=
  (∀ s : State, (filtered f64Ops s.alpha s.wires.x s.lpfY).isFinite = false →
    exec .lpf s = .refused .intermediateOverflow) ∧
  (∀ s : State, flagZc s.prevY s.wires.y = true → (nudgedPhase f64Ops .asWritten s.spb s.bitPhase).isFinite = false →
    exec .zcn s = .refused .intermediateOverflow) ∧
  (∀ s : State, (F64.add s.bitAcc s.wires.y).isFinite = false → exec .acc s = .refused .intermediateOverflow) ∧
  (∀ s : State, (F64.add s.bitPhase F64.one).isFinite = false → exec .phi s = .refused .intermediateOverflow) ∧
  (∀ s : State, F64.le s.spb s.bitPhase = true → (F64.sub s.bitPhase s.spb).isFinite = false →
    exec .slc s = .refused .intermediateOverflow)

/-- R110, R111: WSHA and WSHB complete with their window shifted by one place and the sliced bit in the place
that falls free, as a number and bit by bit, and write nothing else. -/
def Obligations.WindowShiftsMoveEveryBitOnePlace : Prop :=
  (∀ s : State, ∃ a : Word23, exec .wsha s = .next { s with windowA := a } ∧
    a.toNat = s.windowA.toNat / 2 + s.wires.bit.toNat * 2 ^ 22 ∧
    ∀ i, i < 23 → a.getLsbD i = (if i = 22 then s.wires.bit else s.windowA.getLsbD (i + 1))) ∧
  (∀ s : State, ∃ b : Word23, exec .wshb s = .next { s with windowB := b } ∧
    b.toNat = (s.windowB.toNat * 2 + s.wires.bit.toNat) % 2 ^ 23 ∧
    ∀ i, i < 23 → b.getLsbD i = (if i = 0 then s.wires.bit else s.windowB.getLsbD (i - 1)))

/-- R112: CGEN completes with the four candidates, the two windows and their complements over 23 bits, each with its
polarity, and writes nothing else. -/
def Obligations.CgenFormsTheFourCandidates : Prop :=
  ∀ s : State, ∃ a na b nb : CandWires,
    exec .cgen s = .next { s with
      wires := { s.wires with candA := a, candNotA := na, candB := b, candNotB := nb } } ∧
    a = { s.wires.candA with cand := s.windowA, cinv := false } ∧
    na = { s.wires.candNotA with cand := BitVec.ofNat 23 (0x7FFFFF - s.windowA.toNat), cinv := true } ∧
    b = { s.wires.candB with cand := s.windowB, cinv := false } ∧
    nb = { s.wires.candNotB with cand := BitVec.ofNat 23 (0x7FFFFF - s.windowB.toNat), cinv := true }

/-- R121, R122(a): SYN completes with the syndrome of the candidate in turn, the remainder of its division by g(x): the
candidate is a multiple of g(x) plus it. It writes nothing else. -/
def Obligations.SynIsTheRemainderByTheGenerator : Prop :=
  ∀ s : State, ∃ (r : Syndrome) (q : Data12),
    exec .syn s = .next { s with wires := s.wires.updateTurn (fun c => { c with syndrome := r }) } ∧
    s.wires.turn.cand = multipleOfG q ^^^ r.zeroExtend 23

/-- R125, R126, R127, R140, R142: LUT, COR, EXT, TOP3 and ROMV complete with the transients of the candidate in turn
that their rules name written, and no other register, table, candidate or transient. -/
def Obligations.CandidateOperationsWriteTheirTransients : Prop :=
  ∀ s : State,
    exec .lut s = .next { s with wires := s.wires.updateTurn (fun c => { c with
      eok := (s.synTable.read c.syndrome).valid, pattern := (s.synTable.read c.syndrome).pattern }) } ∧
    exec .cor s = .next { s with wires := s.wires.updateTurn (fun c => { c with corr := c.cand ^^^ c.pattern }) } ∧
    exec .ext s = .next { s with wires := s.wires.updateTurn (fun c => { c with
      data := BitVec.ofNat 12 (c.corr.toNat / 2 ^ 11) }) } ∧
    exec .top3 s = .next { s with wires := s.wires.updateTurn (fun c => { c with
      t3ok := decide (c.data.toNat < 512), code := BitVec.ofNat 9 (c.data.toNat % 512) }) } ∧
    exec .romv s = .next { s with wires := s.wires.updateTurn (fun c => { c with
      inrom := s.codeRom.getLsbD c.code.toNat }) }

/-- R144, R145: SEL completes with the decode of the first valid candidate in the order A, ~A, B, ~B, or with a miss
where none is valid, and writes nothing else. (The order of priority is the spec's decision, log 17.) -/
def Obligations.SelTakesTheFirstValidCandidate : Prop :=
  ∀ s : State, ∃ w : Wires, exec .sel s = .next { s with wires := w } ∧
    ((∃ k : CandIdx, (s.wires.candidate k).eok = true ∧ (s.wires.candidate k).t3ok = true ∧
        (s.wires.candidate k).inrom = true ∧
        (∀ j : CandIdx, (candNumber j).toNat < (candNumber k).toNat →
          ((s.wires.candidate j).eok && (s.wires.candidate j).t3ok && (s.wires.candidate j).inrom) = false) ∧
        w = { s.wires with
          found := true, dcode := (s.wires.candidate k).code, dinv := (s.wires.candidate k).cinv }) ∨
      ((∀ k : CandIdx,
          ((s.wires.candidate k).eok && (s.wires.candidate k).t3ok && (s.wires.candidate k).inrom) = false) ∧
        w = { s.wires with found := false }))

/-- R151: on a miss CNF completes with the pair unchanged, the counter one lower and never below zero, and no event
asked for. -/
def Obligations.CnfOnAMissDecaysTheCounter : Prop :=
  ∀ s : State, s.wires.found = false →
    exec .cnf s = .next { s with
      counter := max (s.counter - 1) 0, wires := { s.wires with matched := false, emitReq := false } }

/-- R152: a valid decode that differs from the last pair, in the code or in the polarity, becomes the pair, with the
counter 1 whatever it was and no event asked for; the first one after CREATE does. -/
def Obligations.CnfOnADifferentDecodeReplacesThePair : Prop :=
  ∀ s : State, s.wires.found = true → (s.lastCode ≠ some s.wires.dcode ∨ s.lastInv ≠ s.wires.dinv) →
    exec .cnf s = .next { s with
      lastCode := some s.wires.dcode
      lastInv := s.wires.dinv
      counter := 1
      wires := { s.wires with matched := false, emitReq := false } }

/-- R153, R154, R155: a valid decode that equals the last pair leaves it and counts up, and asks for an event exactly
where the new count is at least 2; at a count of 0 it only makes 1, which the source's table leaves out and the spec
decides (log 33, DESIGN CHOICE). In no other case does CNF ask for an event. -/
def Obligations.CnfOnAMatchCountsUpAndAsksForAnEvent : Prop :=
  (∀ s : State, s.wires.found = true → s.lastCode = some s.wires.dcode → s.lastInv = s.wires.dinv →
    exec .cnf s = .next { s with
      counter := s.counter + 1
      wires := { s.wires with matched := true, emitReq := decide (2 ≤ s.counter + 1) } }) ∧
  (∀ s : State, s.wires.found = true → s.lastCode = some s.wires.dcode → s.lastInv = s.wires.dinv → s.counter = 0 →
    exec .cnf s = .next { s with counter := 1, wires := { s.wires with matched := true, emitReq := false } }) ∧
  (∀ s t : State, exec .cnf s = .next t →
    (t.wires.emitReq = true ↔
      s.wires.found = true ∧ s.lastCode = some s.wires.dcode ∧ s.lastInv = s.wires.dinv ∧ 2 ≤ t.counter))

/-- R156: EMIT completes; it delivers the event to the bound sink with the bound context where `CNF` asked for
one, and otherwise delivers nothing. -/
def Obligations.EmitDeliversToTheBoundSink : Prop :=
  (∀ s : State, s.wires.emitReq = true → s.sinkEn = true →
    exec .emit s = .next { s with
      events := s.events ++ [{ sink := s.sink, ctx := s.sinkCtx, inv := s.wires.dinv, code := s.wires.dcode }]
      wires := { s.wires with emitted := true } }) ∧
  (∀ s : State, (s.wires.emitReq = false ∨ s.sinkEn = false) →
    exec .emit s = .next { s with wires := { s.wires with emitted := false } })

/-- R81, R90, R123, R210: the four micro-operations of CREATE complete: CFGA and CFGS write `ALPHA` and `SPB` from `FS`,
TBLD the table, INIT the streaming state, and none anything else. `ALPHA` is 1 less a value of `exp` within four units
in the last place of the nearest (log 7); `SINK` and `SINK_CTX` hold values that nothing is said of (log 11). -/
def Obligations.ConfigurationMicroOperationsComplete : Prop :=
  (∀ s : State, ∃ off : Fin 9, exec .cfga s = .next { s with
    alpha := F64.sub F64.one (F64.expWithin off (F64.div (F64.mul (F64.mul (F64.neg F64.two) F64.pi) F64.cornerFreq)
      (F64.ofNat s.fs.toNat))) }) ∧
  (∀ s : State, exec .cfgs s = .next { s with spb := F64.div (F64.ofNat s.fs.toNat) F64.bitRate }) ∧
  (∀ s : State, exec .tbld s = .next { s with synTable := builtTable }) ∧
  (∀ s : State, ∃ sink ctx idx : Nat, exec .init s = .next { s with
    lpfY := F64.zero, prevY := F64.zero, bitPhase := F64.zero, bitAcc := F64.zero, windowA := 0, windowB := 0
    lastCode := none, lastInv := false, counter := 0, sinkEn := false, sink := sink, sinkCtx := ctx
    nSample := 0, nBit := 0, freeIdx := idx })

/-! The Golay code -/

/-- R122: the syndrome is the remainder by g(x) and zero exactly for codewords; it is linear; its values on the 23
single-bit words are those of the rule's table; the all-ones word is a codeword, so a word and its complement have
one syndrome. -/
def Obligations.SyndromeProperties : Prop :=
  (∀ w : Word23, ∃ q : Data12, w = multipleOfG q ^^^ (syndrome w).zeroExtend 23) ∧
  (∀ w : Word23, syndrome w = 0 ↔ IsCodeword w) ∧
  (∀ u v : Word23, syndrome (u ^^^ v) = syndrome u ^^^ syndrome v) ∧
  (List.range 23).map (fun i => (syndrome (1#23 <<< i)).toNat) =
    [0x001, 0x002, 0x004, 0x008, 0x010, 0x020, 0x040, 0x080, 0x100, 0x200, 0x400, 0x475,
      0x49F, 0x54B, 0x6E3, 0x1B3, 0x366, 0x6CC, 0x1ED, 0x3DA, 0x7B4, 0x31D, 0x63A] ∧
  syndrome 0x7FFFFF#23 = 0 ∧ (∀ w : Word23, syndrome (~~~w) = syndrome w)

/-- R124: after TBLD every entry is valid and holds the one pattern of weight at most 3 with that syndrome; entry 0 is
the zero pattern; 1, 23, 253 and 1771 entries hold a pattern of weight 0, 1, 2 and 3. -/
def Obligations.TableHoldsTheUniquePatternOfEachSyndrome : Prop :=
  (∀ s : Syndrome, (builtTable.read s).valid = true ∧ weight (builtTable.read s).pattern ≤ 3 ∧
    syndrome (builtTable.read s).pattern = s ∧
    ∀ e : Word23, weight e ≤ 3 → syndrome e = s → e = (builtTable.read s).pattern) ∧
  (builtTable.read 0).pattern = 0 ∧
  [0, 1, 2, 3].map (fun w => (List.range 2048).countP (fun s =>
    weight (builtTable.read (BitVec.ofNat 11 s)).pattern == w)) = [1, 23, 253, 1771]

/-- R131: every encoded message has syndrome zero, and every codeword with an error pattern of weight at most 3 is
mapped to that pattern and corrected to the codeword. -/
def Obligations.UpToThreeErrorsAreCorrected : Prop :=
  (∀ d : Data12, syndrome (enc d) = 0) ∧
  (∀ c e : Word23, IsCodeword c → weight e ≤ 3 →
    (builtTable.read (syndrome (c ^^^ e))).pattern = e ∧
    (c ^^^ e) ^^^ (builtTable.read (syndrome (c ^^^ e))).pattern = c) ∧
  (∀ s : Syndrome, (builtTable.read s).valid = true) ∧
  [0, 1, 2, 3].map (fun w => (List.range 2048).countP (fun s =>
    weight (builtTable.read (BitVec.ofNat 11 s)).pattern == w)) = [1, 23, 253, 1771]

/-- R128, R126: every 23-bit word has a valid entry and is corrected to a codeword, at distance at most 3 from it, and
no other codeword is that near. -/
def Obligations.EveryWordDecodesToTheNearestCodeword : Prop :=
  ∀ w : Word23,
    (builtTable.read (syndrome w)).valid = true ∧
    IsCodeword (w ^^^ (builtTable.read (syndrome w)).pattern) ∧
    weight (builtTable.read (syndrome w)).pattern ≤ 3 ∧
    ∀ c : Word23, IsCodeword c → weight (w ^^^ c) ≤ 3 → c = w ^^^ (builtTable.read (syndrome w)).pattern

/-- R129, R146: a word and its complement use one table entry and are corrected to complements, with complementary data
bits, so that never are both a valid decode, whatever codes are recognized. -/
def Obligations.AWordAndItsComplementAreNeverBothValid : Prop :=
  (∀ w : Word23, syndrome (~~~w) = syndrome w ∧
    (~~~w) ^^^ (builtTable.read (syndrome (~~~w))).pattern = ~~~(w ^^^ (builtTable.read (syndrome w)).pattern) ∧
    dataField ((~~~w) ^^^ (builtTable.read (syndrome (~~~w))).pattern) =
      ~~~(dataField (w ^^^ (builtTable.read (syndrome w)).pattern))) ∧
  (∀ (rom : RomBits) (w : Word23), codeOf builtTable rom w = none ∨ codeOf builtTable rom (~~~w) = none)

/-- R132: the code is cyclic, two different codewords differ in at least 7 places, and two of them in exactly 7. -/
def Obligations.TheCodeIsCyclicWithDistanceSeven : Prop :=
  (∀ w : Word23, IsCodeword w → IsCodeword (rotated w)) ∧
  (∀ w : Word23, IsCodeword w → w ≠ 0 → 7 ≤ weight w) ∧
  (∀ u v : Word23, IsCodeword u → IsCodeword v → u ≠ v → 7 ≤ weight (u ^^^ v)) ∧
  (∃ u v : Word23, IsCodeword u ∧ IsCodeword v ∧ u ≠ v ∧ weight (u ^^^ v) = 7)

/-- R130: the encoder puts the message in positions 22..11 and makes the syndrome zero, and it is the only one that
does; the codewords the rule lists are its values. -/
def Obligations.TheEncoderIsSystematic : Prop :=
  (∀ d : Data12, dataField (enc d) = d ∧ syndrome (enc d) = 0) ∧
  (∀ w : Word23, syndrome w = 0 → w = enc (dataField w)) ∧
  [0, 19, 21, 23, 25, 43, 114, 265, 412, 511].map (fun d => (enc (BitVec.ofNat 12 d)).toNat) =
    [0x000000, 0x009959, 0x00A88D, 0x00BC12, 0x00CB25, 0x015D6F, 0x039086, 0x08494C, 0x0CE02C, 0x0FFD6C]

/-! Windows and confirmation over time -/

/-- R43, R113: after 23 bits window A holds them first bit lowest and window B first bit highest, so A is the bit
reversal of B; a word sent in either order and either polarity is the candidate the rule names, with its polarity. -/
def Obligations.TheCandidatesRecoverASentWord : Prop :=
  (∀ (a b : Word23) (bits : List Bool), bits.length = 23 →
    (∀ i, i < 23 → (windowAAfter a bits).getLsbD i = bits.getD i false ∧
      (windowBAfter b bits).getLsbD (22 - i) = bits.getD i false) ∧
    windowAAfter a bits = reversed23 (windowBAfter b bits)) ∧
  (∀ a b c : Word23,
    (candidateOf (windowAAfter a (bitsLsbFirst c)) (windowBAfter b (bitsLsbFirst c)) .a = c ∧
      candInverted .a = false) ∧
    (candidateOf (windowAAfter a ((bitsLsbFirst c).map not)) (windowBAfter b ((bitsLsbFirst c).map not)) .notA = c ∧
      candInverted .notA = true) ∧
    (candidateOf (windowAAfter a (bitsMsbFirst c)) (windowBAfter b (bitsMsbFirst c)) .b = c ∧
      candInverted .b = false) ∧
    (candidateOf (windowAAfter a ((bitsMsbFirst c).map not)) (windowBAfter b ((bitsMsbFirst c).map not)) .notB = c ∧
      candInverted .notB = true))

/-- R159(c), R159(d): an event needs an earlier decode of its pair with no decode of another pair in between; and after
m misses a decode of the last pair makes the count max(c - m, 0) + 1 and asks for an event where that is at least 2. -/
def Obligations.AnEventNeedsAnEarlierDecodeOfItsPair : Prop :=
  (∀ (decodes : List (Option (Code × Bool))) (p : Code × Bool),
    ((⟨none, 0⟩ : Confirmation).after decodes).emits (some p) = true →
      ∃ earlier later, decodes = earlier ++ some p :: later ∧ ∀ d ∈ later, d = none ∨ d = some p) ∧
  (∀ (c : Confirmation) (p : Code × Bool) (m : Nat), c.last = some p →
    (c.after (List.replicate m none ++ [some p])).last = some p ∧
    (c.after (List.replicate m none ++ [some p])).counter = max (c.counter - m) 0 + 1 ∧
    ((c.after (List.replicate m none)).emits (some p) = true ↔
      2 ≤ (c.after (List.replicate m none ++ [some p])).counter))

/-! The numeric part: F64 -/

/-- R9: each F64 operator is one operation rounded to nearest, ties to even. Its result is finite exactly where the exact
one lies below the value from which rounding overflows, and then no finite value is nearer to the exact result, and where
one is equally near the result is the even one. Comparisons of finite values are the usual order. -/
def Obligations.F64OperationsRoundToNearestEven : Prop :=
  (∀ (a b r : F64) (q : ℚ), a.isFinite = true → b.isFinite = true →
    ((r = F64.add a b ∧ q = a.toRat + b.toRat) ∨ (r = F64.sub a b ∧ q = a.toRat - b.toRat) ∨
      (r = F64.mul a b ∧ q = a.toRat * b.toRat) ∨
      (r = F64.div a b ∧ b.toRat ≠ 0 ∧ q = a.toRat / b.toRat)) →
    (r.isFinite = true ↔ |q| < 2 ^ 1024 - 2 ^ 970) ∧
    (r.isFinite = true → ∀ c : F64, c.isFinite = true →
      |r.toRat - q| ≤ |c.toRat - q| ∧
      (|r.toRat - q| = |c.toRat - q| → c.toRat = r.toRat ∨ r.bits.getLsbD 0 = false))) ∧
  (∀ a b : F64, a.isFinite = true → b.isFinite = true →
    (F64.lt a b = true ↔ a.toRat < b.toRat) ∧ (F64.le a b = true ↔ a.toRat ≤ b.toRat))

/-- R85 in F64: with the sample and the feedback replaced by values of the opposite sign, the filtered value is the
negative one, exactly. -/
def Obligations.F64FilterIsSymmetricUnderNegation : Prop :=
  ∀ alpha x y x' y' : F64, alpha.isFinite = true → x.isFinite = true → y.isFinite = true →
    x'.isFinite = true → y'.isFinite = true → x'.toRat = -x.toRat → y'.toRat = -y.toRat →
    (filtered f64Ops alpha x y).isFinite = true →
      (filtered f64Ops alpha x' y').isFinite = true ∧
      (filtered f64Ops alpha x' y').toRat = -(filtered f64Ops alpha x y).toRat

/-- R38(a), R81 in F64: at every rate inside the envelope `ALPHA` lies strictly between 0 and 1, for every `exp` within
four units in the last place of the nearest value (log 7). -/
def Obligations.AlphaLiesBetweenZeroAndOne : Prop :=
  ∀ (off : Fin 9) (fs : BitVec 32), 269 ≤ fs.toNat →
    F64.lt F64.zero (alphaWithin off fs) = true ∧ F64.lt (alphaWithin off fs) F64.one = true

/-- R81, D27: the value of `exp` that the model rounds is within half a unit in the last place, to a relative 2^-53, of
the real exponential; and `ALPHA` in F64, for every `exp` within four units of that value, is within 2^-50 of the real
coefficient. (The four units are the model's bound on "near-correctly rounded", log 7.) -/
def Obligations.AlphaIsNearTheRealCoefficient : Prop :=
  (∀ t : F64, t.isFinite = true → -8 ≤ t.toRat → t.toRat ≤ 0 →
    (F64.expNearest t).isFinite = true ∧
    |((F64.expNearest t).toRat : ℝ) - Real.exp t.toRat| ≤ Real.exp t.toRat / 2 ^ 53) ∧
  (∀ (off : Fin 9) (fs : BitVec 32), 269 ≤ fs.toNat →
    (alphaWithin off fs).isFinite = true ∧
    |((alphaWithin off fs).toRat : ℝ) - realAlpha fs.toNat| ≤ 1 / 2 ^ 50)

/-- R86, R159(f): from the reset state of an instance, a stream of zero samples of any length keeps `LPF_Y` and `PREV_Y`
at zero, the windows at zero, the confirmation state at (-1, false, 0), and delivers no event. -/
def Obligations.SilenceGivesNoEvents : Prop :=
  ∀ (s t : State) (n : Nat), s.life = .ready → romAdmissible s.codeRom = true → s.synTable = builtTable →
    s.lpfY = F64.zero → s.prevY = F64.zero → s.bitAcc = F64.zero → s.windowA = 0 → s.windowB = 0 →
    s.lastCode = none → s.lastInv = false → s.counter = 0 →
    execAll (repeatOps n F64.zero) s = .next t →
      t.lpfY = F64.zero ∧ t.prevY = F64.zero ∧ t.windowA = 0 ∧ t.windowB = 0 ∧ t.lastCode = none ∧
      t.lastInv = false ∧ t.counter = 0 ∧ t.events = s.events ∧ t.nSample = s.nSample + n

/-- R72, R82, R174: the machine run on the requests for a sequence of samples in one call, or on two calls with any
number of idle steps after each, comes to one state, which is that of the whole sequence sent through the numeric part
and its bits fed to the windows. An empty call does nothing. (Requests and idle steps are the model's own, log 1.) -/
def Obligations.ProcessMayBeCutAnywhere : Prop :=
  ∀ (xs ys : List F64) (m n : Nat) (s u v : State), s.inbox = [] → s.busy = false →
    Sys2Proof.core.run (xs.length + m) { s with inbox := sampleRequests s.allocOk xs } = .next u →
    Sys2Proof.core.run (ys.length + n) { u with inbox := sampleRequests s.allocOk ys } = .next v →
      Sys2Proof.core.run (xs.length + ys.length) { s with inbox := sampleRequests s.allocOk (xs ++ ys) } = .next v ∧
      v.front = (streamDecode f64Ops s.front (xs ++ ys) s).1 ∧
      ∃ w : Wires, v = { (streamDecode f64Ops s.front (xs ++ ys) s).2 with
        lpfY := v.lpfY, prevY := v.prevY, bitPhase := v.bitPhase, bitAcc := v.bitAcc, wires := w }

/-- R3, R9, R173: the machine is the decoder over the instance F64: over a whole stream its numeric registers are those
of the numeric part, and every other register and event is that of the sliced bits fed to the windows. -/
def Obligations.TheMachineIsTheDecoderOverF64 : Prop :=
  ∀ (xs : List F64) (s t : State), execAll (processOps xs) s = .next t →
    t.front = (streamDecode f64Ops s.front xs s).1 ∧
    ∃ w : Wires, t = { (streamDecode f64Ops s.front xs s).2 with
      lpfY := t.lpfY, prevY := t.prevY, bitPhase := t.bitPhase, bitAcc := t.bitAcc, wires := w }

/-- R7, R9, R36, R170, R172, R173, R175: the machine is the decoder with NUM as its argument, taken at F64: from states
that agree, each host operation answers a next state in the one exactly where it does in the other, and these agree; and
it is refused in the one, by the same name, exactly where it is in the other. -/
def Obligations.EveryHostOperationIsThatOfTheDecoderOverF64 : Prop :=
  ∀ (c : HostCall F64) (d : Decoder F64) (s : State), d.Agrees s →
    (∀ t : State, exec c.instr s = .next t → ∃ e, execIn f64Instance c d = .next e ∧ e.Agrees t) ∧
    (∀ e, execIn f64Instance c d = .next e → ∃ t : State, exec c.instr s = .next t ∧ e.Agrees t) ∧
    (∀ r : Refusal, exec c.instr s = .refused r ↔ execIn f64Instance c d = .refused r)

/-! The numeric part: REAL -/

/-- R81, R38(a), R80, R170 in REAL: the coefficient lies strictly between 0 and 1 and falls as the rate grows; CREATE
makes an instance with it, the nominal period of its rate, and the filter, the phase and the accumulator at 0; and a
filtered value is no larger than the sample or the last one. -/
def Obligations.RealCoefficientAndFilterAreBounded : Prop :=
  (∀ fs : ℕ, 1 ≤ fs → 0 < realAlpha fs ∧ realAlpha fs < 1 ∧ ∀ fs' : ℕ, fs < fs' → realAlpha fs' < realAlpha fs) ∧
  (∀ (fs : BitVec 32) (d : Decoder ℝ), d.rest.busy = false → d.rest.life = .absent → d.rest.allocOk = true →
    269 ≤ fs.toNat → ∃ e : Decoder ℝ, execIn realInstance (.create fs) d = .next e ∧ e.rest.life = .ready ∧
      e.num = { alpha := 1 - Real.exp (-(2 * Real.pi * 300) / fs.toNat), spb := 10 * (fs.toNat : ℝ) / 1344
                lpfY := 0, prevY := 0, bitPhase := 0, bitAcc := 0 }) ∧
  (∀ alpha x y : ℝ, 0 < alpha → alpha < 1 → |filtered (exactOps ℝ) alpha x y| ≤ max |x| |y|)

/-- R90, R192 in REAL: the nominal period is 10*FS/1344, a whole number exactly when FS is a multiple of 672, and at
least 2 exactly for the rates from 269 on. -/
def Obligations.RealPeriodIsWholeForMultiplesOf672 : Prop :=
  ∀ fs : ℕ,
    samplesPerBit (exactOps ℝ) fs = 10 * (fs : ℝ) / 1344 ∧
    ((∃ n : ℕ, samplesPerBit (exactOps ℝ) fs = n) ↔ 672 ∣ fs) ∧
    (2 ≤ samplesPerBit (exactOps ℝ) fs ↔ 269 ≤ fs)

/-- R97, R96, R38(a), R38(b) in REAL: inside the envelope the phase stays in [0, SPB) from sample to sample, is below 1
right after a boundary, and below SPB + 1 when the boundary is tested, so that one test a sample is enough; in every
`ZC_MODE`. And every host operation of the decoder in REAL keeps the coefficient in (0, 1), the period at 2 or more and
the phase inside it. -/
def Obligations.RealPhaseStaysInRange : Prop :=
  (∀ (mode : ZcMode) (f : Front ℝ) (x : ℝ), 2 ≤ f.spb → 0 ≤ f.bitPhase → f.bitPhase < f.spb →
    let r := Front.sample (exactOps ℝ) mode .asWritten f x
    r.1.spb = f.spb ∧ 0 ≤ r.1.bitPhase ∧ r.1.bitPhase < f.spb ∧ (r.2.isSome = true → r.1.bitPhase < 1) ∧
    advancedPhase (exactOps ℝ) (phaseAfterZcn (exactOps ℝ) mode .asWritten f.spb f.prevY
      (filtered (exactOps ℝ) f.alpha x f.lpfY) f.bitPhase) < f.spb + 1) ∧
  (∀ (c : HostCall ℝ) (d e : Decoder ℝ), d.RealInv → execIn realInstance c d = .next e → e.RealInv)

/-- R85, R44 in REAL: negating the signal negates the filtered value and the accumulator, moves no phase and no
boundary, and complements every sliced bit whose accumulator is not zero. -/
def Obligations.RealNegatedSignalComplementsTheBits : Prop :=
  ∀ (f : Front ℝ) (x : ℝ),
    let g : Front ℝ := { f with lpfY := -f.lpfY, prevY := -f.prevY, bitAcc := -f.bitAcc }
    let r := Front.sample (exactOps ℝ) .strict .asWritten f x
    let n := Front.sample (exactOps ℝ) .strict .asWritten g (-x)
    n.1 = { r.1 with lpfY := -r.1.lpfY, prevY := -r.1.prevY, bitAcc := -r.1.bitAcc } ∧
    n.2.isSome = r.2.isSome ∧
    (f.bitAcc + filtered (exactOps ℝ) f.alpha x f.lpfY ≠ 0 → n.2 = r.2.map not)

/-- R179 in REAL: multiplying a whole stream by a positive constant changes no crossing, no phase, no boundary and no bit,
and multiplies the filtered values and the accumulator by the constant, in either direction of the nudge and every
`ZC_MODE`. -/
def Obligations.RealScaledStreamSlicesTheSameBits : Prop :=
  ∀ (mode : ZcMode) (dir : NudgeDir) (f : Front ℝ) (xs : List ℝ) (c : ℝ), 0 < c →
    let r := Front.stream (exactOps ℝ) mode dir f xs
    let g := Front.stream (exactOps ℝ) mode dir
      { f with lpfY := c * f.lpfY, prevY := c * f.prevY, bitAcc := c * f.bitAcc } (xs.map (fun x => c * x))
    g.2 = r.2 ∧
    g.1 = { r.1 with lpfY := c * r.1.lpfY, prevY := c * r.1.prevY, bitAcc := c * r.1.bitAcc } ∧
    ∀ x y : ℝ, filtered (exactOps ℝ) f.alpha (c * x) (c * y) = c * filtered (exactOps ℝ) f.alpha x y ∧
      signChange (exactOps ℝ) mode (c * x) (c * y) = signChange (exactOps ℝ) mode x y

/-- R100(a), R100(b) in REAL: on silence from reset every sliced bit is 0, n samples hold floor(n / SPB) boundaries,
and the phase is what is left over. -/
def Obligations.RealSilenceSlicesOneBitAPeriod : Prop :=
  ∀ (fs : BitVec 32) (n : ℕ), 269 ≤ fs.toNat →
    let f := Front.created realInstance fs
    let r := Front.stream (exactOps ℝ) .strict .asWritten f (List.replicate n 0)
    r.2.countP Option.isSome = n * 1344 / (10 * fs.toNat) ∧
    r.1.bitPhase = n - (n * 1344 / (10 * fs.toNat) : ℕ) * f.spb ∧
    r.1.bitAcc = 0 ∧ ∀ b, some b ∈ r.2 → b = false
end

