-- ==== Sys2Proof/Laws/State.lean ====
section
/-! SUPPORT. The fields of a state after each named update: one lemma per field per update. -/

namespace Sys2Proof.Machine

@[simp] theorem State.mapWires_life (s : State) (f : Wires → Wires) :
    (s.mapWires f).life = s.life := rfl
@[simp] theorem State.mapWires_busy (s : State) (f : Wires → Wires) :
    (s.mapWires f).busy = s.busy := rfl
@[simp] theorem State.mapWires_status (s : State) (f : Wires → Wires) :
    (s.mapWires f).status = s.status := rfl
@[simp] theorem State.mapWires_fs (s : State) (f : Wires → Wires) :
    (s.mapWires f).fs = s.fs := rfl
@[simp] theorem State.mapWires_alpha (s : State) (f : Wires → Wires) :
    (s.mapWires f).alpha = s.alpha := rfl
@[simp] theorem State.mapWires_spb (s : State) (f : Wires → Wires) :
    (s.mapWires f).spb = s.spb := rfl
@[simp] theorem State.mapWires_lpfY (s : State) (f : Wires → Wires) :
    (s.mapWires f).lpfY = s.lpfY := rfl
@[simp] theorem State.mapWires_prevY (s : State) (f : Wires → Wires) :
    (s.mapWires f).prevY = s.prevY := rfl
@[simp] theorem State.mapWires_bitPhase (s : State) (f : Wires → Wires) :
    (s.mapWires f).bitPhase = s.bitPhase := rfl
@[simp] theorem State.mapWires_bitAcc (s : State) (f : Wires → Wires) :
    (s.mapWires f).bitAcc = s.bitAcc := rfl
@[simp] theorem State.mapWires_windowA (s : State) (f : Wires → Wires) :
    (s.mapWires f).windowA = s.windowA := rfl
@[simp] theorem State.mapWires_windowB (s : State) (f : Wires → Wires) :
    (s.mapWires f).windowB = s.windowB := rfl
@[simp] theorem State.mapWires_lastCode (s : State) (f : Wires → Wires) :
    (s.mapWires f).lastCode = s.lastCode := rfl
@[simp] theorem State.mapWires_lastInv (s : State) (f : Wires → Wires) :
    (s.mapWires f).lastInv = s.lastInv := rfl
@[simp] theorem State.mapWires_counter (s : State) (f : Wires → Wires) :
    (s.mapWires f).counter = s.counter := rfl
@[simp] theorem State.mapWires_sinkEn (s : State) (f : Wires → Wires) :
    (s.mapWires f).sinkEn = s.sinkEn := rfl
@[simp] theorem State.mapWires_sink (s : State) (f : Wires → Wires) :
    (s.mapWires f).sink = s.sink := rfl
@[simp] theorem State.mapWires_sinkCtx (s : State) (f : Wires → Wires) :
    (s.mapWires f).sinkCtx = s.sinkCtx := rfl
@[simp] theorem State.mapWires_synTable (s : State) (f : Wires → Wires) :
    (s.mapWires f).synTable = s.synTable := rfl
@[simp] theorem State.mapWires_codeRom (s : State) (f : Wires → Wires) :
    (s.mapWires f).codeRom = s.codeRom := rfl
@[simp] theorem State.mapWires_nSample (s : State) (f : Wires → Wires) :
    (s.mapWires f).nSample = s.nSample := rfl
@[simp] theorem State.mapWires_nBit (s : State) (f : Wires → Wires) :
    (s.mapWires f).nBit = s.nBit := rfl
@[simp] theorem State.mapWires_wires (s : State) (f : Wires → Wires) :
    (s.mapWires f).wires = f s.wires := rfl
@[simp] theorem State.mapWires_events (s : State) (f : Wires → Wires) :
    (s.mapWires f).events = s.events := rfl
@[simp] theorem State.mapWires_inbox (s : State) (f : Wires → Wires) :
    (s.mapWires f).inbox = s.inbox := rfl
@[simp] theorem State.mapWires_allocOk (s : State) (f : Wires → Wires) :
    (s.mapWires f).allocOk = s.allocOk := rfl
@[simp] theorem State.mapWires_freeIdx (s : State) (f : Wires → Wires) :
    (s.mapWires f).freeIdx = s.freeIdx := rfl

@[simp] theorem State.deliver_life (s : State) (e : Event) :
    (s.deliver e).life = s.life := rfl
@[simp] theorem State.deliver_busy (s : State) (e : Event) :
    (s.deliver e).busy = s.busy := rfl
@[simp] theorem State.deliver_status (s : State) (e : Event) :
    (s.deliver e).status = s.status := rfl
@[simp] theorem State.deliver_fs (s : State) (e : Event) :
    (s.deliver e).fs = s.fs := rfl
@[simp] theorem State.deliver_alpha (s : State) (e : Event) :
    (s.deliver e).alpha = s.alpha := rfl
@[simp] theorem State.deliver_spb (s : State) (e : Event) :
    (s.deliver e).spb = s.spb := rfl
@[simp] theorem State.deliver_lpfY (s : State) (e : Event) :
    (s.deliver e).lpfY = s.lpfY := rfl
@[simp] theorem State.deliver_prevY (s : State) (e : Event) :
    (s.deliver e).prevY = s.prevY := rfl
@[simp] theorem State.deliver_bitPhase (s : State) (e : Event) :
    (s.deliver e).bitPhase = s.bitPhase := rfl
@[simp] theorem State.deliver_bitAcc (s : State) (e : Event) :
    (s.deliver e).bitAcc = s.bitAcc := rfl
@[simp] theorem State.deliver_windowA (s : State) (e : Event) :
    (s.deliver e).windowA = s.windowA := rfl
@[simp] theorem State.deliver_windowB (s : State) (e : Event) :
    (s.deliver e).windowB = s.windowB := rfl
@[simp] theorem State.deliver_lastCode (s : State) (e : Event) :
    (s.deliver e).lastCode = s.lastCode := rfl
@[simp] theorem State.deliver_lastInv (s : State) (e : Event) :
    (s.deliver e).lastInv = s.lastInv := rfl
@[simp] theorem State.deliver_counter (s : State) (e : Event) :
    (s.deliver e).counter = s.counter := rfl
@[simp] theorem State.deliver_sinkEn (s : State) (e : Event) :
    (s.deliver e).sinkEn = s.sinkEn := rfl
@[simp] theorem State.deliver_sink (s : State) (e : Event) :
    (s.deliver e).sink = s.sink := rfl
@[simp] theorem State.deliver_sinkCtx (s : State) (e : Event) :
    (s.deliver e).sinkCtx = s.sinkCtx := rfl
@[simp] theorem State.deliver_synTable (s : State) (e : Event) :
    (s.deliver e).synTable = s.synTable := rfl
@[simp] theorem State.deliver_codeRom (s : State) (e : Event) :
    (s.deliver e).codeRom = s.codeRom := rfl
@[simp] theorem State.deliver_nSample (s : State) (e : Event) :
    (s.deliver e).nSample = s.nSample := rfl
@[simp] theorem State.deliver_nBit (s : State) (e : Event) :
    (s.deliver e).nBit = s.nBit := rfl
@[simp] theorem State.deliver_wires (s : State) (e : Event) :
    (s.deliver e).wires = s.wires := rfl
@[simp] theorem State.deliver_events (s : State) (e : Event) :
    (s.deliver e).events = s.events ++ [e] := rfl
@[simp] theorem State.deliver_inbox (s : State) (e : Event) :
    (s.deliver e).inbox = s.inbox := rfl
@[simp] theorem State.deliver_allocOk (s : State) (e : Event) :
    (s.deliver e).allocOk = s.allocOk := rfl
@[simp] theorem State.deliver_freeIdx (s : State) (e : Event) :
    (s.deliver e).freeIdx = s.freeIdx := rfl

@[simp] theorem State.creationFailure_life (s : State) :
    (s.creationFailure).life = s.life := rfl
@[simp] theorem State.creationFailure_busy (s : State) :
    (s.creationFailure).busy = s.busy := rfl
@[simp] theorem State.creationFailure_status (s : State) :
    (s.creationFailure).status = .createFail := rfl
@[simp] theorem State.creationFailure_fs (s : State) :
    (s.creationFailure).fs = s.fs := rfl
@[simp] theorem State.creationFailure_alpha (s : State) :
    (s.creationFailure).alpha = s.alpha := rfl
@[simp] theorem State.creationFailure_spb (s : State) :
    (s.creationFailure).spb = s.spb := rfl
@[simp] theorem State.creationFailure_lpfY (s : State) :
    (s.creationFailure).lpfY = s.lpfY := rfl
@[simp] theorem State.creationFailure_prevY (s : State) :
    (s.creationFailure).prevY = s.prevY := rfl
@[simp] theorem State.creationFailure_bitPhase (s : State) :
    (s.creationFailure).bitPhase = s.bitPhase := rfl
@[simp] theorem State.creationFailure_bitAcc (s : State) :
    (s.creationFailure).bitAcc = s.bitAcc := rfl
@[simp] theorem State.creationFailure_windowA (s : State) :
    (s.creationFailure).windowA = s.windowA := rfl
@[simp] theorem State.creationFailure_windowB (s : State) :
    (s.creationFailure).windowB = s.windowB := rfl
@[simp] theorem State.creationFailure_lastCode (s : State) :
    (s.creationFailure).lastCode = s.lastCode := rfl
@[simp] theorem State.creationFailure_lastInv (s : State) :
    (s.creationFailure).lastInv = s.lastInv := rfl
@[simp] theorem State.creationFailure_counter (s : State) :
    (s.creationFailure).counter = s.counter := rfl
@[simp] theorem State.creationFailure_sinkEn (s : State) :
    (s.creationFailure).sinkEn = s.sinkEn := rfl
@[simp] theorem State.creationFailure_sink (s : State) :
    (s.creationFailure).sink = s.sink := rfl
@[simp] theorem State.creationFailure_sinkCtx (s : State) :
    (s.creationFailure).sinkCtx = s.sinkCtx := rfl
@[simp] theorem State.creationFailure_synTable (s : State) :
    (s.creationFailure).synTable = s.synTable := rfl
@[simp] theorem State.creationFailure_codeRom (s : State) :
    (s.creationFailure).codeRom = s.codeRom := rfl
@[simp] theorem State.creationFailure_nSample (s : State) :
    (s.creationFailure).nSample = s.nSample := rfl
@[simp] theorem State.creationFailure_nBit (s : State) :
    (s.creationFailure).nBit = s.nBit := rfl
@[simp] theorem State.creationFailure_wires (s : State) :
    (s.creationFailure).wires = s.wires := rfl
@[simp] theorem State.creationFailure_events (s : State) :
    (s.creationFailure).events = s.events := rfl
@[simp] theorem State.creationFailure_inbox (s : State) :
    (s.creationFailure).inbox = s.inbox := rfl
@[simp] theorem State.creationFailure_allocOk (s : State) :
    (s.creationFailure).allocOk = s.allocOk := rfl
@[simp] theorem State.creationFailure_freeIdx (s : State) :
    (s.creationFailure).freeIdx = s.freeIdx := rfl

@[simp] theorem State.accept_life (s : State) (r : Request) (rest : List Request) :
    (s.accept r rest).life = s.life := rfl
@[simp] theorem State.accept_busy (s : State) (r : Request) (rest : List Request) :
    (s.accept r rest).busy = r.fromSink := rfl
@[simp] theorem State.accept_status (s : State) (r : Request) (rest : List Request) :
    (s.accept r rest).status = s.status := rfl
@[simp] theorem State.accept_fs (s : State) (r : Request) (rest : List Request) :
    (s.accept r rest).fs = s.fs := rfl
@[simp] theorem State.accept_alpha (s : State) (r : Request) (rest : List Request) :
    (s.accept r rest).alpha = s.alpha := rfl
@[simp] theorem State.accept_spb (s : State) (r : Request) (rest : List Request) :
    (s.accept r rest).spb = s.spb := rfl
@[simp] theorem State.accept_lpfY (s : State) (r : Request) (rest : List Request) :
    (s.accept r rest).lpfY = s.lpfY := rfl
@[simp] theorem State.accept_prevY (s : State) (r : Request) (rest : List Request) :
    (s.accept r rest).prevY = s.prevY := rfl
@[simp] theorem State.accept_bitPhase (s : State) (r : Request) (rest : List Request) :
    (s.accept r rest).bitPhase = s.bitPhase := rfl
@[simp] theorem State.accept_bitAcc (s : State) (r : Request) (rest : List Request) :
    (s.accept r rest).bitAcc = s.bitAcc := rfl
@[simp] theorem State.accept_windowA (s : State) (r : Request) (rest : List Request) :
    (s.accept r rest).windowA = s.windowA := rfl
@[simp] theorem State.accept_windowB (s : State) (r : Request) (rest : List Request) :
    (s.accept r rest).windowB = s.windowB := rfl
@[simp] theorem State.accept_lastCode (s : State) (r : Request) (rest : List Request) :
    (s.accept r rest).lastCode = s.lastCode := rfl
@[simp] theorem State.accept_lastInv (s : State) (r : Request) (rest : List Request) :
    (s.accept r rest).lastInv = s.lastInv := rfl
@[simp] theorem State.accept_counter (s : State) (r : Request) (rest : List Request) :
    (s.accept r rest).counter = s.counter := rfl
@[simp] theorem State.accept_sinkEn (s : State) (r : Request) (rest : List Request) :
    (s.accept r rest).sinkEn = s.sinkEn := rfl
@[simp] theorem State.accept_sink (s : State) (r : Request) (rest : List Request) :
    (s.accept r rest).sink = s.sink := rfl
@[simp] theorem State.accept_sinkCtx (s : State) (r : Request) (rest : List Request) :
    (s.accept r rest).sinkCtx = s.sinkCtx := rfl
@[simp] theorem State.accept_synTable (s : State) (r : Request) (rest : List Request) :
    (s.accept r rest).synTable = s.synTable := rfl
@[simp] theorem State.accept_codeRom (s : State) (r : Request) (rest : List Request) :
    (s.accept r rest).codeRom = s.codeRom := rfl
@[simp] theorem State.accept_nSample (s : State) (r : Request) (rest : List Request) :
    (s.accept r rest).nSample = s.nSample := rfl
@[simp] theorem State.accept_nBit (s : State) (r : Request) (rest : List Request) :
    (s.accept r rest).nBit = s.nBit := rfl
@[simp] theorem State.accept_wires (s : State) (r : Request) (rest : List Request) :
    (s.accept r rest).wires = { s.wires with k := r.cand } := rfl
@[simp] theorem State.accept_events (s : State) (r : Request) (rest : List Request) :
    (s.accept r rest).events = s.events := rfl
@[simp] theorem State.accept_inbox (s : State) (r : Request) (rest : List Request) :
    (s.accept r rest).inbox = rest := rfl
@[simp] theorem State.accept_allocOk (s : State) (r : Request) (rest : List Request) :
    (s.accept r rest).allocOk = r.allocOk := rfl
@[simp] theorem State.accept_freeIdx (s : State) (r : Request) (rest : List Request) :
    (s.accept r rest).freeIdx = s.freeIdx := rfl

@[simp] theorem State.withFetchWord_life (s : State) (nbits w : Nat) :
    (s.withFetchWord nbits w).life = s.life := rfl
@[simp] theorem State.withFetchWord_busy (s : State) (nbits w : Nat) :
    (s.withFetchWord nbits w).busy = s.busy := rfl
@[simp] theorem State.withFetchWord_status (s : State) (nbits w : Nat) :
    (s.withFetchWord nbits w).status = s.status := rfl
@[simp] theorem State.withFetchWord_fs (s : State) (nbits w : Nat) :
    (s.withFetchWord nbits w).fs = s.fs := rfl
@[simp] theorem State.withFetchWord_alpha (s : State) (nbits w : Nat) :
    (s.withFetchWord nbits w).alpha = s.alpha := rfl
@[simp] theorem State.withFetchWord_spb (s : State) (nbits w : Nat) :
    (s.withFetchWord nbits w).spb = s.spb := rfl
@[simp] theorem State.withFetchWord_lpfY (s : State) (nbits w : Nat) :
    (s.withFetchWord nbits w).lpfY = s.lpfY := rfl
@[simp] theorem State.withFetchWord_prevY (s : State) (nbits w : Nat) :
    (s.withFetchWord nbits w).prevY = s.prevY := rfl
@[simp] theorem State.withFetchWord_bitPhase (s : State) (nbits w : Nat) :
    (s.withFetchWord nbits w).bitPhase = s.bitPhase := rfl
@[simp] theorem State.withFetchWord_bitAcc (s : State) (nbits w : Nat) :
    (s.withFetchWord nbits w).bitAcc = s.bitAcc := rfl
@[simp] theorem State.withFetchWord_windowA (s : State) (nbits w : Nat) :
    (s.withFetchWord nbits w).windowA = s.windowA := rfl
@[simp] theorem State.withFetchWord_windowB (s : State) (nbits w : Nat) :
    (s.withFetchWord nbits w).windowB = s.windowB := rfl
@[simp] theorem State.withFetchWord_lastCode (s : State) (nbits w : Nat) :
    (s.withFetchWord nbits w).lastCode = s.lastCode := rfl
@[simp] theorem State.withFetchWord_lastInv (s : State) (nbits w : Nat) :
    (s.withFetchWord nbits w).lastInv = s.lastInv := rfl
@[simp] theorem State.withFetchWord_counter (s : State) (nbits w : Nat) :
    (s.withFetchWord nbits w).counter = s.counter := rfl
@[simp] theorem State.withFetchWord_sinkEn (s : State) (nbits w : Nat) :
    (s.withFetchWord nbits w).sinkEn = s.sinkEn := rfl
@[simp] theorem State.withFetchWord_sink (s : State) (nbits w : Nat) :
    (s.withFetchWord nbits w).sink = s.sink := rfl
@[simp] theorem State.withFetchWord_sinkCtx (s : State) (nbits w : Nat) :
    (s.withFetchWord nbits w).sinkCtx = s.sinkCtx := rfl
@[simp] theorem State.withFetchWord_synTable (s : State) (nbits w : Nat) :
    (s.withFetchWord nbits w).synTable = s.synTable := rfl
@[simp] theorem State.withFetchWord_codeRom (s : State) (nbits w : Nat) :
    (s.withFetchWord nbits w).codeRom = s.codeRom := rfl
@[simp] theorem State.withFetchWord_nSample (s : State) (nbits w : Nat) :
    (s.withFetchWord nbits w).nSample = s.nSample := rfl
@[simp] theorem State.withFetchWord_nBit (s : State) (nbits w : Nat) :
    (s.withFetchWord nbits w).nBit = s.nBit := rfl
@[simp] theorem State.withFetchWord_wires (s : State) (nbits w : Nat) :
    (s.withFetchWord nbits w).wires = s.wires := rfl
@[simp] theorem State.withFetchWord_events (s : State) (nbits w : Nat) :
    (s.withFetchWord nbits w).events = s.events := rfl
@[simp] theorem State.withFetchWord_inbox (s : State) (nbits w : Nat) :
    (s.withFetchWord nbits w).inbox = s.tableRequest nbits w :: s.inbox := rfl
@[simp] theorem State.withFetchWord_allocOk (s : State) (nbits w : Nat) :
    (s.withFetchWord nbits w).allocOk = s.allocOk := rfl
@[simp] theorem State.withFetchWord_freeIdx (s : State) (nbits w : Nat) :
    (s.withFetchWord nbits w).freeIdx = s.freeIdx := rfl

theorem State.mapTurn_eq (s : State) (f : CandWires → CandWires) :
    s.mapTurn f = s.mapWires (fun w => w.updateTurn f) := rfl

theorem State.turnTo_eq (s : State) (k : CandIdx) : s.turnTo k = s.mapWires (fun w => { w with k := k }) := rfl

@[simp] theorem State.mapWires_mapWires (s : State) (f g : Wires → Wires) :
    (s.mapWires f).mapWires g = s.mapWires (fun w => g (f w)) := rfl

@[simp] theorem Wires.candidate_setCandidate_same (w : Wires) (k : CandIdx) (c : CandWires) :
    (w.setCandidate k c).candidate k = c := by cases k <;> rfl

theorem Wires.candidate_setCandidate_other (w : Wires) (k j : CandIdx) (c : CandWires) (h : j ≠ k) :
    (w.setCandidate k c).candidate j = w.candidate j := by
  cases k <;> cases j <;> first | rfl | exact absurd rfl h

@[simp] theorem Wires.setCandidate_k (w : Wires) (k : CandIdx) (c : CandWires) : (w.setCandidate k c).k = w.k := by
  cases k <;> rfl

@[simp] theorem Wires.updateTurn_k (w : Wires) (f : CandWires → CandWires) : (w.updateTurn f).k = w.k :=
  Wires.setCandidate_k _ _ _

@[simp] theorem Wires.updateTurn_turn (w : Wires) (f : CandWires → CandWires) : (w.updateTurn f).turn = f w.turn := by
  simp [Wires.turn, Wires.updateTurn]

theorem Wires.updateTurn_other (w : Wires) (f : CandWires → CandWires) (j : CandIdx) (h : j ≠ w.k) :
    (w.updateTurn f).candidate j = w.candidate j :=
  Wires.candidate_setCandidate_other _ _ _ _ h

end Sys2Proof.Machine
end

