-- ==== Sys2Proof/Laws/Memory.lean ====
section
/-! SUPPORT. The table memory: a read after a write, and the canonical form, which every operation keeps. -/

namespace Sys2Proof.Machine

theorem readCells_insertCell_same (cells : List (Nat × SynEntry)) (i : Nat) (e : SynEntry) :
    readCells (insertCell cells i e) i = e := by
  induction cells with
  | nil => simp [insertCell, readCells]
  | cons c rest ih =>
    obtain ⟨j, d⟩ := c
    simp only [insertCell]
    split
    · simp [readCells]
    · split
      · simp [readCells]
      · next h => simp [readCells, h, ih]

theorem readCells_insertCell_other (cells : List (Nat × SynEntry)) (i j : Nat) (e : SynEntry) (h : j ≠ i) :
    readCells (insertCell cells i e) j = readCells cells j := by
  induction cells with
  | nil => simp [insertCell, readCells, h]
  | cons c rest ih =>
    obtain ⟨n, d⟩ := c
    simp only [insertCell]
    split
    · simp [readCells, h]
    · split
      · next hn => subst hn; simp [readCells, h]
      · simp [readCells, ih]

theorem readCells_removeCell_other (cells : List (Nat × SynEntry)) (i j : Nat) (h : j ≠ i) :
    readCells (removeCell cells i) j = readCells cells j := by
  induction cells with
  | nil => rfl
  | cons c rest ih =>
    obtain ⟨n, d⟩ := c
    simp only [removeCell]
    split
    · next hn => subst hn; simp [readCells, h]
    · simp [readCells, ih]

theorem readCells_below (cells : List (Nat × SynEntry)) (lo i : Nat) (h : cellsWf lo cells = true) (hi : i < lo) :
    readCells cells i = SynEntry.sentinel := by
  induction cells generalizing lo with
  | nil => rfl
  | cons c rest ih =>
    obtain ⟨j, d⟩ := c
    simp only [cellsWf, Bool.and_eq_true, decide_eq_true_eq] at h
    have hne : i ≠ j := by omega
    simpa [readCells, hne] using ih (j + 1) h.2 (by omega)

theorem readCells_removeCell_same (cells : List (Nat × SynEntry)) (lo i : Nat) (h : cellsWf lo cells = true) :
    readCells (removeCell cells i) i = SynEntry.sentinel := by
  induction cells generalizing lo with
  | nil => rfl
  | cons c rest ih =>
    obtain ⟨j, d⟩ := c
    simp only [cellsWf, Bool.and_eq_true, decide_eq_true_eq] at h
    simp only [removeCell]
    split
    · next hi => subst hi; exact readCells_below rest (i + 1) i h.2 (by omega)
    · next hi => simpa [readCells, hi] using ih (j + 1) h.2

theorem cellsWf_mono (cells : List (Nat × SynEntry)) (lo hi : Nat) (h : cellsWf hi cells = true) (hl : lo ≤ hi) :
    cellsWf lo cells = true := by
  cases cells with
  | nil => rfl
  | cons c rest =>
    simp only [cellsWf, Bool.and_eq_true, decide_eq_true_eq] at h ⊢
    exact ⟨⟨⟨by omega, h.1.1.2⟩, h.1.2⟩, h.2⟩

theorem cellsWf_insertCell (cells : List (Nat × SynEntry)) (lo i : Nat) (e : SynEntry) (h : cellsWf lo cells = true)
    (hlo : lo ≤ i) (hi : i < Config.synEntries) (he : e ≠ SynEntry.sentinel) :
    cellsWf lo (insertCell cells i e) = true := by
  induction cells generalizing lo with
  | nil => simp [insertCell, cellsWf, hlo, hi, he]
  | cons c rest ih =>
    obtain ⟨j, d⟩ := c
    simp only [cellsWf, Bool.and_eq_true, decide_eq_true_eq] at h
    simp only [insertCell]
    split
    · next hij =>
      simp only [cellsWf, Bool.and_eq_true, decide_eq_true_eq]
      exact ⟨⟨⟨hlo, hi⟩, he⟩, ⟨⟨by omega, h.1.1.2⟩, h.1.2⟩, h.2⟩
    · split
      · next hij =>
        subst hij
        simp only [cellsWf, Bool.and_eq_true, decide_eq_true_eq]
        exact ⟨⟨⟨hlo, hi⟩, he⟩, h.2⟩
      · next h1 h2 =>
        simp only [cellsWf, Bool.and_eq_true, decide_eq_true_eq]
        exact ⟨h.1, ih (j + 1) h.2 (by omega)⟩

theorem cellsWf_removeCell (cells : List (Nat × SynEntry)) (lo i : Nat) (h : cellsWf lo cells = true) :
    cellsWf lo (removeCell cells i) = true := by
  induction cells generalizing lo with
  | nil => rfl
  | cons c rest ih =>
    obtain ⟨j, d⟩ := c
    simp only [cellsWf, Bool.and_eq_true, decide_eq_true_eq] at h
    simp only [removeCell]
    split
    · exact cellsWf_mono rest lo (j + 1) h.2 (by omega)
    · simp only [cellsWf, Bool.and_eq_true, decide_eq_true_eq]
      exact ⟨h.1, ih (j + 1) h.2⟩

/-- Reading an entry just written gives what was written. -/
theorem Memory.read_write_same (m : Memory) (s : Syndrome) (e : SynEntry) (h : m.wf = true) :
    (m.write s e).read s = e := by
  unfold Memory.write Memory.read
  split
  · next he => rw [he]; exact readCells_removeCell_same m.cells 0 s.toNat h
  · exact readCells_insertCell_same m.cells s.toNat e

/-- A write leaves every other entry alone. -/
theorem Memory.read_write_other (m : Memory) (s t : Syndrome) (e : SynEntry) (h : t ≠ s) :
    (m.write s e).read t = m.read t := by
  have hn : t.toNat ≠ s.toNat := fun hn => h (BitVec.eq_of_toNat_eq hn)
  unfold Memory.write Memory.read
  split
  · exact readCells_removeCell_other m.cells s.toNat t.toNat hn
  · exact readCells_insertCell_other m.cells s.toNat t.toNat e hn

/-- A write keeps the canonical form. -/
theorem Memory.wf_write (m : Memory) (s : Syndrome) (e : SynEntry) (h : m.wf = true) : (m.write s e).wf = true := by
  unfold Memory.write
  split
  · exact cellsWf_removeCell m.cells 0 s.toNat h
  · next he => exact cellsWf_insertCell m.cells 0 s.toNat e h (Nat.zero_le _) s.isLt he

@[simp] theorem Memory.wf_empty : Memory.empty.wf = true := rfl

@[simp] theorem Memory.read_empty (s : Syndrome) : Memory.empty.read s = SynEntry.sentinel := rfl

theorem storePattern_wf (m : Memory) (e : Word23) (h : m.wf = true) : (storePattern m e).wf = true := by
  unfold storePattern
  split
  · exact h
  · exact Memory.wf_write _ _ _ h

theorem foldl_storePattern_wf (es : List Word23) (m : Memory) (h : m.wf = true) :
    (es.foldl storePattern m).wf = true := by
  induction es generalizing m with
  | nil => exact h
  | cons e rest ih => exact ih _ (storePattern_wf m e h)

/-- The table TBLD builds has the canonical form. -/
theorem builtTable_wf : builtTable.wf = true :=
  foldl_storePattern_wf _ _ (Memory.wf_write _ _ _ Memory.wf_empty)

/-- The memory of the reset state has the canonical form. -/
theorem reset_synTable_wf : State.reset.synTable.wf = true := rfl

end Sys2Proof.Machine
end

