-- ==== Sys2Proof/Laws/Ops.lean ====
section
/-! SUPPORT. What each shared operation can answer, said once: later proofs cite these and do not unfold. -/

namespace Sys2Proof.Machine

@[simp] theorem andThen_next (s : State) (f : State → Result) : andThen (.next s) f = f s := rfl

@[simp] theorem andThen_refused (r : Refusal) (f : State → Result) : andThen (.refused r) f = .refused r := rfl

/-- Two next states are equal outcomes where the states are equal. -/
theorem next_eq_next (s t : State) : (Host.Outcome.next s : Result) = .next t ↔ t = s :=
  ⟨fun h => by injection h with h; exact h.symm, fun h => h ▸ rfl⟩

theorem refused_ne_next (r : Refusal) (t : State) : ¬(Host.Outcome.refused r : Result) = .next t := by
  intro h; cases h

/-- A sequence answers a next state only through one of its first operation. -/
theorem andThen_eq_next_iff (o : Result) (f : State → Result) (t : State) :
    andThen o f = .next t ↔ ∃ s, o = .next s ∧ f s = .next t := by
  cases o <;> simp [andThen]

/-- `guardFinite` answers the given state, and only for a finite value. -/
theorem guardFinite_eq_next_iff (v : F64) (s t : State) :
    guardFinite v s = .next t ↔ v.isFinite = true ∧ t = s := by
  unfold guardFinite
  cases hv : v.isFinite
  · exact iff_of_false (refused_ne_next _ _) (fun h => nomatch h.1)
  · exact (next_eq_next s t).trans (and_iff_right rfl).symm

theorem guardFinite_of_finite (v : F64) (s : State) (h : v.isFinite = true) : guardFinite v s = .next s := by
  simp [guardFinite, h]

theorem guardFinite_of_not_finite (v : F64) (s : State) (h : v.isFinite = false) :
    guardFinite v s = .refused .intermediateOverflow := by
  simp [guardFinite, h]

/-- A host operation answers a next state only from outside the sink and in the lifecycle state it needs. -/
theorem guardHostOp_eq_next_iff (op : HostOp) (need : Life) (s t : State) (act : State → Result) :
    guardHostOp op need s act = .next t ↔ s.busy = false ∧ s.life = need ∧ act s = .next t := by
  unfold guardHostOp
  by_cases hb : s.busy <;> by_cases hl : s.life = need <;> simp [hb, hl]

theorem guardHostOp_of_legal (op : HostOp) (need : Life) (s : State) (act : State → Result) (hb : s.busy = false)
    (hl : s.life = need) : guardHostOp op need s act = act s := by
  simp [guardHostOp, hb, hl]

/-- LPF answers the filtered value in `Y` and `LPF_Y`, where it is finite. -/
theorem opLpf_eq_next_iff (s t : State) :
    opLpf s = .next t ↔ (filtered f64Ops s.alpha s.wires.x s.lpfY).isFinite = true ∧
      t = { s with
        lpfY := filtered f64Ops s.alpha s.wires.x s.lpfY
        wires := { s.wires with y := filtered f64Ops s.alpha s.wires.x s.lpfY } } :=
  guardFinite_eq_next_iff _ _ _

/-- ZCN without a crossing writes `ZC` alone; with one, the nudged phase too. -/
theorem opZcn_eq_next_iff (s t : State) :
    opZcn s = .next t ↔
      (flagZc s.prevY s.wires.y = false ∧ t = { s with wires := { s.wires with zc := false } }) ∨
      (flagZc s.prevY s.wires.y = true ∧
        (nudgedPhase f64Ops Config.nudgeDir s.spb s.bitPhase).isFinite = true ∧
        t = { s with
          bitPhase := nudgedPhase f64Ops Config.nudgeDir s.spb s.bitPhase
          wires := { s.wires with zc := true } }) := by
  unfold opZcn
  cases h : flagZc s.prevY s.wires.y
  · exact (next_eq_next _ t).trans ⟨fun h => .inl ⟨rfl, h⟩, fun h => h.elim (·.2) (fun h => nomatch h.1)⟩
  · exact (guardFinite_eq_next_iff _ _ t).trans
      ⟨fun h => .inr ⟨rfl, h⟩, fun h => h.elim (fun h => nomatch h.1) (·.2)⟩

/-- ACC answers the sum in `BIT_ACC`, where it is finite. -/
theorem opAcc_eq_next_iff (s t : State) :
    opAcc s = .next t ↔ (accumulated f64Ops s.bitAcc s.wires.y).isFinite = true ∧
      t = { s with bitAcc := accumulated f64Ops s.bitAcc s.wires.y } :=
  guardFinite_eq_next_iff _ _ _

/-- PHI answers the advanced phase, where it is finite. -/
theorem opPhi_eq_next_iff (s t : State) :
    opPhi s = .next t ↔ (advancedPhase f64Ops s.bitPhase).isFinite = true ∧
      t = { s with bitPhase := advancedPhase f64Ops s.bitPhase } :=
  guardFinite_eq_next_iff _ _ _

/-- SLC off a boundary writes `BND` alone; at one, the bit, the wrapped phase and the cleared accumulator. -/
theorem opSlc_eq_next_iff (s t : State) :
    opSlc s = .next t ↔
      (flagBnd s.spb s.bitPhase = false ∧ t = { s with wires := { s.wires with bnd := false } }) ∨
      (flagBnd s.spb s.bitPhase = true ∧ (wrappedPhase f64Ops s.spb s.bitPhase).isFinite = true ∧
        t = { s with
          bitPhase := wrappedPhase f64Ops s.spb s.bitPhase
          bitAcc := F64.zero
          wires := { s.wires with bnd := true, bit := flagBit s.bitAcc } }) := by
  unfold opSlc
  cases h : flagBnd s.spb s.bitPhase
  · exact (next_eq_next _ t).trans ⟨fun h => .inl ⟨rfl, h⟩, fun h => h.elim (·.2) (fun h => nomatch h.1)⟩
  · exact (guardFinite_eq_next_iff _ _ t).trans
      ⟨fun h => .inr ⟨rfl, h⟩, fun h => h.elim (fun h => nomatch h.1) (·.2)⟩

/-- CGEN writes the candidate and the polarity of each of the four. -/
theorem opCgen_candidate (s : State) (k : CandIdx) :
    ((opCgen s).wires.candidate k).cand = candidateOf s.windowA s.windowB k ∧
      ((opCgen s).wires.candidate k).cinv = candInverted k := by
  cases k <;> exact ⟨rfl, rfl⟩

/-- CGEN writes transients only. -/
theorem opCgen_frame (s : State) : s.sameButWires (opCgen s) := rfl

/-- The first valid candidate of a list is valid and comes before every other valid one. -/
theorem firstValid_eq_some_iff (w : Wires) (ks : List CandIdx) (c : CandWires) :
    firstValid w ks = some c ↔
      ∃ pre k post, ks = pre ++ k :: post ∧ (∀ j ∈ pre, (w.candidate j).valid = false) ∧
        (w.candidate k).valid = true ∧ c = w.candidate k := by
  induction ks with
  | nil => simp [firstValid]
  | cons k rest ih =>
    cases hv : (w.candidate k).valid
    · rw [show firstValid w (k :: rest) = firstValid w rest by simp [firstValid, hv], ih]
      constructor
      · rintro ⟨pre, j, post, rfl, hpre, hj, rfl⟩
        refine ⟨k :: pre, j, post, rfl, ?_, hj, rfl⟩
        intro i hi
        rcases List.mem_cons.mp hi with rfl | hi
        · exact hv
        · exact hpre i hi
      · rintro ⟨pre, j, post, hks, hpre, hj, rfl⟩
        cases pre with
        | nil => simp at hks; obtain ⟨rfl, rfl⟩ := hks; simp [hv] at hj
        | cons p pre =>
          simp at hks
          exact ⟨pre, j, post, hks.2, fun i hi => hpre i (List.mem_cons_of_mem _ hi), hj, rfl⟩
    · rw [show firstValid w (k :: rest) = some (w.candidate k) by simp [firstValid, hv]]
      constructor
      · intro h
        exact ⟨[], k, rest, rfl, by simp, hv, (Option.some.inj h).symm⟩
      · rintro ⟨pre, j, post, hks, hpre, hj, rfl⟩
        cases pre with
        | nil => simp at hks; rw [hks.1]
        | cons p pre =>
          simp at hks
          have := hpre p (by simp)
          rw [← hks.1, hv] at this
          cases this

/-- No candidate of a list is valid where there is no first one. -/
theorem firstValid_eq_none_iff (w : Wires) (ks : List CandIdx) :
    firstValid w ks = none ↔ ∀ k ∈ ks, (w.candidate k).valid = false := by
  induction ks with
  | nil => simp [firstValid]
  | cons k rest ih => cases hv : (w.candidate k).valid <;> simp [firstValid, hv, ih]

/-- The confirmation layer writes the pair, the counter and transients only. -/
theorem opCnf_frame (s : State) :
    ∃ c i n w, opCnf s = { s with lastCode := c, lastInv := i, counter := n, wires := w } := by
  unfold opCnf
  dsimp only
  split
  · exact ⟨_, _, _, _, rfl⟩
  · split
    · exact ⟨_, _, _, _, rfl⟩
    · exact ⟨_, _, _, _, rfl⟩

/-- A miss (R151). -/
theorem opCnf_miss (s : State) (h : s.wires.found = false) :
    opCnf s = { s with
      counter := s.counter - 1, wires := { s.wires with matched := false, emitReq := false } } := by
  simp only [opCnf, h, flagMatch, Bool.not_false, Bool.false_and, if_true]

/-- A valid decode that differs from the last pair (R152). -/
theorem opCnf_different (s : State) (h : s.wires.found = true)
    (hm : flagMatch true s.wires.dcode s.wires.dinv s.lastCode s.lastInv = false) :
    opCnf s = { s with
      lastCode := some s.wires.dcode, lastInv := s.wires.dinv, counter := 1,
      wires := { s.wires with matched := false, emitReq := false } } := by
  simp only [opCnf, h, hm, Bool.not_true, Bool.not_false, if_true, Bool.false_eq_true, if_false]

/-- A valid decode that equals the last pair (R153, R154). -/
theorem opCnf_match (s : State) (h : s.wires.found = true)
    (hm : flagMatch true s.wires.dcode s.wires.dinv s.lastCode s.lastInv = true) :
    opCnf s = { s with
      counter := s.counter + 1,
      wires := { s.wires with matched := true, emitReq := flagEmitReq true (s.counter + 1) } } := by
  simp only [opCnf, h, hm, Bool.not_true, Bool.false_eq_true, if_false]

/-- EMIT writes the record of events and transients only, and delivers at most one event. -/
theorem opEmit_cases (s : State) :
    (s.wires.emitReq = true ∧ s.sinkEn = true ∧
      opEmit s = (s.deliver s.eventDue).mapWires (fun w => { w with emitted := true })) ∨
    ((s.wires.emitReq = false ∨ s.sinkEn = false) ∧ opEmit s = s.mapWires (fun w => { w with emitted := false })) := by
  unfold opEmit flagEmitted
  cases s.wires.emitReq <;> cases s.sinkEn
  · exact .inr ⟨.inl rfl, rfl⟩
  · exact .inr ⟨.inl rfl, rfl⟩
  · exact .inr ⟨.inr rfl, rfl⟩
  · exact .inl ⟨rfl, rfl, rfl⟩

/-- CREATE answers a next state in two cases only: the instance created, or the creation failure. -/
theorem execCreate_eq_next_iff (fs : BitVec 32) (s t : State) :
    execCreate fs s = .next t ↔
      s.busy = false ∧ s.life = .absent ∧ Config.minSampleRate ≤ fs.toNat ∧
        ((s.allocOk = true ∧ t = createInstance fs s) ∨ (s.allocOk = false ∧ t = s.creationFailure)) := by
  unfold execCreate
  rw [guardHostOp_eq_next_iff]
  refine and_congr_right fun _ => and_congr_right fun _ => ?_
  by_cases h0 : fs.toNat = 0
  · rw [if_pos h0]
    exact iff_of_false (refused_ne_next _ _) (fun h => by simp [h0, Config.minSampleRate] at h)
  · rw [if_neg h0]
    by_cases h1 : fs.toNat < Config.minSampleRate
    · rw [if_pos h1]
      exact iff_of_false (refused_ne_next _ _) (fun h => absurd h1 (Nat.not_lt.mpr h.1))
    · rw [if_neg h1]
      cases s.allocOk
      · exact (next_eq_next _ t).trans
          ⟨fun h => ⟨Nat.le_of_not_lt h1, .inr ⟨rfl, h⟩⟩, fun h => h.2.elim (fun h => nomatch h.1) (·.2)⟩
      · exact (next_eq_next _ t).trans
          ⟨fun h => ⟨Nat.le_of_not_lt h1, .inl ⟨rfl, h⟩⟩, fun h => h.2.elim (·.2) (fun h => nomatch h.1)⟩

/-- BIND answers a next state on a READY instance only, with the binding written. -/
theorem execBind_eq_next_iff (en : Bool) (sink ctx : Nat) (s t : State) :
    execBind en sink ctx s = .next t ↔
      s.busy = false ∧ s.life = .ready ∧
        ((en = true ∧ t = { s with sinkEn := true, sink := sink, sinkCtx := ctx }) ∨
          (en = false ∧ t = { s with sinkEn := false })) := by
  unfold execBind
  rw [guardHostOp_eq_next_iff]
  refine and_congr_right fun _ => and_congr_right fun _ => ?_
  cases en
  · exact (next_eq_next _ t).trans ⟨fun h => .inr ⟨rfl, h⟩, fun h => h.elim (fun h => nomatch h.1) (·.2)⟩
  · exact (next_eq_next _ t).trans ⟨fun h => .inl ⟨rfl, h⟩, fun h => h.elim (·.2) (fun h => nomatch h.1)⟩

/-- DESTROY answers a next state on a READY instance only, with `LIFE` written. -/
theorem execDestroy_eq_next_iff (s t : State) :
    execDestroy s = .next t ↔ s.busy = false ∧ s.life = .ready ∧ t = { s with life := .absent } := by
  unfold execDestroy
  rw [guardHostOp_eq_next_iff]
  exact and_congr_right fun _ => and_congr_right fun _ => next_eq_next _ t

/-- SAMPLE answers a next state on a READY instance only, for a finite sample whose numeric part goes through. -/
theorem execSample_eq_next_iff (x : F64) (s t : State) :
    execSample x s = .next t ↔
      s.busy = false ∧ s.life = .ready ∧ x.isFinite = true ∧
        ∃ u, sampleFront { s with wires := { s.wires with x := x } } = .next u ∧ t = sampleTail u := by
  unfold execSample
  rw [guardHostOp_eq_next_iff]
  refine and_congr_right fun _ => and_congr_right fun _ => ?_
  cases x.isFinite
  · exact iff_of_false (refused_ne_next _ _) (fun h => nomatch h.1)
  · rw [if_pos rfl, andThen_eq_next_iff]
    exact ⟨fun ⟨u, hu, ht⟩ => ⟨rfl, u, hu, (next_eq_next _ t).mp ht⟩,
      fun ⟨_, u, hu, ht⟩ => ⟨u, hu, (next_eq_next _ t).mpr ht⟩⟩

/-- The numeric part answers a next state only through each of its six micro-operations in turn. -/
theorem sampleFront_eq_next_iff (s t : State) :
    sampleFront s = .next t ↔
      ∃ a b c d, opLpf s = .next a ∧ opZcn a = .next b ∧ opAcc (opPrv b) = .next c ∧ opPhi c = .next d ∧
        opSlc d = .next t := by
  simp only [sampleFront, andThen_eq_next_iff]
  constructor
  · rintro ⟨d, ⟨c, ⟨b, ⟨a, ha, hb⟩, hc⟩, hd⟩, ht⟩
    exact ⟨a, b, c, d, ha, hb, hc, hd, ht⟩
  · rintro ⟨a, b, c, d, ha, hb, hc, hd, ht⟩
    exact ⟨d, ⟨c, ⟨b, ⟨a, ha, hb⟩, hc⟩, hd⟩, ht⟩

/-- A step is the idle step, or runs the instruction of the next request. -/
theorem step_eq_next_iff (s t : State) :
    step s = .next t ↔
      (s.inbox = [] ∧ t = s) ∨
      ∃ r rest i, s.inbox = r :: rest ∧ decode r.format r.word = .ok i ∧ exec i (s.accept r rest) = .next t := by
  unfold step
  cases s.inbox with
  | nil => exact (next_eq_next s t).trans ⟨fun h => .inl ⟨rfl, h⟩, fun h => h.elim (·.2) (fun ⟨_, _, _, h, _⟩ => nomatch h)⟩
  | cons r rest =>
    simp only [runRequest]
    cases hd : decode r.format r.word with
    | ok i =>
      constructor
      · exact fun h => .inr ⟨r, rest, i, rfl, hd, h⟩
      · rintro (⟨h, _⟩ | ⟨r', rest', i', h, hd', ht⟩)
        · cases h
        · obtain ⟨rfl, rfl⟩ := List.cons.inj h
          rw [hd] at hd'
          injection hd' with hd'
          exact hd' ▸ ht
    | error e =>
      cases e
      refine iff_of_false (refused_ne_next _ _) ?_
      rintro (⟨h, _⟩ | ⟨r', rest', i', h, hd', _⟩)
      · cases h
      · obtain ⟨rfl, rfl⟩ := List.cons.inj h
        rw [hd] at hd'
        cases hd'

/-- A run of operations goes on from wherever its first part ends. -/
theorem execAll_append (is js : List Instr) (s : State) :
    execAll (is ++ js) s = andThen (execAll is s) (execAll js) := by
  induction is generalizing s with
  | nil => rfl
  | cons i is ih =>
    simp only [List.cons_append, execAll]
    cases exec i s <;> simp [andThen, ih]

/-- Every value of `CODE_ROM` meets the constraints of R143. -/
theorem romT105_admissible : romAdmissible romT105 = true := by decide +kernel

theorem codeRom_admissible : romAdmissible Config.codeRom = true := by
  unfold Config.codeRom
  split
  · assumption
  · exact romT105_admissible

end Sys2Proof.Machine
end

