-- ==== Sys2Proof/Laws/Decoder.lean ====
section
/-! SUPPORT. What the operations of the decoder over any instance of NUM can answer, said once. -/

namespace Sys2Proof.Machine

@[simp] theorem withNum_next {N : Type} (t : State) (num : State → Front N) :
    withNum (.next t) num = .next ⟨num t, t⟩ := rfl

@[simp] theorem withNum_refused {N : Type} (r : Refusal) (num : State → Front N) :
    withNum (.refused r) num = .refused r := rfl

/-- `withNum` answers a next state only through one of its operation. -/
theorem withNum_eq_next_iff {N : Type} (o : Result) (num : State → Front N) (e : Decoder N) :
    withNum o num = .next e ↔ ∃ t, o = .next t ∧ e = ⟨num t, t⟩ := by
  cases o with
  | next t =>
    constructor
    · intro h; injection h with h; exact ⟨t, rfl, h.symm⟩
    · rintro ⟨t', h, rfl⟩; injection h with h; rw [h]; rfl
  | fault r => cases r
  | refused r => exact ⟨nofun, fun ⟨_, h, _⟩ => nomatch h⟩

/-- `withNum` is refused exactly where its operation is, by the same name. -/
theorem withNum_eq_refused_iff {N : Type} (o : Result) (num : State → Front N) (r : Refusal) :
    withNum o num = .refused r ↔ o = .refused r := by
  cases o with
  | next t => exact ⟨nofun, nofun⟩
  | fault r => cases r
  | refused q => exact ⟨fun h => by injection h with h; rw [h], fun h => by injection h with h; rw [h]; rfl⟩

/-- SAMPLE over NUM answers a next state on a READY instance only, for a sample inside the envelope. -/
theorem sampleIn_eq_next_iff {N : Type} (I : NumInstance N) (x : N) (d e : Decoder N) :
    sampleIn I x d = .next e ↔
      d.rest.busy = false ∧ d.rest.life = .ready ∧ I.finite x = true ∧
        Front.inEnvelope I Config.zcMode Config.nudgeDir d.num x = true ∧
        e = ⟨(Front.sample I.ops Config.zcMode Config.nudgeDir d.num x).1,
          restAfterSample d.rest (Front.sample I.ops Config.zcMode Config.nudgeDir d.num x).2⟩ := by
  simp only [sampleIn, withNum_eq_next_iff, guardHostOp_eq_next_iff]
  constructor
  · rintro ⟨t, ⟨hb, hl, h⟩, rfl⟩
    cases hx : I.finite x with
    | false => simp [hx] at h
    | true =>
      cases he : Front.inEnvelope I Config.zcMode Config.nudgeDir d.num x with
      | false => simp [hx, he] at h
      | true =>
        simp only [hx, he, Bool.not_true, Bool.false_eq_true, if_false, if_true] at h
        injection h with h
        exact ⟨hb, hl, rfl, rfl, by rw [h]⟩
  · rintro ⟨hb, hl, hx, he, rfl⟩
    exact ⟨_, ⟨hb, hl, by simp only [hx, he, Bool.not_true, Bool.false_eq_true, if_false, if_true]⟩, rfl⟩

/-- A state of the machine, with its registers of type NUM taken out, agrees with itself. -/
theorem Decoder.agrees_self (s : State) : Decoder.Agrees ⟨s.front, s⟩ s := ⟨rfl, rfl⟩

theorem Decoder.Agrees.life {d : Decoder F64} {s : State} (h : d.Agrees s) : d.rest.life = s.life := by
  rw [← h.2]

theorem Decoder.Agrees.busy {d : Decoder F64} {s : State} (h : d.Agrees s) : d.rest.busy = s.busy := by
  rw [← h.2]

theorem Decoder.Agrees.allocOk {d : Decoder F64} {s : State} (h : d.Agrees s) : d.rest.allocOk = s.allocOk := by
  rw [← h.2]

@[simp] theorem State.front_alpha (s : State) : s.front.alpha = s.alpha := rfl
@[simp] theorem State.front_spb (s : State) : s.front.spb = s.spb := rfl
@[simp] theorem State.front_lpfY (s : State) : s.front.lpfY = s.lpfY := rfl
@[simp] theorem State.front_prevY (s : State) : s.front.prevY = s.prevY := rfl
@[simp] theorem State.front_bitPhase (s : State) : s.front.bitPhase = s.bitPhase := rfl
@[simp] theorem State.front_bitAcc (s : State) : s.front.bitAcc = s.bitAcc := rfl

@[simp] theorem Front.created_alpha {N : Type} (I : NumInstance N) (fs : BitVec 32) :
    (Front.created I fs).alpha = I.coefficient fs := rfl
@[simp] theorem Front.created_spb {N : Type} (I : NumInstance N) (fs : BitVec 32) :
    (Front.created I fs).spb = samplesPerBit I.ops fs.toNat := rfl
@[simp] theorem realInstance_ops : realInstance.ops = exactOps ℝ := rfl
@[simp] theorem realInstance_coefficient (fs : BitVec 32) : realInstance.coefficient fs = realAlpha fs.toNat := rfl

/-- In REAL every sample is inside the envelope. -/
theorem realInstance_inEnvelope (mode : ZcMode) (dir : NudgeDir) (f : Front ℝ) (x : ℝ) :
    Front.inEnvelope realInstance mode dir f x = true := by
  simp [Front.inEnvelope, realInstance]

end Sys2Proof.Machine
end

