-- ==== Sys2Proof/Laws/PerInstr.lean ====
section
/-! SUPPORT. The per-instruction family TableRow: an instruction's encoding carries the bits its row of the opcode table
fixes, in the row's format. -/

namespace Sys2Proof.Laws

/-- The match of an instruction's row of spec/opcode_table.json (R56, R58). -/
def tableMatch : Instr → Nat
  | .create _ => 0
  | .bind _ _ _ => 1
  | .sample _ => 2
  | .destroy => 3
  | .lpf => 0x0
  | .zcn => 0x1
  | .prv => 0x2
  | .acc => 0x3
  | .phi => 0x4
  | .slc => 0x5
  | .wsha => 0x6
  | .wshb => 0x7
  | .cgen => 0x8
  | .syn => 0x9
  | .lut => 0xa
  | .cor => 0xb
  | .ext => 0xc
  | .top3 => 0xd
  | .romv => 0xe
  | .sel => 0xf
  | .cnf => 0x10
  | .emit => 0x11
  | .cfga => 0x18
  | .cfgs => 0x19
  | .tbld => 0x1a
  | .init => 0x1b

/-- The format of an instruction's row. -/
def tableFormatOf : Instr → Format
  | .create _ => .cmd
  | .bind _ _ _ => .cmd
  | .sample _ => .cmd
  | .destroy => .cmd
  | .lpf => .uop
  | .zcn => .uop
  | .prv => .uop
  | .acc => .uop
  | .phi => .uop
  | .slc => .uop
  | .wsha => .uop
  | .wshb => .uop
  | .cgen => .uop
  | .syn => .uop
  | .lut => .uop
  | .cor => .uop
  | .ext => .uop
  | .top3 => .uop
  | .romv => .uop
  | .sel => .uop
  | .cnf => .uop
  | .emit => .uop
  | .cfga => .uop
  | .cfgs => .uop
  | .tbld => .uop
  | .init => .uop

/-- How many words the fixed bits of a row of each format tell apart: mask 0x3 and mask 0x1F. -/
def tableModulus : Format → Nat
  | .cmd => 4
  | .uop => 32

/-- The encoding of an instruction is in its row's format and matches the row under its mask. -/
def TableRow.Statement (i : Instr) : Prop :=
  ∀ ctxw, (encodeAt ctxw i).1 = tableFormatOf i ∧ (encodeAt ctxw i).2 % tableModulus (tableFormatOf i) = tableMatch i

theorem TableRow.create (fs : BitVec 32) : TableRow.Statement (.create fs) := by
  intro ctxw
  refine ⟨rfl, ?_⟩
  simp only [encodeAt, tableFormatOf, tableModulus, tableMatch]
  omega

theorem TableRow.bind (en : Bool) (sink ctx : Nat) : TableRow.Statement (.bind en sink ctx) := by
  intro ctxw
  refine ⟨rfl, ?_⟩
  simp only [encodeAt, tableFormatOf, tableModulus, tableMatch]
  omega

theorem TableRow.sample (x : F64) : TableRow.Statement (.sample x) := by
  intro ctxw
  refine ⟨rfl, ?_⟩
  simp only [encodeAt, tableFormatOf, tableModulus, tableMatch]
  omega

theorem TableRow.destroy : TableRow.Statement .destroy := fun _ => ⟨rfl, rfl⟩

theorem TableRow.lpf : TableRow.Statement .lpf := fun _ => ⟨rfl, rfl⟩

theorem TableRow.zcn : TableRow.Statement .zcn := fun _ => ⟨rfl, rfl⟩

theorem TableRow.prv : TableRow.Statement .prv := fun _ => ⟨rfl, rfl⟩

theorem TableRow.acc : TableRow.Statement .acc := fun _ => ⟨rfl, rfl⟩

theorem TableRow.phi : TableRow.Statement .phi := fun _ => ⟨rfl, rfl⟩

theorem TableRow.slc : TableRow.Statement .slc := fun _ => ⟨rfl, rfl⟩

theorem TableRow.wsha : TableRow.Statement .wsha := fun _ => ⟨rfl, rfl⟩

theorem TableRow.wshb : TableRow.Statement .wshb := fun _ => ⟨rfl, rfl⟩

theorem TableRow.cgen : TableRow.Statement .cgen := fun _ => ⟨rfl, rfl⟩

theorem TableRow.syn : TableRow.Statement .syn := fun _ => ⟨rfl, rfl⟩

theorem TableRow.lut : TableRow.Statement .lut := fun _ => ⟨rfl, rfl⟩

theorem TableRow.cor : TableRow.Statement .cor := fun _ => ⟨rfl, rfl⟩

theorem TableRow.ext : TableRow.Statement .ext := fun _ => ⟨rfl, rfl⟩

theorem TableRow.top3 : TableRow.Statement .top3 := fun _ => ⟨rfl, rfl⟩

theorem TableRow.romv : TableRow.Statement .romv := fun _ => ⟨rfl, rfl⟩

theorem TableRow.sel : TableRow.Statement .sel := fun _ => ⟨rfl, rfl⟩

theorem TableRow.cnf : TableRow.Statement .cnf := fun _ => ⟨rfl, rfl⟩

theorem TableRow.emit : TableRow.Statement .emit := fun _ => ⟨rfl, rfl⟩

theorem TableRow.cfga : TableRow.Statement .cfga := fun _ => ⟨rfl, rfl⟩

theorem TableRow.cfgs : TableRow.Statement .cfgs := fun _ => ⟨rfl, rfl⟩

theorem TableRow.tbld : TableRow.Statement .tbld := fun _ => ⟨rfl, rfl⟩

theorem TableRow.init : TableRow.Statement .init := fun _ => ⟨rfl, rfl⟩

end Sys2Proof.Laws
end

