-- ==== Sys2Proof/Tests/Slice0.lean ====
section
/-! SUPPORT. Tests by name: the well-formedness smoke, the words written out from the spec's encodings, the spec's own
vectors (95_test_vectors.md, worked examples of the rules), and one witness for the hypotheses of each statement. -/

namespace Sys2Proof.Tests

open Sys2Proof Sys2Proof.Machine

section

-- One theorem at a time: a hundred kernel evaluations at once would each reserve a thread's memory.
set_option Elab.async false

/-! Helpers -/

/-- Whether an outcome is a next state. -/
def isNext (r : Result) : Bool :=
  match r with
  | .next _ => true
  | _ => false

theorem exists_of_isNext {r : Result} (h : isNext r = true) : ∃ t, r = .next t := by
  cases r with
  | next s => exact ⟨s, rfl⟩
  | fault f => exact absurd h (by simp [isNext])
  | refused q => exact absurd h (by simp [isNext])

theorem pair_of_snd {α β : Type} {p : α × β} {b : β} (h : p.2 = b) : ∃ a, p = (a, b) := ⟨p.1, by rw [← h]⟩

/-- What a next state shows of itself; the default where there is none. -/
def view {α : Type} (r : Result) (default : α) (f : State → α) : α :=
  match r with
  | .next s => f s
  | _ => default

/-- `ALPHA` at `FS` = 672 (R81 worked example, 0x1.e10534580e11cp-1). -/
def alpha672 : F64 := ⟨0x3FEE10534580E11C#64⟩

/-- The value 5. -/
def five : F64 := ⟨0x4014000000000000#64⟩

/-- Minus one. -/
def minusOne : F64 := ⟨0xBFF0000000000000#64⟩

/-- The largest finite value. -/
def largest : F64 := ⟨0x7FEFFFFFFFFFFFFF#64⟩

/-- A table with the two entries that 0x003C00 and 0x001E00 and their complements use (section 3.5). -/
def smallTable : Memory := ⟨[(0x1A1, ⟨true, 0x008012#23⟩), (0x6EA, ⟨true, 0x004009#23⟩)]⟩

/-- An instance at `FS` = 672 in its reset state, with ROM_DOC7 and the small table. -/
def ready : State :=
  { State.reset with
    life := .ready, fs := 672, alpha := alpha672, spb := five, synTable := smallTable, codeRom := romDoc7 }

/-- Program P5 just before its sample 70, with the sink s = 9 bound under the context 5. -/
def nearEvent : State :=
  { ready with
    lpfY := minusOne, prevY := minusOne
    bitPhase := ⟨0x4011000000000000#64⟩, bitAcc := ⟨0xC010000000000000#64⟩
    windowA := 0x003C00#23, windowB := 0x001E00#23
    lastCode := some 23#9, lastInv := false, counter := 1
    sinkEn := true, sink := 9, sinkCtx := 5, nSample := 69, nBit := 13 }

/-- An instance as CREATE leaves it, over the machine's own tables. -/
def created (fs : BitVec 32) : State :=
  { State.reset with
    life := .ready, fs := fs, alpha := alphaOf fs, spb := samplesPerBit f64Ops fs.toNat, synTable := builtTable }

/-- A state whose transients of candidate A are given. -/
def withTurn (c : CandWires) : State := ready.mapTurn (fun _ => c)

/-! Well-formedness -/

theorem test_wellFormed_bind_context_too_wide : (Instr.bind true 9 256).wellFormedAt 8 = false := by decide
theorem test_wellFormed_bind_context_fits : (Instr.bind true 9 255).wellFormedAt 8 = true := by decide
theorem test_wellFormed_bind_no_context_bits : (Instr.bind true 9 1).wellFormedAt 0 = false := by decide

/-! Words written out from R56, R57, R58 (section 3.1 where the spec gives the word) -/

theorem test_word_create : decodeCmdAt 8 0b1111101000000000 = .create 16000#32 := by decide
theorem test_word_create_672 : decodeCmdAt 8 0xA80 = .create 672#32 := by decide
theorem test_word_bind : decodeCmdAt 8 0b101001111_1_01 = .bind true 1 0x4F := by decide
theorem test_word_unbind : decodeCmdAt 8 0b001 = .bind false 0 0 := by decide
theorem test_word_sample : decodeCmdAt 8 0x2FFC0000000000002 = .sample minusOne := by decide
theorem test_word_sample_quarter : decodeCmdAt 8 0xFF40000000000002 = .sample ⟨0x3FD0000000000000#64⟩ := by decide
theorem test_word_destroy : decodeCmdAt 8 0b11 = .destroy := by decide
theorem test_word_lpf : decodeUop 0b00000#5 = .ok .lpf := by decide
theorem test_word_zcn : decodeUop 0b00001#5 = .ok .zcn := by decide
theorem test_word_prv : decodeUop 0b00010#5 = .ok .prv := by decide
theorem test_word_acc : decodeUop 0b00011#5 = .ok .acc := by decide
theorem test_word_phi : decodeUop 0b00100#5 = .ok .phi := by decide
theorem test_word_slc : decodeUop 0b00101#5 = .ok .slc := by decide
theorem test_word_wsha : decodeUop 0b00110#5 = .ok .wsha := by decide
theorem test_word_wshb : decodeUop 0b00111#5 = .ok .wshb := by decide
theorem test_word_cgen : decodeUop 0b01000#5 = .ok .cgen := by decide
theorem test_word_syn : decodeUop 0b01001#5 = .ok .syn := by decide
theorem test_word_lut : decodeUop 0b01010#5 = .ok .lut := by decide
theorem test_word_cor : decodeUop 0b01011#5 = .ok .cor := by decide
theorem test_word_ext : decodeUop 0b01100#5 = .ok .ext := by decide
theorem test_word_top3 : decodeUop 0b01101#5 = .ok .top3 := by decide
theorem test_word_romv : decodeUop 0b01110#5 = .ok .romv := by decide
theorem test_word_sel : decodeUop 0b01111#5 = .ok .sel := by decide
theorem test_word_cnf : decodeUop 0b10000#5 = .ok .cnf := by decide
theorem test_word_emit : decodeUop 0b10001#5 = .ok .emit := by decide
theorem test_word_cfga : decodeUop 0b11000#5 = .ok .cfga := by decide
theorem test_word_cfgs : decodeUop 0b11001#5 = .ok .cfgs := by decide
theorem test_word_tbld : decodeUop 0b11010#5 = .ok .tbld := by decide
theorem test_word_init : decodeUop 0b11011#5 = .ok .init := by decide
theorem test_word_unused_12 : decodeUop 0b10010#5 = .error (.unusedLabel 0x12) := by decide
theorem test_word_unused_1F : decodeUop 0b11111#5 = .error (.unusedLabel 0x1F) := by decide

/-! The spec's formats (R63, R64, R70; section 3.1) -/

theorem test_event_word : Event.word ⟨9, 0x05, false, 23⟩ = 0x01417 := by decide
theorem test_event_word_inverted : Event.word ⟨9, 0xA7, true, 23⟩ = 0x29E17 := by decide
theorem test_last_code_none : lastCodeBits none = 0x3FF := by decide
theorem test_table_entry_bits : (SynEntry.bits ⟨true, 0x009800⟩) = 0x809800#24 := by decide

/-! Numbers (R81, R90, sections 3.2 and 3.3) -/

theorem test_cfga_16000 : alphaWithin 4 16000#32 = ⟨0x3FBC73551E6B7268#64⟩ := by decide +kernel
theorem test_cfga_672 : alphaWithin 4 672#32 = alpha672 := by decide +kernel
theorem test_cfgs_16000 : samplesPerBit f64Ops 16000 = ⟨0x405DC30C30C30C30#64⟩ := by decide +kernel
theorem test_cfgs_672 : samplesPerBit f64Ops 672 = five := by decide +kernel
theorem test_slicer_tie_negative_zero : slicedBit f64Ops ⟨0x8000000000000000#64⟩ = false := by decide +kernel
theorem test_slicer_tie_smallest : slicedBit f64Ops ⟨0x0000000000000001#64⟩ = true := by decide +kernel

/-! Micro-operations: the worked example of each rule -/

/-- R80: `ALPHA` = 0.5, `LPF_Y` = 0.5, `X` = -1 gives `Y` = -0.25. -/
theorem test_lpf : view (exec .lpf { ready with
    alpha := ⟨0x3FE0000000000000#64⟩, lpfY := ⟨0x3FE0000000000000#64⟩, wires := { Wires.unset with x := minusOne } })
    none (fun t => some (t.lpfY, t.wires.y)) = some (⟨0xBFD0000000000000#64⟩, ⟨0xBFD0000000000000#64⟩) := by
  decide +kernel

/-- R91: phase 0 gives 0.25, and phase 3 gives 2.75. -/
theorem test_zcn : [F64.zero, ⟨0x4008000000000000#64⟩].map (fun p => view (exec .zcn { ready with
    prevY := F64.one, bitPhase := p, wires := { Wires.unset with y := ⟨0xBFE0000000000000#64⟩ } })
    none (fun t => some (t.wires.zc, t.bitPhase))) =
    [some (true, ⟨0x3FD0000000000000#64⟩), some (true, ⟨0x4006000000000000#64⟩)] := by
  decide +kernel

/-- R91, R99: no crossing where the previous value is exactly zero. -/
theorem test_zcn_zero_has_no_sign : view (exec .zcn { ready with wires := { Wires.unset with y := minusOne } })
    none (fun t => some (t.wires.zc, t.bitPhase)) = some (false, F64.zero) := by
  decide +kernel

/-- R83: `Y` = -0.25. -/
theorem test_prv : view (exec .prv { ready with wires := { Wires.unset with y := ⟨0xBFD0000000000000#64⟩ } })
    none (fun t => some t.prevY) = some ⟨0xBFD0000000000000#64⟩ := by decide +kernel

/-- R92: 1.5 and -0.25 give 1.25. -/
theorem test_acc : view (exec .acc { ready with
    bitAcc := ⟨0x3FF8000000000000#64⟩, wires := { Wires.unset with y := ⟨0xBFD0000000000000#64⟩ } })
    none (fun t => some t.bitAcc) = some ⟨0x3FF4000000000000#64⟩ := by decide +kernel

/-- R93: 4.25 gives 5.25. -/
theorem test_phi : view (exec .phi { ready with bitPhase := ⟨0x4011000000000000#64⟩ })
    none (fun t => some t.bitPhase) = some ⟨0x4015000000000000#64⟩ := by decide +kernel

/-- R94: `BIT_PHASE` = 5.25, `BIT_ACC` = -3.5. -/
theorem test_slc : view (exec .slc { ready with bitPhase := ⟨0x4015000000000000#64⟩, bitAcc := ⟨0xC00C000000000000#64⟩ })
    none (fun t => some (t.wires.bnd, t.wires.bit, t.bitPhase, t.bitAcc)) =
    some (true, false, ⟨0x3FD0000000000000#64⟩, F64.zero) := by decide +kernel

/-- R94: a phase equal to the period is a boundary. -/
theorem test_slc_exactly : view (exec .slc { ready with bitPhase := five }) none
    (fun t => some (t.wires.bnd, t.bitPhase)) = some (true, F64.zero) := by decide +kernel

/-- R110. -/
theorem test_wsha : shiftedA 0x001E00#23 false = 0x000F00#23 ∧ shiftedA 0x000001#23 true = 0x400000#23 := by decide

/-- R111. -/
theorem test_wshb : shiftedB 0x001E00#23 false = 0x003C00#23 ∧ shiftedB 0x400000#23 true = 0x000001#23 := by decide

/-- R112. -/
theorem test_cgen : view (exec .cgen { ready with windowA := 0x003C00#23, windowB := 0x001E00#23 }) []
    (fun t => candOrder.map (fun k => ((t.wires.candidate k).cand, (t.wires.candidate k).cinv))) =
    [(0x003C00#23, false), (0x7FC3FF#23, true), (0x001E00#23, false), (0x7FE1FF#23, true)] := by decide +kernel

/-- R121, section 3.5. -/
theorem test_syn : [0x009958#23, 0x009800#23, 0x409959#23, 0x7FFFFF#23, 0x0000000C75#23].map syndrome =
    [0x001#11, 0x159#11, 0x63A#11, 0x000#11, 0x000#11] := by decide +kernel

/-- R125, R123: the two entries of the small table are what TBLD stores (section 3.5). -/
theorem test_lut : view (exec .lut (withTurn { CandWires.unset with syndrome := 0x1A1 })) none
    (fun t => some (t.wires.turn.eok, t.wires.turn.pattern)) = some (true, 0x008012#23) := by decide +kernel

/-- R125: the sentinel. -/
theorem test_lut_sentinel : view (exec .lut (withTurn { CandWires.unset with syndrome := 0x7FF })) none
    (fun t => some t.wires.turn.eok) = some false := by decide +kernel

/-- R126. -/
theorem test_cor : view (exec .cor (withTurn { CandWires.unset with cand := 0x009958, pattern := 0x000001 })) none
    (fun t => some t.wires.turn.corr) = some 0x009959#23 := by decide +kernel

/-- R127. -/
theorem test_ext : view (exec .ext (withTurn { CandWires.unset with corr := 0x009959 })) none
    (fun t => some t.wires.turn.data) = some 0x013#12 := by decide +kernel

/-- R140. -/
theorem test_top3 : view (exec .top3 (withTurn { CandWires.unset with data := 0x013 })) none
    (fun t => some (t.wires.turn.t3ok, t.wires.turn.code)) = some (true, 19#9) := by decide +kernel

/-- R140: the top bits are not zero. -/
theorem test_top3_rejects : view (exec .top3 (withTurn { CandWires.unset with data := 0xFF4 })) none
    (fun t => some t.wires.turn.t3ok) = some false := by decide +kernel

/-- R142: 19 is recognized by every admissible set, 412 by none. -/
theorem test_romv : [19#9, 412#9].map (fun c => view (exec .romv (withTurn { CandWires.unset with code := c })) none
    (fun t => some t.wires.turn.inrom)) = [some true, some false] := by decide +kernel

/-- R145: with A and B both valid, A is taken. -/
theorem test_sel : view (exec .sel { ready with wires := { Wires.unset with
      candA := { CandWires.unset with eok := true, t3ok := true, inrom := true, code := 293 }
      candB := { CandWires.unset with eok := true, t3ok := true, inrom := true, code := 153 } } }) none
    (fun t => some (t.wires.found, t.wires.dcode, t.wires.dinv)) = some (true, 293#9, false) := by decide +kernel

/-- R145: with ~A and B both valid, ~A is taken, with its polarity. -/
theorem test_sel_complement : view (exec .sel { ready with wires := { Wires.unset with
      candNotA := { CandWires.unset with eok := true, t3ok := true, inrom := true, code := 434, cinv := true }
      candB := { CandWires.unset with eok := true, t3ok := true, inrom := true, code := 25 } } }) none
    (fun t => some (t.wires.found, t.wires.dcode, t.wires.dinv)) = some (true, 434#9, true) := by decide +kernel

/-- R150: (23, false, 1) and the decode (23, false). -/
theorem test_cnf : view (exec .cnf { nearEvent with wires := { Wires.unset with found := true, dcode := 23 } }) none
    (fun t => some (t.wires.matched, t.counter, t.wires.emitReq)) = some (true, 2, true) := by decide +kernel

/-- Section 3.7, K3: - - P - P P. -/
theorem test_cnf_K3 : (([none, none, some (19#9, false), none, some (19, false), some (19, false)].foldl
    (fun (a : Confirmation × List (Nat × Bool)) d =>
      ((a.1.next d), a.2 ++ [((a.1.next d).counter, a.1.emits d)])) (⟨none, 0⟩, [])).2) =
    [(0, false), (0, false), (1, false), (0, false), (1, false), (2, true)] := by decide

/-- R156: event word 0x017 with context 0. -/
theorem test_emit : view (exec .emit { ready with
      sinkEn := true, wires := { Wires.unset with emitReq := true, dcode := 23 } }) none
    (fun t => some (t.events.map Event.word, t.wires.emitted)) = some ([0x017], true) := by decide +kernel

/-- R156: nothing is delivered while detached. -/
theorem test_emit_detached : view (exec .emit { ready with wires := { Wires.unset with emitReq := true, dcode := 23 } })
    none (fun t => some (t.events, t.wires.emitted)) = some ([], false) := by decide +kernel

/-- R123, R124: entries 0 and 1 and the first of weight two, from the patterns one at a time. -/
theorem test_tbld_patterns : (patterns 23 1).length = 23 ∧ (patterns 23 2).length = 253 ∧
    ((tableStart |> (storePattern · 0x000800#23) |> (storePattern · 0x000003#23)).cells =
      [(0, ⟨true, 0⟩), (3, ⟨true, 3⟩), (0x475, ⟨true, 0x800⟩)]) := by decide +kernel

/-- R210. -/
theorem test_init : view (exec .init nearEvent) none
    (fun t => some (t.lpfY, t.windowA, t.lastCode, t.counter, t.sinkEn, t.nSample)) =
    some (F64.zero, 0#23, none, 0, false, 0) := by decide +kernel

/-- R90 by the micro-operation. -/
theorem test_cfgs : view (exec .cfgs { ready with spb := F64.zero }) none (fun t => some t.spb) = some five := by
  decide +kernel

/-! Host operations -/

/-- Section 3.8: `CREATE 268` and `CREATE 0` are refused. -/
theorem test_create_268 : exec (.create 268) State.reset = .refused .sampleRateOutsideEnvelope := rfl

/-- Section 3.8: `CREATE 16000; BIND s 1; BIND t 2`. -/
theorem test_bind_replaces : view (execAll [.bind true 1 1, .bind true 2 2] ready) none
    (fun t => some (t.sinkEn, t.sink, t.sinkCtx)) = some (true, 2, 2) := by decide +kernel

/-- Program P5, sample 70: bit 14, counter 1 to 2, event 0x01417 delivered. -/
theorem test_sample_P5 : view (exec (.sample minusOne) nearEvent) none
    (fun t => some (t.windowA, t.windowB, t.counter, t.bitPhase, t.events.map Event.word)) =
    some (0x001E00#23, 0x003C00#23, 2, ⟨0x3FD0000000000000#64⟩, [0x01417]) := by decide +kernel

/-- Section 3.2 at `FS` = 16000: the first two samples of 1.0. -/
theorem test_sample_16000 : view (execAll [.sample F64.one, .sample F64.one] { ready with
      fs := 16000, alpha := ⟨0x3FBC73551E6B7268#64⟩, spb := ⟨0x405DC30C30C30C30#64⟩ }) none
    (fun t => some (t.lpfY, t.bitPhase, t.nSample)) =
    some (⟨0x3FCADE9DD44CE104#64⟩, ⟨0x4000000000000000#64⟩, 2) := by decide +kernel

/-- Section 3.8: SAMPLE after DESTROY is refused. -/
theorem test_destroy_then_sample :
    execAll [.destroy, .sample F64.zero] ready = .refused (.wrongLifecycle .sample) := rfl

/-! Witnesses: states and operands that meet the hypotheses of the statements, at boundary values -/

/-- DecodeInvertsEncode: the widest context of 8 bits, and the only one of no bits. -/
theorem witness_DecodeInvertsEncode :
    (Instr.bind true 3 255).wellFormedAt 8 = true ∧ (Instr.bind false 0 0).wellFormedAt 0 = true ∧
    (Instr.create 0xFFFFFFFF).wellFormedAt 0 = true ∧ Instr.init.wellFormedAt 0 = true := by decide

/-- A request for a micro-operation label. -/
def uopRequest (u : Nat) : Request := ⟨.uop, u, .a, true, false⟩

/-- A request for a command word. -/
def cmdRequest (w : Nat) : Request := ⟨.cmd, w, .a, true, false⟩

/-- StepRunsTheDecodedInstruction: a label, a command word, the unused labels at both ends of their ranges. -/
theorem witness_StepRunsTheDecodedInstruction :
    (∃ i, decode (uopRequest 0).format (uopRequest 0).word = .ok i) ∧
    (∃ i, decode (cmdRequest 0xFA00).format (cmdRequest 0xFA00).word = .ok i) ∧
    State.reset.inbox = [] ∧
    ([0x12, 0x17, 0x1C, 0x1F].map (fun u => decode (uopRequest u).format (uopRequest u).word) =
      [.error (.unusedLabel 0x12), .error (.unusedLabel 0x17), .error (.unusedLabel 0x1C),
        .error (.unusedLabel 0x1F)]) :=
  ⟨⟨_, rfl⟩, ⟨_, rfl⟩, rfl, rfl⟩

/-- The invariants hold of an instance as CREATE leaves it, at both ends of the envelope. -/
theorem created_inv (fs : BitVec 32) (h : 269 ≤ fs.toNat) : (created fs).Inv where
  notBusy := rfl
  tableForm := by simp only [created, builtTable_wf]
  romForm := by simp only [created, State.reset, codeRom_admissible]
  tableBuilt := fun _ => by simp only [created]
  rate := fun _ => h
  alphaConstant := fun _ => rfl
  spbConstant := fun _ => rfl
  latched := fun _ => rfl
  quiet := fun _ _ => rfl
  lastRecognized := fun _ c hc => absurd hc (by simp [created, State.reset])
  bitsCounted := fun _ => le_refl _
  eventsRecognized := fun e he => absurd he (by simp [created, State.reset])

/-- The requests still pending are no part of the invariants. -/
theorem inv_with_inbox (s : State) (rs : List Request) (i : s.Inv) : State.Inv { s with inbox := rs } :=
  ⟨i.1, i.2, i.3, i.4, i.5, i.6, i.7, i.8, i.9, i.10, i.11, i.12⟩

/-- EveryHostStepKeepsTheInvariants: a READY instance at the least rate, its next request a DESTROY. -/
theorem witness_EveryHostStepKeepsTheInvariants :
    ∃ s t : State, s.Inv ∧ s.hostOnly = true ∧ s.life = .ready ∧ step s = .next t :=
  ⟨{ created 269 with inbox := [cmdRequest 3] }, _, inv_with_inbox _ _ (created_inv 269 (by decide)), rfl, rfl, rfl⟩

/-- EveryStepKeepsTheTables: a step that builds the table. -/
theorem witness_EveryStepKeepsTheTables :
    ∃ s t : State, s.synTable.wf = true ∧ step s = .next t ∧ s.synTable.cells = [] :=
  ⟨{ State.reset with inbox := [uopRequest 0x1A] }, _, rfl, rfl, rfl⟩

/-- AStepDeliversAtMostOneEvent: a step that delivers one. -/
theorem witness_AStepDeliversAtMostOneEvent :
    ∃ s t : State, step s = .next t ∧ s.sinkEn = true ∧ t.events.length = 1 :=
  ⟨{ nearEvent with inbox := [uopRequest 0x11], wires := { Wires.unset with emitReq := true } }, _, rfl, rfl, rfl⟩

/-- CreateMakesAnInstance, CreateForgetsTheEarlierInstance: the reset state, the least and the greatest rate. -/
theorem witness_CreateMakesAnInstance :
    State.reset.busy = false ∧ State.reset.life = .absent ∧ 269 ≤ (269#32).toNat ∧ 269 ≤ (0xFFFFFFFF#32).toNat ∧
    State.reset.allocOk = true := by decide +revert

/-- CreateFailureLeavesNoInstance. -/
theorem witness_CreateFailureLeavesNoInstance :
    ∃ s : State, s.busy = false ∧ s.life = .absent ∧ 269 ≤ (269#32).toNat ∧ s.allocOk = false :=
  ⟨{ State.reset with allocOk := false }, rfl, rfl, by decide, rfl⟩

/-- CreateIsRefusedOutsideTheEnvelope: the rates 0, 1, 268, and an existing instance. -/
theorem witness_CreateIsRefusedOutsideTheEnvelope :
    State.reset.busy = false ∧ State.reset.life = .absent ∧ (0#32).toNat = 0 ∧
    (1 ≤ (1#32).toNat ∧ (1#32).toNat ≤ 268) ∧ (1 ≤ (268#32).toNat ∧ (268#32).toNat ≤ 268) ∧
    ready.busy = false ∧ ready.life = .ready :=
  ⟨rfl, rfl, rfl, by decide, by decide, rfl, rfl⟩

/-- CreateForgetsTheEarlierInstance: the reset state beside an instance that was destroyed. -/
theorem witness_CreateForgetsTheEarlierInstance :
    ∃ s u : State, s.busy = false ∧ u.busy = false ∧ s.life = .absent ∧ u.life = .absent ∧ s.allocOk = true ∧
      u.allocOk = true ∧ 269 ≤ (269#32).toNat ∧ u.codeRom = s.codeRom ∧ u.wires = s.wires ∧ u.events = s.events ∧
      u.inbox = s.inbox ∧ u.freeIdx = s.freeIdx ∧ u.windowA ≠ s.windowA :=
  ⟨{ ready with life := .absent }, { nearEvent with life := .absent }, rfl, rfl, rfl, rfl, rfl, rfl, by decide, rfl,
    rfl, rfl, rfl, rfl, by decide⟩

/-- BindWritesTheBindingAlone, DestroyEndsTheInstance, HostOperationsOutOfOrderAreRefused. -/
theorem witness_host_operations :
    (ready.busy = false ∧ ready.life = .ready) ∧ (State.reset.busy = false ∧ State.reset.life = .absent) ∧
    { ready with busy := true }.busy = true := ⟨⟨rfl, rfl⟩, ⟨rfl, rfl⟩, rfl⟩

/-- A state in which the filter, or the accumulator, overflows at the largest sample. -/
def loud : State := { ready with alpha := F64.two }

/-- SampleIsRefusedOutsideTheEnvelope: infinities and a NaN; an overflow in the filter, and one in the accumulator. -/
theorem witness_SampleIsRefusedOutsideTheEnvelope :
    ([0x7FF0000000000000#64, 0xFFF0000000000000#64, 0x7FF8000000000000#64].all
      (fun b => (F64.mk b).isFinite == false)) = true ∧
    (largest.isFinite = true ∧ loud.sampleInEnvelope largest = false) ∧
    { ready with alpha := F64.one, bitAcc := largest }.sampleInEnvelope largest = false := by
  decide +kernel

/-- SampleBetweenBitBoundaries: the first sample after CREATE. -/
theorem witness_SampleBetweenBitBoundaries :
    ready.busy = false ∧ ready.life = .ready ∧ ready.sampleInEnvelope F64.one = true ∧
    ∃ f, Front.sample f64Ops .strict .asWritten ready.front F64.one = (f, none) :=
  ⟨rfl, rfl, by decide +kernel, pair_of_snd (by decide +kernel)⟩

/-- SampleAtABitBoundary: sample 70 of program P5, which decodes and delivers. -/
theorem witness_SampleAtABitBoundary :
    nearEvent.busy = false ∧ nearEvent.life = .ready ∧ nearEvent.sampleInEnvelope minusOne = true ∧
    (∃ f, Front.sample f64Ops .strict .asWritten nearEvent.front minusOne = (f, some false)) ∧
    decodeOf nearEvent.synTable nearEvent.codeRom (shiftedA nearEvent.windowA false)
      (shiftedB nearEvent.windowB false) = some (23, false) :=
  ⟨rfl, rfl, by decide +kernel, pair_of_snd (by decide +kernel), by decide +kernel⟩

/-- SampleRunsItsMicroOperationsInOrder. -/
theorem witness_SampleRunsItsMicroOperationsInOrder :
    ready.busy = false ∧ ready.life = .ready ∧ F64.one.isFinite = true := ⟨rfl, rfl, by decide +kernel⟩

/-- SampleDoesNotDependOnTheSink, SampleDoesNotDependOnTransients, SampleWritesOnlyTheStreamingState: a sample between
boundaries, and one at a boundary. -/
theorem witness_SampleAnswersNext :
    (∃ t, exec (.sample F64.one) ready = .next t) ∧ (∃ t, exec (.sample minusOne) nearEvent = .next t) :=
  ⟨exists_of_isNext (by decide +kernel), exists_of_isNext (by decide +kernel)⟩

/-- LpfWritesTheFilteredValue: an ordinary sample, and the largest one. -/
theorem witness_LpfWritesTheFilteredValue :
    (filtered f64Ops ready.alpha F64.one ready.lpfY).isFinite = true ∧
    (filtered f64Ops ready.alpha largest ready.lpfY).isFinite = true := by decide +kernel

/-- An instance that sees a crossing, at a given phase. -/
def crossing (phase : F64) : State :=
  { ready with prevY := F64.one, bitPhase := phase, wires := { Wires.unset with y := minusOne } }

/-- ZcnNudgesThePhaseAtACrossing: no crossing from zero, one at phase 0, one at half a period exactly. -/
theorem witness_ZcnNudgesThePhaseAtACrossing :
    (F64.lt ready.prevY F64.zero && F64.lt F64.zero minusOne ||
      F64.lt F64.zero ready.prevY && F64.lt minusOne F64.zero) = false ∧
    flagZc (crossing F64.zero).prevY (crossing F64.zero).wires.y = true ∧
    F64.lt F64.zero (F64.div five F64.two) = true ∧
    (F64.add F64.zero (F64.mul F64.nudgeFrac five)).isFinite = true ∧
    F64.lt ⟨0x4004000000000000#64⟩ (F64.div five F64.two) = false ∧
    (F64.sub ⟨0x4004000000000000#64⟩ (F64.mul F64.nudgeFrac five)).isFinite = true := by decide +kernel

/-- PrvAccPhiWriteOneRegisterEach. -/
theorem witness_PrvAccPhiWriteOneRegisterEach :
    (F64.add ready.bitAcc ready.wires.y).isFinite = true ∧ (F64.add ready.bitPhase F64.one).isFinite = true := by
  decide +kernel

/-- SlcSlicesABitAtABoundary: a phase equal to the period, and the one just below it. -/
theorem witness_SlcSlicesABitAtABoundary :
    F64.le five five = true ∧ (F64.sub five five).isFinite = true ∧
    F64.le five ⟨0x4013FFFFFFFFFFFF#64⟩ = false := by decide +kernel

/-- NumericMicroOperationsRefuseOverflow. -/
theorem witness_NumericMicroOperationsRefuseOverflow :
    (filtered f64Ops F64.two largest F64.zero).isFinite = false ∧
    (flagZc F64.one minusOne = true ∧
      (nudgedPhase f64Ops .asWritten ⟨0x7FF0000000000000#64⟩ F64.zero).isFinite = false) ∧
    (F64.add largest largest).isFinite = false ∧ (F64.add ⟨0x7FF0000000000000#64⟩ F64.one).isFinite = false ∧
    (F64.le (F64.neg largest) largest = true ∧ (F64.sub largest (F64.neg largest)).isFinite = false) := by
  decide +kernel

/-- CnfOnAMissDecaysTheCounter, CnfOnADifferentDecodeReplacesThePair (a first decode, the other code, the other
polarity), CnfOnAMatchCountsUpAndAsksForAnEvent (at 0 too), EmitDeliversToTheBoundSink. -/
theorem witness_confirmation :
    ready.wires.found = false ∧
    (∃ s : State, s.wires.found = true ∧ s.lastCode = none) ∧
    (∃ s : State, s.wires.found = true ∧ s.lastCode = some s.wires.dcode ∧ s.lastInv ≠ s.wires.dinv) ∧
    (∃ s : State, s.wires.found = true ∧ s.lastCode = some s.wires.dcode ∧ s.lastInv = s.wires.dinv ∧
      s.counter = 0) ∧
    (∃ s : State, s.wires.emitReq = true ∧ s.sinkEn = true) ∧
    (ready.wires.emitReq = false ∨ ready.sinkEn = false) :=
  ⟨rfl, ⟨{ ready with wires := { Wires.unset with found := true } }, rfl, rfl⟩,
    ⟨{ nearEvent with wires := { Wires.unset with found := true, dcode := 23, dinv := true } }, rfl, rfl, by decide⟩,
    ⟨{ nearEvent with counter := 0, wires := { Wires.unset with found := true, dcode := 23 } }, rfl, rfl, rfl, rfl⟩,
    ⟨{ nearEvent with wires := { Wires.unset with emitReq := true } }, rfl, rfl⟩, Or.inl rfl⟩

/-- UpToThreeErrorsAreCorrected, EveryWordDecodesToTheNearestCodeword, TheCodeIsCyclicWithDistanceSeven,
TheEncoderIsSystematic: two codewords that differ in seven places, and three errors. -/
theorem witness_codewords :
    IsCodeword 0xC75#23 ∧ IsCodeword 0#23 ∧ 0xC75#23 ≠ 0#23 ∧ weight (0xC75#23 ^^^ 0#23) = 7 ∧
    weight 0x400401#23 = 3 ∧ weight (0xC74#23 ^^^ 0xC75#23) ≤ 3 ∧ syndrome 0x009959#23 = 0 :=
  ⟨⟨1, by decide +kernel⟩, ⟨0, by decide +kernel⟩, by decide, by decide +kernel, by decide +kernel, by decide +kernel,
    by decide +kernel⟩

/-- TheCandidatesRecoverASentWord, AnEventNeedsAnEarlierDecodeOfItsPair. -/
theorem witness_streams :
    (bitsMsbFirst 0x009959#23).length = 23 ∧
    (((⟨none, 0⟩ : Confirmation).after [some (19, false), none, some (19, false)]).emits (some (19, false))) = true ∧
    (⟨some (19, false), 3⟩ : Confirmation).last = some (19, false) := by decide

/-- F64OperationsRoundToNearestEven: 1 and 5 under each operator, a tie, and both sides of the overflow threshold. -/
theorem witness_F64OperationsRoundToNearestEven :
    F64.one.isFinite = true ∧ five.isFinite = true ∧ (F64.add F64.one five).isFinite = true ∧
    (F64.sub F64.one five).isFinite = true ∧ (F64.mul F64.one five).isFinite = true ∧
    (F64.div F64.one five).isFinite = true ∧ five.units ≠ 0 ∧
    F64.add F64.one ⟨0x3CA0000000000000#64⟩ = F64.one ∧
    (F64.add largest ⟨0x7C90000000000000#64⟩).isFinite = false ∧
    (F64.add largest ⟨0x7C8FFFFFFFFFFFFF#64⟩).isFinite = true := by decide +kernel

/-- F64FilterIsSymmetricUnderNegation: 1 and -1, and the two zeros. -/
theorem witness_F64FilterIsSymmetricUnderNegation :
    F64.one.isFinite = true ∧ minusOne.isFinite = true ∧ minusOne.toRat = -F64.one.toRat ∧
    F64.zero.toRat = -F64.zero.toRat ∧ (filtered f64Ops alpha672 F64.one F64.zero).isFinite = true := by
  refine ⟨by decide +kernel, by decide +kernel, ?_, ?_, by decide +kernel⟩
  · have h : minusOne.units = -F64.one.units := by decide +kernel
    rw [F64.toRat, F64.toRat, h, Int.cast_neg, neg_div]
  · have h : F64.zero.units = 0 := by decide +kernel
    simp [F64.toRat, h]

/-- AlphaLiesBetweenZeroAndOne, RealSilenceSlicesOneBitAPeriod, RealCoefficientAndFilterAreBounded. -/
theorem witness_rates : 269 ≤ (269#32).toNat ∧ (1 : ℕ) < 269 ∧ (0 : ℝ) < 1 / 2 ∧ (1 / 2 : ℝ) < 1 := by
  refine ⟨by decide, by decide, by norm_num, by norm_num⟩

/-- SilenceGivesNoEvents: one sample of silence after CREATE 672. -/
theorem witness_SilenceGivesNoEvents :
    ∃ s t : State, s.life = .ready ∧ romAdmissible s.codeRom = true ∧ s.synTable = builtTable ∧
      s.lpfY = F64.zero ∧ s.prevY = F64.zero ∧ s.bitAcc = F64.zero ∧ s.windowA = 0 ∧ s.windowB = 0 ∧
      s.lastCode = none ∧ s.lastInv = false ∧ s.counter = 0 ∧ execAll (repeatOps 1 F64.zero) s = .next t := by
  obtain ⟨t, ht⟩ := exists_of_isNext
    (r := execAll (repeatOps 1 F64.zero) { ready with codeRom := romT105, synTable := builtTable })
    (by decide +kernel)
  refine ⟨_, t, rfl, ?_, ?_, rfl, rfl, rfl, rfl, rfl, rfl, rfl, rfl, ht⟩
  · simp only [romT105_admissible]
  · simp only

/-- TheMachineIsTheDecoderOverF64: two samples, the first of them a bit boundary that delivers an event. -/
theorem witness_TheMachineIsTheDecoderOverF64 :
    ∃ t : State, execAll (processOps [minusOne, F64.one]) nearEvent = .next t :=
  exists_of_isNext (by decide +kernel)

/-- AlphaIsNearTheRealCoefficient: the argument 0. -/
theorem witness_AlphaIsNearTheRealCoefficient :
    F64.zero.isFinite = true ∧ -8 ≤ F64.zero.toRat ∧ F64.zero.toRat ≤ 0 := by
  have h : F64.zero.toRat = 0 := by
    have u : F64.zero.units = 0 := by decide +kernel
    simp [F64.toRat, u]
  rw [h]
  exact ⟨by decide +kernel, by norm_num, le_refl _⟩

/-- ProcessMayBeCutAnywhere: the bit boundary of program P5 in one call, the next sample in another, idle steps after
each. -/
theorem witness_ProcessMayBeCutAnywhere :
    ∃ u v : State, nearEvent.inbox = [] ∧ nearEvent.busy = false ∧
      Sys2Proof.core.run ([minusOne].length + 2) { nearEvent with inbox := sampleRequests true [minusOne] } = .next u ∧
      Sys2Proof.core.run ([F64.one].length + 1) { u with inbox := sampleRequests true [F64.one] } = .next v := by
  obtain ⟨u, hu⟩ := exists_of_isNext
    (r := Sys2Proof.core.run ([minusOne].length + 2) { nearEvent with inbox := sampleRequests true [minusOne] })
    (by decide +kernel)
  have h : isNext (andThen
      (Sys2Proof.core.run ([minusOne].length + 2) { nearEvent with inbox := sampleRequests true [minusOne] })
      (fun u => Sys2Proof.core.run ([F64.one].length + 1) { u with inbox := sampleRequests true [F64.one] })) = true := by
    decide +kernel
  rw [hu] at h
  obtain ⟨v, hv⟩ := exists_of_isNext h
  exact ⟨u, v, rfl, rfl, hu, hv⟩

/-- EveryHostOperationIsThatOfTheDecoderOverF64: the machine in program P5, with a sample that both run and one that
both refuse. -/
theorem witness_EveryHostOperationIsThatOfTheDecoderOverF64 :
    Decoder.Agrees ⟨nearEvent.front, nearEvent⟩ nearEvent ∧
    (∃ t, exec (HostCall.sample minusOne).instr nearEvent = .next t) ∧
    (∃ r, exec (HostCall.sample ⟨0x7FF0000000000000#64⟩).instr nearEvent = .refused r) :=
  ⟨Decoder.agrees_self nearEvent, exists_of_isNext (by decide +kernel), ⟨.nonFiniteSample, rfl⟩⟩

/-- The decoder in REAL: its reset state meets what CREATE needs, at the least rate, and RealInv. -/
theorem witness_real_decoder :
    (Decoder.reset realInstance).rest.busy = false ∧ (Decoder.reset realInstance).rest.life = .absent ∧
    (Decoder.reset realInstance).rest.allocOk = true ∧ 269 ≤ (269#32).toNat ∧ (Decoder.reset realInstance).RealInv ∧
    ∃ e, execIn realInstance (.create 269) (Decoder.reset realInstance) = .next e :=
  ⟨rfl, rfl, rfl, by decide, nofun, _, rfl⟩

/-- RealPhaseStaysInRange, at the least period and the phase 0; RealNegatedSignalComplementsTheBits, with an accumulator
that is not zero; RealScaledStreamSlicesTheSameBits. -/
theorem witness_real_front :
    ∃ f : Front ℝ, 2 ≤ f.spb ∧ 0 ≤ f.bitPhase ∧ f.bitPhase < f.spb ∧
      f.bitAcc + filtered (exactOps ℝ) f.alpha 1 f.lpfY ≠ 0 ∧ (0 : ℝ) < 2 := by
  refine ⟨⟨1 / 2, 2, 0, 0, 0, 1⟩, le_refl _, le_refl _, by norm_num, ?_, by norm_num⟩
  simp only [filtered, exactOps]
  norm_num

end

end Sys2Proof.Tests
end

section
/-! SUPPORT. A bit boundary as one function of the registers: what WSHA to EMIT write outside the transients, and that
neither the registers of type NUM nor the transients (but the sliced bit) have a part in it (R33, R173). -/

namespace Sys2Proof.Machine

/-- The code a candidate holds, where it is valid (R144, R145). -/
def CandWires.decoded (c : CandWires) : Option Code := if c.valid then some c.code else none

/-- The decode of a bit boundary as SEL leaves it (R145). -/
def Wires.decode (w : Wires) : Option (Code × Bool) := if w.found then some (w.dcode, w.dinv) else none

/-- A candidate's transients after SYN and LUT (R121, R125). -/
def lookedUp (table : Memory) (c : CandWires) : CandWires :=
  let e := table.read (syndrome c.cand)
  { c with syndrome := syndrome c.cand, eok := e.valid, pattern := e.pattern }

/-- A candidate's transients after COR, EXT and TOP3 (R126, R127, R140). -/
def extracted (c : CandWires) : CandWires :=
  let d := dataField (c.cand ^^^ c.pattern)
  { c with corr := c.cand ^^^ c.pattern, data := d, t3ok := flagT3ok d, code := codeField d }

/-- A candidate's transients after ROMV (R142). -/
def romChecked (rom : RomBits) (c : CandWires) : CandWires := { c with inrom := flagInrom rom c.code }

/-- A candidate's transients after the micro-operations SYN to ROMV, with the skips of R125 and R140. -/
def processedCand (table : Memory) (rom : RomBits) (c : CandWires) : CandWires :=
  if (lookedUp table c).eok then
    if (extracted (lookedUp table c)).t3ok then romChecked rom (extracted (lookedUp table c))
    else extracted (lookedUp table c)
  else lookedUp table c

/-- The registers after the confirmation layer has seen a decode and the event is delivered (R150, R156). -/
def State.confirmed (s : State) (d : Option (Code × Bool)) : State :=
  { s with
    lastCode := (d.map Prod.fst).or s.lastCode
    lastInv := (d.map Prod.snd).getD s.lastInv
    counter := (s.confirmation.next d).counter
    events := s.events ++
      (d.filter (fun _ => s.confirmation.emits d && s.sinkEn)).toList.map (fun p => ⟨s.sink, s.sinkCtx, p.2, p.1⟩) }

/-- The registers after a bit has gone into both windows (R110, R111). -/
def State.shifted (s : State) (b : Bool) : State :=
  { s with windowA := shiftedA s.windowA b, windowB := shiftedB s.windowB b }

/-- The decode the windows hold (R112, R145). -/
def State.windowDecode (s : State) : Option (Code × Bool) := decodeOf s.synTable s.codeRom s.windowA s.windowB

/-- The registers after a bit boundary, ghost counters apart. -/
def State.boundary (s : State) (b : Bool) : State := (s.shifted b).confirmed (s.shifted b).windowDecode

/-! One candidate -/

@[simp] theorem Wires.setCandidate_setCandidate (w : Wires) (k : CandIdx) (c d : CandWires) :
    (w.setCandidate k c).setCandidate k d = w.setCandidate k d := by cases k <;> rfl

theorem State.mapTurn_mapTurn (s : State) (f g : CandWires → CandWires) :
    (s.mapTurn f).mapTurn g = s.mapTurn (fun c => g (f c)) := by
  simp [State.mapTurn_eq, Wires.updateTurn]

theorem State.mapTurn_congr (s : State) (f g : CandWires → CandWires) (h : f s.wires.turn = g s.wires.turn) :
    s.mapTurn f = s.mapTurn g := by
  simp only [Wires.turn] at h
  simp only [State.mapTurn, State.mapWires, Wires.updateTurn, h]

theorem State.mapTurn_turn (s : State) (f : CandWires → CandWires) : (s.mapTurn f).wires.turn = f s.wires.turn :=
  Wires.updateTurn_turn _ _

theorem opLut_opSyn (s : State) : opLut (opSyn s) = s.mapTurn (lookedUp s.synTable) :=
  State.mapTurn_mapTurn _ _ _

theorem opTop3_opExt_opCor (s : State) : opTop3 (opExt (opCor s)) = s.mapTurn extracted := by
  simp only [opTop3, opExt, opCor, State.mapTurn_mapTurn]
  rfl

theorem opRomv_eq (s : State) : opRomv s = s.mapTurn (romChecked s.codeRom) := rfl

/-- The micro-operations of one candidate change its own transients, and these by its word and the tables alone. -/
theorem decodeCandidate_eq (s : State) (k : CandIdx) :
    decodeCandidate s k = (s.turnTo k).mapTurn (processedCand s.synTable s.codeRom) := by
  have hsyn : (s.turnTo k).synTable = s.synTable := rfl
  simp only [decodeCandidate, opLut_opSyn, opTop3_opExt_opCor, opRomv_eq, State.mapTurn_mapTurn, State.mapTurn_turn,
    hsyn]
  split
  · next he =>
    split
    · next ht => exact State.mapTurn_congr _ _ _ (by rw [processedCand, if_pos he, if_pos ht]; rfl)
    · next ht => exact State.mapTurn_congr _ _ _ (by rw [processedCand, if_pos he, if_neg ht])
  · next he => exact State.mapTurn_congr _ _ _ (by rw [processedCand, if_neg he])

theorem decodeCandidate_frame (s : State) (k : CandIdx) : s.sameButWires (decodeCandidate s k) := by
  rw [decodeCandidate_eq]
  rfl

theorem decodeCandidate_same (s : State) (k : CandIdx) :
    (decodeCandidate s k).wires.candidate k = processedCand s.synTable s.codeRom (s.wires.candidate k) := by
  rw [decodeCandidate_eq]
  cases k <;> rfl

theorem decodeCandidate_other (s : State) (k j : CandIdx) (h : j ≠ k) :
    (decodeCandidate s k).wires.candidate j = s.wires.candidate j := by
  rw [decodeCandidate_eq]
  refine (Wires.updateTurn_other _ _ j h).trans ?_
  cases j <;> rfl

theorem processedCand_cinv (table : Memory) (rom : RomBits) (c : CandWires) :
    (processedCand table rom c).cinv = c.cinv := by
  unfold processedCand
  split
  · split <;> rfl
  · rfl

/-- A candidate run through SYN to ROMV holds the code the tables alone give its word, whatever stood there before. -/
theorem processedCand_decoded (table : Memory) (rom : RomBits) (c : CandWires) :
    (processedCand table rom c).decoded = codeOf table rom c.cand := by
  let e := table.read (syndrome c.cand)
  have hcode : codeOf table rom c.cand =
      if e.valid && (extracted (lookedUp table c)).t3ok && flagInrom rom (extracted (lookedUp table c)).code then
        some (extracted (lookedUp table c)).code else none := rfl
  have heok : (lookedUp table c).eok = e.valid := rfl
  have heok' : (extracted (lookedUp table c)).eok = e.valid := rfl
  rw [hcode, processedCand, heok]
  cases he : e.valid
  · simp [CandWires.decoded, CandWires.valid, heok, he]
  · cases ht : (extracted (lookedUp table c)).t3ok
    · simp [CandWires.decoded, CandWires.valid, ht]
    · simp [CandWires.decoded, CandWires.valid, romChecked, heok', he, ht]

/-! The four candidates and the selection -/

theorem State.sameButWires_iff (s t : State) : s.sameButWires t ↔ ∃ w, t = { s with wires := w } :=
  ⟨fun h => ⟨t.wires, h⟩, fun ⟨w, h⟩ => by rw [h]; rfl⟩

theorem State.sameButWires_trans {s t u : State} (h : s.sameButWires t) (h' : t.sameButWires u) :
    s.sameButWires u := by
  unfold State.sameButWires at *
  rw [h', h]

/-- The loop of R173 writes transients only. -/
theorem candidateLoop_frame (ks : List CandIdx) (s : State) : s.sameButWires (ks.foldl decodeCandidate s) := by
  induction ks generalizing s with
  | nil => rfl
  | cons k ks ih => exact State.sameButWires_trans (decodeCandidate_frame s k) (ih _)

theorem candidateLoop_other (ks : List CandIdx) (s : State) (j : CandIdx) (h : j ∉ ks) :
    (ks.foldl decodeCandidate s).wires.candidate j = s.wires.candidate j := by
  induction ks generalizing s with
  | nil => rfl
  | cons k ks ih =>
    obtain ⟨hk, hks⟩ := not_or.mp (fun hm => h (List.mem_cons.mpr hm))
    exact (ih _ hks).trans (decodeCandidate_other s k j hk)

/-- The loop runs each candidate of its list on that candidate's own transients. -/
theorem candidateLoop_mem (ks : List CandIdx) (s : State) (j : CandIdx) (hnd : ks.Nodup) (h : j ∈ ks) :
    (ks.foldl decodeCandidate s).wires.candidate j =
      processedCand s.synTable s.codeRom (s.wires.candidate j) := by
  induction ks generalizing s with
  | nil => cases h
  | cons k ks ih =>
    obtain ⟨hk, hnd⟩ := List.nodup_cons.mp hnd
    have hframe := decodeCandidate_frame s k
    by_cases hjk : j = k
    · subst hjk
      exact (candidateLoop_other ks _ j hk).trans (decodeCandidate_same s j)
    · have hmem := (List.mem_cons.mp h).resolve_left hjk
      rw [List.foldl_cons, ih _ hnd hmem, decodeCandidate_other s k j hjk, hframe]

/-- After CGEN and the loop a candidate holds the code of its word, and its polarity. -/
theorem candidateLoop_opCgen (s : State) (k : CandIdx) :
    ((candOrder.foldl decodeCandidate (opCgen s)).wires.candidate k).decoded =
        codeOf s.synTable s.codeRom (candidateOf s.windowA s.windowB k) ∧
      ((candOrder.foldl decodeCandidate (opCgen s)).wires.candidate k).cinv = candInverted k := by
  obtain ⟨hcand, hcinv⟩ := opCgen_candidate s k
  rw [candidateLoop_mem candOrder _ k (by decide) (by cases k <;> decide), processedCand_decoded, processedCand_cinv,
    hcand, hcinv]
  exact ⟨rfl, rfl⟩

theorem firstValid_nil (w : Wires) : firstValid w [] = none := rfl

theorem firstValid_cons (w : Wires) (k : CandIdx) (ks : List CandIdx) :
    (firstValid w (k :: ks)).map (fun c => (c.code, c.cinv)) =
      ((w.candidate k).decoded.map (fun c => (c, (w.candidate k).cinv))).or
        ((firstValid w ks).map (fun c => (c.code, c.cinv))) := by
  cases h : (w.candidate k).valid <;> simp [firstValid, CandWires.decoded, h]

theorem opSel_frame (s : State) : s.sameButWires (opSel s) := rfl

theorem opSel_decode (s : State) :
    (opSel s).wires.decode = (firstValid s.wires candOrder).map (fun c => (c.code, c.cinv)) := by
  unfold opSel
  cases h : firstValid s.wires candOrder <;> simp [h, Wires.decode]

theorem decodeOf_eq (table : Memory) (rom : RomBits) (a b : Word23) :
    decodeOf table rom a b =
      ((codeOf table rom a).map (·, false)).or (((codeOf table rom (~~~a)).map (·, true)).or
        (((codeOf table rom b).map (·, false)).or ((codeOf table rom (~~~b)).map (·, true)))) := by
  unfold decodeOf
  cases codeOf table rom a
  · cases codeOf table rom (~~~a)
    · cases codeOf table rom b
      · cases codeOf table rom (~~~b) <;> rfl
      · rfl
    · rfl
  · rfl

/-- CGEN, the loop and SEL come to the decode the windows hold. -/
theorem opSel_candidateLoop_decode (s : State) :
    (opSel (candOrder.foldl decodeCandidate (opCgen s))).wires.decode = s.windowDecode := by
  rw [opSel_decode]
  generalize hu : candOrder.foldl decodeCandidate (opCgen s) = u
  have key : ∀ k, (u.wires.candidate k).decoded = codeOf s.synTable s.codeRom (candidateOf s.windowA s.windowB k) ∧
      (u.wires.candidate k).cinv = candInverted k := fun k => hu ▸ candidateLoop_opCgen s k
  simp [candOrder, firstValid_cons, key, candidateOf, candInverted, firstValid_nil, State.windowDecode, decodeOf_eq]

/-! The confirmation layer and the event -/

/-- A state's confirmation pair equals a decode exactly where the machine's `MATCH` says so. -/
theorem confirmation_last_eq_iff (s : State) (c : Code) (i : Bool) :
    s.confirmation.last = some (c, i) ↔ flagMatch true c i s.lastCode s.lastInv = true := by
  cases h : s.lastCode with
  | none => simp [State.confirmation, flagMatch, h]
  | some c' => simpa [State.confirmation, flagMatch, h] using fun _ => eq_comm

/-- EMIT outside the transients: the event due is delivered where it is asked for and a sink is bound. -/
theorem opEmit_registers (s : State) :
    ({ s with events := s.events ++ if s.wires.emitReq && s.sinkEn then [s.eventDue] else [] } : State).sameButWires
      (opEmit s) := by
  rcases opEmit_cases s with ⟨hreq, hen, h⟩ | ⟨hnot, h⟩
  · have hon : (s.wires.emitReq && s.sinkEn) = true := Bool.and_eq_true_iff.mpr ⟨hreq, hen⟩
    rw [h, hon]
    rfl
  · have hoff : (s.wires.emitReq && s.sinkEn) = false := Bool.and_eq_false_iff.mpr hnot
    rw [h, hoff]
    simp [State.sameButWires, State.mapWires]

theorem opEmit_of_not_asked (s : State) (h : s.wires.emitReq = false) : s.sameButWires (opEmit s) := by
  have hemit := opEmit_registers s
  rw [h, Bool.false_and, if_neg Bool.false_ne_true, List.append_nil] at hemit
  exact hemit

theorem State.confirmed_congr {s t : State} (h : s.sameButWires t) (d : Option (Code × Bool)) :
    (s.confirmed d).sameButWires (t.confirmed d) := by
  obtain ⟨w, rfl⟩ := (State.sameButWires_iff s t).mp h
  rfl

theorem confirmed_none (s : State) : s.confirmed none = { s with counter := s.counter - 1 } := by
  simp [State.confirmed, Confirmation.next, State.confirmation]

theorem confirmed_different (s : State) (c : Code) (i : Bool)
    (h : flagMatch true c i s.lastCode s.lastInv = false) :
    s.confirmed (some (c, i)) = { s with lastCode := some c, lastInv := i, counter := 1 } := by
  have hne : s.confirmation.last ≠ some (c, i) := by
    rw [Ne, confirmation_last_eq_iff, h]; exact Bool.false_ne_true
  simp [State.confirmed, Confirmation.next, Confirmation.emits, hne]

theorem confirmed_match (s : State) (c : Code) (i : Bool)
    (h : flagMatch true c i s.lastCode s.lastInv = true) :
    s.confirmed (some (c, i)) = { s with
      counter := s.counter + 1
      events := s.events ++
        if flagEmitReq true (s.counter + 1) && s.sinkEn then [⟨s.sink, s.sinkCtx, i, c⟩] else [] } := by
  have heq := (confirmation_last_eq_iff s c i).mpr h
  obtain ⟨hc, rfl⟩ : s.lastCode = some c ∧ i = s.lastInv := by simpa [flagMatch] using h
  have hcount : s.confirmation.counter = s.counter := rfl
  have hreq : s.confirmation.emits (some (c, s.lastInv)) = flagEmitReq true (s.counter + 1) := by
    simp [Confirmation.emits, heq, flagEmitReq, Config.confirmMin, hcount]
  have hnext : (s.confirmation.next (some (c, s.lastInv))).counter = s.counter + 1 := by
    simp [Confirmation.next, heq, hcount]
  have hevents (b : Bool) : ((some (c, s.lastInv)).filter (fun _ => b)).toList.map
      (fun p => (⟨s.sink, s.sinkCtx, p.2, p.1⟩ : Event)) =
        if b then [⟨s.sink, s.sinkCtx, s.lastInv, c⟩] else [] := by cases b <;> rfl
  rw [State.confirmed, hevents, hreq, hnext]
  simp [← hc]

/-- CNF and EMIT outside the transients: the source's transition table and its delivery (R150, R156). -/
theorem opEmit_opCnf (s : State) : (s.confirmed s.wires.decode).sameButWires (opEmit (opCnf s)) := by
  cases hf : s.wires.found
  case false =>
    rw [show s.wires.decode = none by simp [Wires.decode, hf], confirmed_none]
    rw [opCnf_miss s hf]
    exact opEmit_of_not_asked _ rfl
  case true =>
    rw [show s.wires.decode = some (s.wires.dcode, s.wires.dinv) by simp [Wires.decode, hf]]
    cases hm : flagMatch true s.wires.dcode s.wires.dinv s.lastCode s.lastInv
    · rw [confirmed_different s _ _ hm]
      rw [opCnf_different s hf hm]
      exact opEmit_of_not_asked _ rfl
    · rw [confirmed_match s _ _ hm]
      rw [opCnf_match s hf hm]
      exact opEmit_registers _

/-- The whole of a bit boundary outside the transients. -/
theorem sampleBoundary_registers (s : State) : (s.boundary s.wires.bit).sameButWires (sampleBoundary s) := by
  unfold sampleBoundary State.boundary
  generalize hv : opWshb (opWsha s) = v
  have hshift : s.shifted s.wires.bit = v := hv
  rw [hshift]
  have hframe : v.sameButWires (opSel (candOrder.foldl decodeCandidate (opCgen v))) :=
    State.sameButWires_trans (opCgen_frame v)
      (State.sameButWires_trans (candidateLoop_frame candOrder _) (opSel_frame _))
  have hdecode := opSel_candidateLoop_decode v
  generalize opSel (candOrder.foldl decodeCandidate (opCgen v)) = u at hframe hdecode ⊢
  rw [← hdecode]
  exact State.sameButWires_trans (State.confirmed_congr hframe _) (opEmit_opCnf u)

end Sys2Proof.Machine
end

section
/-! SUPPORT. The six numeric micro-operations of a SAMPLE as the numeric part of the decoder at F64, with the envelope
of R192 as the exact condition under which they go through (R95, R173). -/

namespace Sys2Proof

theorem F64.isFinite_nan : F64.nan.isFinite = false := by decide

/-- A finite sum has a finite first term: no addition turns an infinity or a NaN into a finite value. -/
theorem F64.isFinite_of_add_isFinite (a b : F64) (h : (F64.add a b).isFinite = true) : a.isFinite = true := by
  by_contra ha
  rw [Bool.not_eq_true] at ha
  have hnan : F64.nan.isFinite ≠ true := by rw [F64.isFinite_nan]; exact Bool.false_ne_true
  have ha' : a.isFinite ≠ true := by rw [ha]; exact Bool.false_ne_true
  simp only [F64.add, ha, Bool.false_and, Bool.false_eq_true, if_false] at h
  split at h
  · exact hnan h
  · split at h
    · exact ha' h
    · split at h
      · exact ha' h
      · exact hnan h

end Sys2Proof

namespace Sys2Proof.Machine

/-- ZCN in one formula, whether there is a crossing or not (R91). -/
theorem opZcn_eq_next_iff_phaseAfterZcn (s t : State) :
    opZcn s = .next t ↔
      (flagZc s.prevY s.wires.y = true → (nudgedPhase f64Ops Config.nudgeDir s.spb s.bitPhase).isFinite = true) ∧
      t = { s with
        bitPhase := phaseAfterZcn f64Ops Config.zcMode Config.nudgeDir s.spb s.prevY s.wires.y s.bitPhase
        wires := { s.wires with zc := flagZc s.prevY s.wires.y } } := by
  rw [opZcn_eq_next_iff]
  unfold phaseAfterZcn
  cases h : flagZc s.prevY s.wires.y <;> rw [flagZc] at h <;> simp [h]

/-- SLC in one formula, at a boundary and off one (R94). -/
def State.sliced (s : State) : State :=
  if flagBnd s.spb s.bitPhase then
    { s with
      bitPhase := wrappedPhase f64Ops s.spb s.bitPhase
      bitAcc := F64.zero
      wires := { s.wires with bnd := true, bit := flagBit s.bitAcc } }
  else { s with wires := { s.wires with bnd := false } }

theorem opSlc_eq_next_iff_sliced (s t : State) :
    opSlc s = .next t ↔
      (flagBnd s.spb s.bitPhase = true → (wrappedPhase f64Ops s.spb s.bitPhase).isFinite = true) ∧ t = s.sliced := by
  rw [opSlc_eq_next_iff]
  unfold State.sliced
  cases flagBnd s.spb s.bitPhase <;> simp

/-- What LPF to SLC leave in a state: the numeric part of R95, and the transients it computes. -/
def State.afterFront (s : State) : State :=
  let r := Front.sample f64Ops Config.zcMode Config.nudgeDir s.front s.wires.x
  { s with
    lpfY := r.1.lpfY
    prevY := r.1.prevY
    bitPhase := r.1.bitPhase
    bitAcc := r.1.bitAcc
    wires := { s.wires with
      y := r.1.lpfY, zc := flagZc s.prevY r.1.lpfY, bnd := r.2.isSome, bit := r.2.getD s.wires.bit } }

/-- The state SLC finds: the four numeric registers and two transients written by LPF, ZCN, PRV, ACC and PHI. -/
theorem State.afterFront_eq (s : State) :
    let y := filtered f64Ops s.alpha s.wires.x s.lpfY
    let nudged := phaseAfterZcn f64Ops Config.zcMode Config.nudgeDir s.spb s.prevY y s.bitPhase
    ({ s with
      lpfY := y
      prevY := y
      bitPhase := advancedPhase f64Ops nudged
      bitAcc := accumulated f64Ops s.bitAcc y
      wires := { s.wires with y := y, zc := flagZc s.prevY y } } : State).sliced = s.afterFront := by
  intro y nudged
  unfold State.sliced State.afterFront Front.sample flagBnd
  cases h : atBoundary f64Ops s.spb (advancedPhase f64Ops nudged) <;>
    simp only [h, y, nudged, State.front_alpha, State.front_spb, State.front_lpfY, State.front_prevY,
      State.front_bitPhase, State.front_bitAcc, if_true, Bool.false_eq_true, if_false] <;> rfl

theorem inEnvelope_iff {N : Type} (I : NumInstance N) (mode : ZcMode) (dir : NudgeDir) (f : Front N) (x : N) :
    Front.inEnvelope I mode dir f x = true ↔
      let y := filtered I.ops f.alpha x f.lpfY
      let nudged := phaseAfterZcn I.ops mode dir f.spb f.prevY y f.bitPhase
      let phase := advancedPhase I.ops nudged
      I.finite x = true ∧ I.finite y = true ∧ I.finite nudged = true ∧
      I.finite (accumulated I.ops f.bitAcc y) = true ∧ I.finite phase = true ∧
      (atBoundary I.ops f.spb phase = true → I.finite (wrappedPhase I.ops f.spb phase) = true) := by
  simp only [Front.inEnvelope, Bool.and_eq_true, Bool.or_eq_true, and_assoc, Bool.not_eq_true', imp_iff_not_or,
    Bool.not_eq_true]

/-- For a finite sample LPF to SLC go through exactly inside the envelope, and leave the numeric part of R95. -/
theorem sampleFront_eq_next_iff_inEnvelope (s t : State) (hx : s.wires.x.isFinite = true) :
    sampleFront s = .next t ↔
      Front.inEnvelope f64Instance Config.zcMode Config.nudgeDir s.front s.wires.x = true ∧ t = s.afterFront := by
  rw [inEnvelope_iff, sampleFront_eq_next_iff]
  constructor
  · rintro ⟨a, b, c, d, ha, hb, hc, hd, ht⟩
    obtain ⟨hy, rfl⟩ := (opLpf_eq_next_iff _ _).mp ha
    obtain ⟨-, rfl⟩ := (opZcn_eq_next_iff_phaseAfterZcn _ _).mp hb
    obtain ⟨hacc, rfl⟩ := (opAcc_eq_next_iff _ _).mp hc
    obtain ⟨hphi, rfl⟩ := (opPhi_eq_next_iff _ _).mp hd
    obtain ⟨hwrap, rfl⟩ := (opSlc_eq_next_iff_sliced _ _).mp ht
    exact ⟨⟨hx, hy, F64.isFinite_of_add_isFinite _ _ hphi, hacc, hphi, hwrap⟩, State.afterFront_eq s⟩
  · rintro ⟨⟨-, hy, hnudged, hacc, hphi, hwrap⟩, rfl⟩
    refine ⟨_, _, _, _, (opLpf_eq_next_iff _ _).mpr ⟨hy, rfl⟩,
      (opZcn_eq_next_iff_phaseAfterZcn _ _).mpr ⟨fun hzc => ?_, rfl⟩, (opAcc_eq_next_iff _ _).mpr ⟨hacc, rfl⟩,
      (opPhi_eq_next_iff _ _).mpr ⟨hphi, rfl⟩, (opSlc_eq_next_iff_sliced _ _).mpr ⟨hwrap, ?_⟩⟩
    · rwa [phaseAfterZcn, if_pos (by exact hzc)] at hnudged
    · exact (State.afterFront_eq s).symm

end Sys2Proof.Machine
end

section
/-! PROOFS. The machine is the decoder over F64: one host operation at a time, and over a whole stream. -/

namespace Sys2Proof.Machine

/-! Refusals of the numeric part -/

/-- An answer that is a next state or the one refusal of the numeric part. -/
def OnlyOverflows (o : Result) : Prop := (∃ t, o = .next t) ∨ o = .refused .intermediateOverflow

theorem onlyOverflows_next (t : State) : OnlyOverflows (.next t) := .inl ⟨t, rfl⟩

theorem onlyOverflows_guardFinite (v : F64) (t : State) : OnlyOverflows (guardFinite v t) := by
  cases hv : v.isFinite
  · exact .inr (guardFinite_of_not_finite v t hv)
  · exact .inl ⟨t, guardFinite_of_finite v t hv⟩

theorem onlyOverflows_andThen {o : Result} {f : State → Result} (ho : OnlyOverflows o)
    (hf : ∀ t, OnlyOverflows (f t)) : OnlyOverflows (andThen o f) := by
  rcases ho with ⟨t, rfl⟩ | rfl
  · exact hf t
  · exact .inr rfl

theorem onlyOverflows_opZcn (s : State) : OnlyOverflows (opZcn s) := by
  unfold opZcn
  split
  · exact onlyOverflows_guardFinite _ _
  · exact onlyOverflows_next _

theorem onlyOverflows_opSlc (s : State) : OnlyOverflows (opSlc s) := by
  unfold opSlc
  split
  · exact onlyOverflows_guardFinite _ _
  · exact onlyOverflows_next _

theorem onlyOverflows_sampleFront (s : State) : OnlyOverflows (sampleFront s) :=
  onlyOverflows_andThen (onlyOverflows_andThen (onlyOverflows_andThen (onlyOverflows_andThen
    (onlyOverflows_guardFinite _ _) onlyOverflows_opZcn) fun _ => onlyOverflows_guardFinite _ _)
      fun _ => onlyOverflows_guardFinite _ _) onlyOverflows_opSlc

/-- LPF to SLC on a finite sample: the numeric part of R95 inside the envelope, and the overflow outside it. -/
theorem sampleFront_eq (s : State) (hx : s.wires.x.isFinite = true) :
    sampleFront s =
      if Front.inEnvelope f64Instance Config.zcMode Config.nudgeDir s.front s.wires.x then .next s.afterFront
      else .refused .intermediateOverflow := by
  have hnext := sampleFront_eq_next_iff_inEnvelope s
  split
  · next he => exact (hnext _ hx).mpr ⟨he, rfl⟩
  · next he =>
    rcases onlyOverflows_sampleFront s with ⟨t, ht⟩ | h
    · exact absurd ((hnext t hx).mp ht).1 he
    · exact h

/-! States that agree -/

/-- A state with its registers of type NUM and its transients replaced. -/
def State.withFront (s : State) (f : Front F64) (w : Wires) : State :=
  { s with
    alpha := f.alpha, spb := f.spb, lpfY := f.lpfY, prevY := f.prevY, bitPhase := f.bitPhase, bitAcc := f.bitAcc
    wires := w }

/-- A state of the machine agrees with a decoder where it is the decoder's rest with the decoder's registers of type NUM
and any transients. -/
theorem agrees_iff (d : Decoder F64) (s : State) : d.Agrees s ↔ ∃ w, s = d.rest.withFront d.num w := by
  constructor
  · rintro ⟨hnum, hrest⟩
    exact ⟨s.wires, by rw [hnum]; exact hrest.symm⟩
  · rintro ⟨w, rfl⟩
    exact ⟨rfl, rfl⟩

theorem agrees_congr {f : Front F64} {r r' s : State} (hr : r.sameButWires r') (h : Decoder.Agrees ⟨f, r⟩ s) :
    Decoder.Agrees ⟨f, r'⟩ s := by
  obtain ⟨w, rfl⟩ := (agrees_iff _ _).mp h
  obtain ⟨w', rfl⟩ := (State.sameButWires_iff r r').mp hr
  exact (agrees_iff _ _).mpr ⟨w, rfl⟩

/-- The machine and the decoder answer alike: next states that agree, or one refusal by the same name. -/
inductive OutcomesAgree : Result → ResultIn F64 → Prop
  | next {t : State} {e : Decoder F64} (h : e.Agrees t) : OutcomesAgree (.next t) (.next e)
  | refused (r : Refusal) : OutcomesAgree (.refused r) (.refused r)

theorem guardHostOp_agrees {op : HostOp} {need : Life} {s r : State} {actS actR : State → Result}
    {num : State → Front F64} (hb : r.busy = s.busy) (hl : r.life = s.life)
    (hact : r.life = need → OutcomesAgree (actS s) (withNum (actR r) num)) :
    OutcomesAgree (guardHostOp op need s actS) (withNum (guardHostOp op need r actR) num) := by
  unfold guardHostOp
  rw [← hb, ← hl]
  split
  · exact .refused _
  · split
    · exact .refused _
    · next hneed => exact hact (not_not.mp hneed)

/-! CREATE, BIND and DESTROY -/

theorem createInstance_withFront (fs : BitVec 32) (r : State) (f : Front F64) (w : Wires) :
    createInstance fs (r.withFront f w) = (createInstance fs r).withFront (Front.created f64Instance fs) w := by
  simp only [createInstance, opInit, opTbld, opCfgs, opCfga, State.withFront, Front.created, f64Instance, f64Ops]

theorem execCreate_agrees (fs : BitVec 32) (d : Decoder F64) (s : State) (h : d.Agrees s) :
    OutcomesAgree (execCreate fs s) (execIn f64Instance (.create fs) d) := by
  obtain ⟨w, rfl⟩ := (agrees_iff d s).mp h
  refine guardHostOp_agrees rfl rfl fun hlife => ?_
  by_cases h0 : fs.toNat = 0
  · rw [if_pos h0, if_pos h0]
    exact .refused _
  by_cases hmin : fs.toNat < Config.minSampleRate
  · rw [if_neg h0, if_neg h0, if_pos hmin, if_pos hmin]
    exact .refused _
  rw [if_neg h0, if_neg h0, if_neg hmin, if_neg hmin]
  by_cases ha : d.rest.allocOk = true
  · rw [if_pos (by exact ha), if_pos ha]
    exact .next ((agrees_iff _ _).mpr ⟨w, createInstance_withFront fs d.rest d.num w⟩)
  · have hnum : (if d.rest.creationFailure.life = .ready then Front.created f64Instance fs else d.num) = d.num :=
      if_neg (by rw [State.creationFailure_life, hlife]; decide)
    rw [if_neg (by exact ha), if_neg ha, withNum_next, hnum]
    exact .next ((agrees_iff _ _).mpr ⟨w, rfl⟩)

theorem execBind_agrees (en : Bool) (sink ctx : Nat) (d : Decoder F64) (s : State) (h : d.Agrees s) :
    OutcomesAgree (execBind en sink ctx s) (execIn f64Instance (.bind en sink ctx) d) := by
  obtain ⟨w, rfl⟩ := (agrees_iff d s).mp h
  refine guardHostOp_agrees rfl rfl fun _ => ?_
  cases en <;> exact .next ((agrees_iff _ _).mpr ⟨w, rfl⟩)

theorem execDestroy_agrees (d : Decoder F64) (s : State) (h : d.Agrees s) :
    OutcomesAgree (execDestroy s) (execIn f64Instance .destroy d) := by
  obtain ⟨w, rfl⟩ := (agrees_iff d s).mp h
  exact guardHostOp_agrees rfl rfl fun _ => .next ((agrees_iff _ _).mpr ⟨w, rfl⟩)

/-! SAMPLE -/

theorem Front.sample_alpha {N : Type} (o : NumOps N) (mode : ZcMode) (dir : NudgeDir) (f : Front N) (x : N) :
    (Front.sample o mode dir f x).1.alpha = f.alpha := by
  unfold Front.sample
  dsimp only
  split <;> rfl

theorem Front.sample_spb {N : Type} (o : NumOps N) (mode : ZcMode) (dir : NudgeDir) (f : Front N) (x : N) :
    (Front.sample o mode dir f x).1.spb = f.spb := by
  unfold Front.sample
  dsimp only
  split <;> rfl

theorem State.boundary_withFront (r : State) (f : Front F64) (w w' : Wires) (b : Bool) :
    (r.withFront f w).boundary b = (({ r with wires := w' } : State).boundary b).withFront f w := by
  simp only [State.boundary, State.confirmed, State.shifted, State.windowDecode, State.confirmation,
    State.withFront]

/-- A bit boundary leaves the registers of type NUM as they are and does not depend on them, nor on the transients but
the sliced bit. -/
theorem sampleBoundary_withFront (r : State) (f : Front F64) (w w' : Wires) (h : w.bit = w'.bit) :
    ∃ w'', sampleBoundary (r.withFront f w) = (sampleBoundary { r with wires := w' }).withFront f w'' := by
  obtain ⟨v, hv⟩ := (State.sameButWires_iff _ _).mp (sampleBoundary_registers (r.withFront f w))
  obtain ⟨v', hv'⟩ := (State.sameButWires_iff _ _).mp (sampleBoundary_registers { r with wires := w' })
  have hbit : (r.withFront f w).wires.bit = w'.bit := h
  rw [hv, hv', State.boundary_withFront r f w w', hbit]
  exact ⟨v, rfl⟩

/-- The end of a SAMPLE is that of the decoder, fed with what the numeric part sliced. -/
theorem sampleTail_withFront (r : State) (f : Front F64) (w : Wires) (o : Option Bool) (hbnd : w.bnd = o.isSome)
    (hbit : ∀ b, o = some b → w.bit = b) :
    ∃ w', sampleTail (r.withFront f w) = (restAfterSample r o).withFront f w' := by
  have hb : (r.withFront f w).wires.bnd = o.isSome := hbnd
  unfold sampleTail
  rw [hb]
  cases o with
  | none => exact ⟨_, rfl⟩
  | some b =>
    obtain ⟨w', h⟩ := sampleBoundary_withFront r f w { r.wires with bnd := true, bit := b } (hbit b rfl)
    refine ⟨w', ?_⟩
    rw [Option.isSome_some, if_pos rfl, h]
    simp only [restAfterSample, feedBit, State.withFront]

theorem afterFront_withFront (r : State) (f g : Front F64) (w : Wires) (o : Option Bool)
    (h : Front.sample f64Ops Config.zcMode Config.nudgeDir f w.x = (g, o)) :
    ∃ w', (r.withFront f w).afterFront = r.withFront g w' ∧ w'.bnd = o.isSome ∧ ∀ b, o = some b → w'.bit = b := by
  have halpha : g.alpha = f.alpha := by rw [← Front.sample_alpha f64Ops Config.zcMode Config.nudgeDir f w.x, h]
  have hspb : g.spb = f.spb := by rw [← Front.sample_spb f64Ops Config.zcMode Config.nudgeDir f w.x, h]
  have hfront : (r.withFront f w).front = f := rfl
  have hx : (r.withFront f w).wires.x = w.x := rfl
  rw [State.afterFront, hfront, hx, h]
  refine ⟨{ w with y := g.lpfY, zc := flagZc f.prevY g.lpfY, bnd := o.isSome, bit := o.getD w.bit }, ?_, rfl,
    fun b hb => by rw [hb]; rfl⟩
  simp only [State.withFront, halpha, hspb]

theorem execSample_agrees (x : F64) (d : Decoder F64) (s : State) (h : d.Agrees s) :
    OutcomesAgree (execSample x s) (execIn f64Instance (.sample x) d) := by
  obtain ⟨w, rfl⟩ := (agrees_iff d s).mp h
  refine guardHostOp_agrees rfl rfl fun _ => ?_
  have hfinite : f64Instance.finite x = x.isFinite := rfl
  rw [hfinite]
  cases hx : x.isFinite with
  | false => exact .refused _
  | true =>
    let u := d.rest.withFront d.num { w with x := x }
    have hfront : sampleFront u = if Front.inEnvelope f64Instance Config.zcMode Config.nudgeDir d.num x then
        .next u.afterFront else .refused .intermediateOverflow := sampleFront_eq u hx
    show OutcomesAgree (andThen (sampleFront u) _) (withNum (ite _ _ _) _)
    rw [hfront]
    split
    · obtain ⟨v, hv, hbnd, hbit⟩ := afterFront_withFront d.rest d.num _ { w with x := x } _ rfl
      obtain ⟨v', hv'⟩ := sampleTail_withFront d.rest _ v _ hbnd hbit
      rw [show u.afterFront = _ from hv]
      exact .next ((agrees_iff _ _).mpr ⟨v', hv'⟩)
    · exact .refused _

/-- Every host operation answers alike in the machine and in the decoder over F64. -/
theorem exec_agrees (c : HostCall F64) (d : Decoder F64) (s : State) (h : d.Agrees s) :
    OutcomesAgree (exec c.instr s) (execIn f64Instance c d) := by
  cases c with
  | create fs => exact execCreate_agrees fs d s h
  | bind en sink ctx => exact execBind_agrees en sink ctx d s h
  | sample x => exact execSample_agrees x d s h
  | destroy => exact execDestroy_agrees d s h

/-- Settles O54: the two answers agree for each host operation, by cases on the answer they have in common. -/
theorem everyHostOperationIsThatOfTheDecoderOverF64 :
    Obligations.EveryHostOperationIsThatOfTheDecoderOverF64 := by
  unfold Obligations.EveryHostOperationIsThatOfTheDecoderOverF64
  intro c d s h
  have hagree := exec_agrees c d s h
  generalize exec c.instr s = o at hagree ⊢
  generalize execIn f64Instance c d = p at hagree ⊢
  cases hagree with
  | next ht =>
    refine ⟨fun t h => ?_, fun e h => ?_, fun r => ⟨nofun, nofun⟩⟩
    · cases h; exact ⟨_, rfl, ht⟩
    · cases h; exact ⟨_, rfl, ht⟩
  | refused q =>
    refine ⟨fun t h => absurd h (refused_ne_next q t), fun e h => (by cases h), fun r => ⟨fun h => ?_, fun h => ?_⟩⟩
    · cases h; rfl
    · cases h; rfl

/-! A whole stream -/

/-- A bit fed to the windows, outside the transients. -/
theorem feedBit_registers (s : State) (b : Bool) :
    ({ s.boundary b with nBit := s.nBit + 1 } : State).sameButWires (feedBit s b) := by
  obtain ⟨v, hv⟩ := (State.sameButWires_iff _ _).mp
    (sampleBoundary_registers { s with wires := { s.wires with bnd := true, bit := b } })
  rw [feedBit, hv]
  rfl

theorem State.boundary_nSample (s : State) (n : Nat) (w : Wires) (b : Bool) :
    ({ s with nSample := n, wires := w } : State).boundary b = { s.boundary b with nSample := n, wires := w } := by
  simp only [State.boundary, State.confirmed, State.shifted, State.windowDecode, State.confirmation]

/-- A bit fed to the windows with another sample count and other transients in force. -/
theorem feedBit_congr (s : State) (n : Nat) (w : Wires) (b : Bool) :
    ∃ w', feedBit { s with nSample := n, wires := w } b = { feedBit s b with nSample := n, wires := w' } := by
  obtain ⟨v, hv⟩ := (State.sameButWires_iff _ _).mp (feedBit_registers { s with nSample := n, wires := w } b)
  obtain ⟨v', hv'⟩ := (State.sameButWires_iff _ _).mp (feedBit_registers s b)
  rw [hv, hv', State.boundary_nSample]
  exact ⟨v, rfl⟩

/-- The windows and what follows them read neither the sample count nor the transients. -/
theorem feedBits_congr (bits : List Bool) (s : State) (n : Nat) (w : Wires) :
    ∃ w', feedBits { s with nSample := n, wires := w } bits = { feedBits s bits with nSample := n, wires := w' } := by
  induction bits generalizing s w with
  | nil => exact ⟨w, rfl⟩
  | cons b bits ih =>
    obtain ⟨w', h⟩ := feedBit_congr s n w b
    simp only [feedBits, List.foldl_cons, h]
    exact ih (feedBit s b) w'

theorem feedBit_alpha_spb (s : State) (b : Bool) : (feedBit s b).alpha = s.alpha ∧ (feedBit s b).spb = s.spb := by
  rw [feedBit_registers]
  exact ⟨rfl, rfl⟩

theorem feedBits_alpha_spb (bits : List Bool) (s : State) :
    (feedBits s bits).alpha = s.alpha ∧ (feedBits s bits).spb = s.spb := by
  induction bits generalizing s with
  | nil => exact ⟨rfl, rfl⟩
  | cons b bits ih =>
    obtain ⟨ha, hs⟩ := ih (feedBit s b)
    obtain ⟨ha', hs'⟩ := feedBit_alpha_spb s b
    exact ⟨ha.trans ha', hs.trans hs'⟩

theorem Front.stream_alpha_spb {N : Type} (o : NumOps N) (mode : ZcMode) (dir : NudgeDir) (xs : List N) (f : Front N) :
    (Front.stream o mode dir f xs).1.alpha = f.alpha ∧ (Front.stream o mode dir f xs).1.spb = f.spb := by
  induction xs generalizing f with
  | nil => exact ⟨rfl, rfl⟩
  | cons x xs ih =>
    obtain ⟨ha, hs⟩ := ih (Front.sample o mode dir f x).1
    exact ⟨ha.trans (Front.sample_alpha ..), hs.trans (Front.sample_spb ..)⟩

theorem restAfterSample_nSample (s : State) (o : Option Bool) : (restAfterSample s o).nSample = s.nSample + 1 := by
  cases o <;> rfl

/-- What a sample sliced is fed first, and the sample counted. -/
theorem feedBits_restAfterSample (s : State) (o : Option Bool) (os : List (Option Bool)) :
    ∃ w, feedBits (restAfterSample s o) (os.filterMap id) =
      { feedBits s ((o :: os).filterMap id) with nSample := s.nSample + 1, wires := w } := by
  cases o with
  | none => exact feedBits_congr (os.filterMap id) s (s.nSample + 1) _
  | some b => exact feedBits_congr (os.filterMap id) (feedBit s b) (s.nSample + 1) (feedBit s b).wires

/-- One SAMPLE of the decoder and then the rest of the stream is the whole stream, outside the transients. -/
theorem streamDecode_cons {N : Type} (o : NumOps N) (f : Front N) (x : N) (xs : List N) (s : State) :
    let r := Front.sample o Config.zcMode Config.nudgeDir f x
    (streamDecode o r.1 xs (restAfterSample s r.2)).2.sameButWires (streamDecode o f (x :: xs) s).2 := by
  intro r
  let q := Front.stream o Config.zcMode Config.nudgeDir r.1 xs
  obtain ⟨w, h⟩ := feedBits_restAfterSample s r.2 q.2
  have hfirst : (streamDecode o r.1 xs (restAfterSample s r.2)).2 =
      { feedBits (restAfterSample s r.2) (q.2.filterMap id) with
        nSample := (restAfterSample s r.2).nSample + xs.length } := rfl
  have hwhole : (streamDecode o f (x :: xs) s).2 =
      { feedBits s ((r.2 :: q.2).filterMap id) with nSample := s.nSample + (xs.length + 1) } := rfl
  have hcount : s.nSample + (xs.length + 1) = s.nSample + 1 + xs.length := by omega
  rw [hfirst, hwhole, h, restAfterSample_nSample, hcount]
  rfl

/-- A run of SAMPLEs keeps a state of the machine in agreement with the decoder over F64. -/
theorem execAll_processOps_agrees (xs : List F64) (d : Decoder F64) (s t : State) (h : d.Agrees s)
    (ht : execAll (processOps xs) s = .next t) :
    Decoder.Agrees ⟨(streamDecode f64Ops d.num xs d.rest).1, (streamDecode f64Ops d.num xs d.rest).2⟩ t := by
  induction xs generalizing d s with
  | nil =>
    cases ht
    exact h
  | cons x xs ih =>
    obtain ⟨u, hu, hrest⟩ := (andThen_eq_next_iff _ _ _).mp ht
    obtain ⟨e, he, hagree⟩ := (everyHostOperationIsThatOfTheDecoderOverF64 (.sample x) d s h).1 u hu
    obtain ⟨-, -, -, -, rfl⟩ := (sampleIn_eq_next_iff _ _ _ _).mp he
    exact agrees_congr (streamDecode_cons f64Ops d.num x xs d.rest) (ih _ u hagree hrest)

/-- Settles O53, by induction on the stream from a state and its own registers, which agree. -/
theorem theMachineIsTheDecoderOverF64 : Obligations.TheMachineIsTheDecoderOverF64 := by
  unfold Obligations.TheMachineIsTheDecoderOverF64
  intro xs s t ht
  obtain ⟨hnum, hrest⟩ := execAll_processOps_agrees xs ⟨s.front, s⟩ s t (Decoder.agrees_self s) ht
  obtain ⟨halpha, hspb⟩ := Front.stream_alpha_spb f64Ops Config.zcMode Config.nudgeDir xs s.front
  obtain ⟨halpha', hspb'⟩ := feedBits_alpha_spb
    ((Front.stream f64Ops Config.zcMode Config.nudgeDir s.front xs).2.filterMap id) s
  have ha : t.alpha = (streamDecode f64Ops s.front xs s).2.alpha :=
    (congrArg Front.alpha hnum).symm.trans (halpha.trans halpha'.symm)
  have hs : t.spb = (streamDecode f64Ops s.front xs s).2.spb :=
    (congrArg Front.spb hnum).symm.trans (hspb.trans hspb'.symm)
  refine ⟨hnum.symm, t.wires, ?_⟩
  rw [ha, hs] at hrest
  exact hrest.symm

end Sys2Proof.Machine
end

section
/-! PROOFS. F64 rounds to nearest, ties to even (R9). The magnitude of a pattern is first extended past the largest
finite pattern, as if the exponent were unbounded; there rounding has no overflow, and overflow is a comparison with the
pattern of the infinity. -/

namespace Sys2Proof

/-! Patterns and magnitudes -/

/-- The magnitude of a pattern without its sign, in units of 2^-1074, the exponent unbounded. -/
def magOfBits (n : Nat) : Nat := (n - (n / 2 ^ 52 - 1) * 2 ^ 52) * 2 ^ (n / 2 ^ 52 - 1)

/-- A pattern is `e` binades above a significand below 2^53, and above the lowest binade the significand is normal. -/
theorem exists_binade (n : Nat) : ∃ e m, n = e * 2 ^ 52 + m ∧ m < 2 ^ 53 ∧ (e = 0 ∨ 2 ^ 52 ≤ m) :=
  ⟨n / 2 ^ 52 - 1, n - (n / 2 ^ 52 - 1) * 2 ^ 52, by omega, by omega, by omega⟩

/-- The magnitude of a significand in its binade; a significand of 2^53 is the first one of the next binade. -/
theorem magOfBits_binade (e m : Nat) (hm : m ≤ 2 ^ 53) (he : e = 0 ∨ 2 ^ 52 ≤ m) :
    magOfBits (e * 2 ^ 52 + m) = m * 2 ^ e := by
  unfold magOfBits
  rcases hm.lt_or_eq with hlt | rfl
  · have hq : (e * 2 ^ 52 + m) / 2 ^ 52 - 1 = e := by omega
    rw [hq, Nat.add_sub_cancel_left]
  · have hq : (e * 2 ^ 52 + 2 ^ 53) / 2 ^ 52 - 1 = e + 1 := by omega
    rw [hq, show e * 2 ^ 52 + 2 ^ 53 - (e + 1) * 2 ^ 52 = 2 ^ 52 by omega]
    ring

theorem magOfBits_strictMono : StrictMono magOfBits := by
  refine strictMono_nat_of_lt_succ fun n => ?_
  obtain ⟨e, m, rfl, hm, he⟩ := exists_binade n
  rw [magOfBits_binade e m hm.le he, Nat.add_assoc, magOfBits_binade e (m + 1) hm (by omega)]
  exact Nat.mul_lt_mul_of_pos_right m.lt_succ_self (by positivity)

theorem F64.mag_eq_magOfBits (a : F64) : a.mag = magOfBits (a.bits.toNat % 2 ^ 63) := by
  have hexpo : a.expo = a.bits.toNat % 2 ^ 63 / 2 ^ 52 := by unfold F64.expo; omega
  have hfrac : a.frac = a.bits.toNat % 2 ^ 63 % 2 ^ 52 := by unfold F64.frac; omega
  unfold F64.mag magOfBits
  rw [hexpo, hfrac]
  generalize a.bits.toNat % 2 ^ 63 = n
  split
  · next h => rw [h, Nat.zero_sub, Nat.zero_mul, pow_zero, Nat.mul_one, Nat.sub_zero, Nat.mod_eq_of_lt (by omega)]
  · next h => rw [show 2 ^ 52 + n % 2 ^ 52 = n - (n / 2 ^ 52 - 1) * 2 ^ 52 by omega]

theorem F64.isFinite_iff (a : F64) : a.isFinite = true ↔ a.bits.toNat % 2 ^ 63 < F64.infBits := by
  unfold F64.isFinite F64.expo F64.infBits
  rw [bne_iff_ne]
  omega

theorem F64.sign_iff (a : F64) : a.sign = true ↔ 2 ^ 63 ≤ a.bits.toNat := by
  have h := a.bits.isLt
  unfold F64.sign
  rw [Nat.testBit_eq_decide_div_mod_eq, decide_eq_true_iff]
  omega

/-- The fields of a packed pattern. -/
theorem F64.pack_toNat (neg : Bool) (n : Nat) (hn : n < 2 ^ 63) :
    (F64.pack neg n).bits.toNat = if neg then 2 ^ 63 + n else n := by
  unfold F64.pack
  rw [BitVec.toNat_ofNat]
  split <;> omega

theorem F64.pack_toNat_mod (neg : Bool) (n : Nat) (hn : n < 2 ^ 63) : (F64.pack neg n).bits.toNat % 2 ^ 63 = n := by
  rw [F64.pack_toNat neg n hn]
  split <;> omega

theorem F64.pack_sign (neg : Bool) (n : Nat) (hn : n < 2 ^ 63) : (F64.pack neg n).sign = neg := by
  rw [Bool.eq_iff_iff, F64.sign_iff, F64.pack_toNat neg n hn]
  cases neg
  · simp only [Bool.false_eq_true, if_false, iff_false]; omega
  · simp

theorem F64.pack_even (neg : Bool) (n : Nat) (hn : n < 2 ^ 63) :
    (F64.pack neg n).bits.getLsbD 0 = false ↔ n % 2 = 0 := by
  rw [BitVec.getLsbD, F64.pack_toNat neg n hn, Nat.testBit_zero, decide_eq_false_iff_not]
  split <;> omega

/-! Comparisons -/

/-- The magnitude, continued to an odd function of the whole numbers. -/
def signedMag (k : Int) : Int := k.sign * magOfBits k.natAbs

theorem magOfBits_zero : magOfBits 0 = 0 := rfl

theorem magOfBits_pos {n : Nat} (h : 0 < n) : 0 < magOfBits n := magOfBits_strictMono h

theorem signedMag_ofNat (n : Nat) : signedMag n = magOfBits n := by
  rcases n.eq_zero_or_pos with rfl | h
  · rfl
  · rw [signedMag, Int.natAbs_natCast, Int.sign_eq_one_of_pos (by omega), one_mul]

theorem signedMag_neg (k : Int) : signedMag (-k) = -signedMag k := by
  rw [signedMag, signedMag, Int.sign_neg, Int.natAbs_neg, neg_mul]

theorem signedMag_strictMono : StrictMono signedMag := by
  have hnonneg : ∀ m n : Nat, m < n → signedMag m < signedMag n := fun m n h => by
    rw [signedMag_ofNat, signedMag_ofNat]
    exact_mod_cast magOfBits_strictMono h
  intro i j hij
  obtain ⟨m, rfl | rfl⟩ := i.eq_nat_or_neg <;> obtain ⟨n, rfl | rfl⟩ := j.eq_nat_or_neg
  · exact hnonneg m n (by omega)
  · omega
  · have hm : 0 ≤ signedMag m := by rw [signedMag_ofNat]; exact Int.natCast_nonneg _
    have hn : 0 ≤ signedMag n := by rw [signedMag_ofNat]; exact Int.natCast_nonneg _
    rw [signedMag_neg]
    rcases m.eq_zero_or_pos with rfl | hpos
    · exact (neg_nonpos.mpr hm).trans_lt (hm.trans_lt (hnonneg 0 n (by omega)))
    · have := hnonneg 0 m hpos
      have h0 : signedMag (0 : Nat) = 0 := rfl
      omega
  · rw [signedMag_neg, signedMag_neg]
    exact neg_lt_neg (hnonneg n m (by omega))

theorem F64.units_eq_signedMag (a : F64) : a.units = signedMag a.orderKey := by
  unfold F64.units F64.orderKey
  rw [F64.mag_eq_magOfBits]
  split
  · rw [signedMag_neg, signedMag_ofNat]
  · rw [signedMag_ofNat]

theorem F64.toRat_lt_iff (a b : F64) : a.toRat < b.toRat ↔ a.orderKey < b.orderKey := by
  rw [F64.toRat, F64.toRat, div_lt_div_iff_of_pos_right (by positivity), Int.cast_lt, F64.units_eq_signedMag,
    F64.units_eq_signedMag, signedMag_strictMono.lt_iff_lt]

theorem F64.toRat_le_iff (a b : F64) : a.toRat ≤ b.toRat ↔ a.orderKey ≤ b.orderKey := by
  rw [← not_lt, F64.toRat_lt_iff, not_lt]

theorem F64.isNaN_of_isFinite {a : F64} (h : a.isFinite = true) : a.isNaN = false := by
  unfold F64.isFinite at h
  unfold F64.isNaN
  rw [bne_iff_ne] at h
  rw [beq_eq_false_iff_ne.mpr h, Bool.false_and]

theorem F64.lt_iff {a b : F64} (ha : a.isFinite = true) (hb : b.isFinite = true) :
    F64.lt a b = true ↔ a.toRat < b.toRat := by
  rw [F64.lt, F64.isNaN_of_isFinite ha, F64.isNaN_of_isFinite hb, F64.toRat_lt_iff]
  exact decide_eq_true_iff

theorem F64.le_iff {a b : F64} (ha : a.isFinite = true) (hb : b.isFinite = true) :
    F64.le a b = true ↔ a.toRat ≤ b.toRat := by
  rw [F64.le, F64.isNaN_of_isFinite ha, F64.isNaN_of_isFinite hb, F64.toRat_le_iff]
  exact decide_eq_true_iff

/-! Rounding with an unbounded exponent -/

/-- Among the values `f` numbers, number `m` is a nearest one to `x`, and an even number where another is as near. -/
def NearestEven (f : Nat → Nat) (m : Nat) (x : ℚ) : Prop :=
  ∀ n, |(f m : ℚ) - x| ≤ |(f n : ℚ) - x| ∧ (|(f m : ℚ) - x| = |(f n : ℚ) - x| → n = m ∨ m % 2 = 0)

/-- A quotient as its whole part and the rest, which is compared with a half as `roundQuotient` does. -/
theorem exists_quotient_rest (num den : Nat) (hden : 0 < den) :
    ∃ t : ℚ, (num : ℚ) / den = (num / den : Nat) + t ∧ 0 ≤ t ∧ t < 1 ∧
      (2 * (num % den) < den ↔ t < 1 / 2) ∧ (den < 2 * (num % den) ↔ 1 / 2 < t) := by
  have hd : (0 : ℚ) < den := by exact_mod_cast hden
  have hmod : ((num % den : Nat) : ℚ) < den := by exact_mod_cast Nat.mod_lt num hden
  refine ⟨(num % den : Nat) / den, ?_, by positivity, (div_lt_one hd).mpr hmod, ?_, ?_⟩
  · rw [eq_comm, ← mul_div_cancel_right₀ ((num / den : Nat) : ℚ) hd.ne', ← add_div]
    congr 1
    exact_mod_cast Nat.div_add_mod' num den
  · rw [div_lt_div_iff₀ hd two_pos, ← Nat.cast_lt (α := ℚ)]
    push_cast
    constructor <;> intro h <;> linarith
  · rw [div_lt_div_iff₀ two_pos hd, ← Nat.cast_lt (α := ℚ)]
    push_cast
    constructor <;> intro h <;> linarith

theorem roundQuotient_nearestEven (num den : Nat) (hden : 0 < den) :
    NearestEven id (roundQuotient num den) (num / den) := by
  intro k
  obtain ⟨t, hx, ht0, ht1, hlow, hhigh⟩ := exists_quotient_rest num den hden
  unfold roundQuotient
  dsimp only [id]
  rw [hx]
  generalize num / den = q at *
  have hk : ((k : ℚ) ≤ q ∧ |(k : ℚ) - (q + t)| = q + t - k) ∨ ((q : ℚ) + 1 ≤ k ∧ |(k : ℚ) - (q + t)| = k - (q + t)) := by
    rcases Nat.lt_or_ge q k with h | h
    · have h' : (q : ℚ) + 1 ≤ k := by exact_mod_cast h
      exact .inr ⟨h', abs_of_nonneg (by linarith)⟩
    · have h' : (k : ℚ) ≤ q := by exact_mod_cast h
      exact .inl ⟨h', by rw [abs_sub_comm, abs_of_nonneg (by linarith)]⟩
  have hdown : |(q : ℚ) - (q + t)| = t := by rw [sub_add_cancel_left, abs_neg, abs_of_nonneg ht0]
  have hup : |((q + 1 : Nat) : ℚ) - (q + t)| = 1 - t := by
    rw [Nat.cast_succ, add_sub_add_left_eq_sub, abs_of_pos (by linarith)]
  split_ifs with hl hh
  · have ht := hlow.mp hl
    rw [hdown]
    rcases hk with ⟨hkq, hd⟩ | ⟨hkq, hd⟩ <;> rw [hd]
    · exact ⟨by linarith, fun h => .inl (by exact_mod_cast (by linarith : (k : ℚ) = q))⟩
    · exact ⟨by linarith, fun h => absurd h (by linarith)⟩
  · have ht := hhigh.mp hh
    rw [hup]
    rcases hk with ⟨hkq, hd⟩ | ⟨hkq, hd⟩ <;> rw [hd]
    · exact ⟨by linarith, fun h => absurd h (by linarith)⟩
    · exact ⟨by linarith, fun h => .inl (by exact_mod_cast (by linarith : (k : ℚ) = q + 1))⟩
  · have ht : t = 1 / 2 := le_antisymm (not_lt.mp (mt hhigh.mpr hh)) (not_lt.mp (mt hlow.mpr hl))
    have htie : |((q + q % 2 : Nat) : ℚ) - (q + t)| = 1 / 2 := by
      rcases Nat.mod_two_eq_zero_or_one q with hq | hq <;> rw [hq]
      · rw [Nat.add_zero, hdown, ht]
      · rw [hup, ht]; norm_num
    refine ⟨?_, fun _ => .inr (by omega)⟩
    rw [htie]
    rcases hk with ⟨hkq, hd⟩ | ⟨hkq, hd⟩ <;> linarith

/-- The pattern before it is cut off at the infinity. -/
def roundedBits (num den : Nat) : Nat :=
  (Nat.log2 (num / den) - 52) * 2 ^ 52 + roundQuotient num (den * 2 ^ (Nat.log2 (num / den) - 52))

theorem F64.roundBits_eq (num den : Nat) : F64.roundBits num den = min (roundedBits num den) F64.infBits := rfl

theorem roundQuotient_bounds (num den : Nat) :
    num / den ≤ roundQuotient num den ∧ roundQuotient num den ≤ num / den + 1 := by
  unfold roundQuotient
  dsimp only
  split_ifs <;> omega

/-- The shift of `roundBits` brings the quotient below 2^53, and to 2^52 at least where it is not 0. -/
theorem shifted_quotient_bounds (num den : Nat) :
    num / (den * 2 ^ (Nat.log2 (num / den) - 52)) < 2 ^ 53 ∧
      (Nat.log2 (num / den) - 52 = 0 ∨ 2 ^ 52 ≤ num / (den * 2 ^ (Nat.log2 (num / den) - 52))) := by
  rw [← Nat.div_div_eq_div_mul]
  generalize num / den = q
  have hlt : q < 2 ^ (Nat.log2 q + 1) := Nat.lt_log2_self
  constructor
  · rw [Nat.div_lt_iff_lt_mul (by positivity), ← pow_add]
    exact hlt.trans_le (Nat.pow_le_pow_right two_pos (by omega))
  · by_cases hs : Nat.log2 q - 52 = 0
    · exact .inl hs
    · have hq : q ≠ 0 := by rintro rfl; exact hs rfl
      refine .inr ?_
      rw [Nat.le_div_iff_mul_le (by positivity), ← pow_add, show 52 + (Nat.log2 q - 52) = Nat.log2 q by omega]
      exact Nat.log2_self_le hq

theorem abs_sub_lt_abs_sub {a b x : ℚ} (hab : a < b) (hb : b ≤ x) : |b - x| < |a - x| := by
  rw [abs_of_nonpos (by linarith), abs_of_neg (by linarith)]
  linarith

theorem roundedBits_nearestEven (num den : Nat) (hden : 0 < den) :
    NearestEven magOfBits (roundedBits num den) (num / den) := by
  intro n
  obtain ⟨hlt, hge⟩ := shifted_quotient_bounds num den
  unfold roundedBits
  generalize Nat.log2 (num / den) - 52 = s at *
  obtain ⟨hlow, hhigh⟩ := roundQuotient_bounds num (den * 2 ^ s)
  have hround := roundQuotient_nearestEven num (den * 2 ^ s) (by positivity)
  generalize roundQuotient num (den * 2 ^ s) = m at *
  have hmag : magOfBits (s * 2 ^ 52 + m) = m * 2 ^ s := magOfBits_binade s m (by omega) (by omega)
  have hscale : (num : ℚ) / den = num / (den * 2 ^ s : Nat) * 2 ^ s := by
    push_cast
    field_simp
  have hdist : ∀ k : Nat, |((k * 2 ^ s : Nat) : ℚ) - num / den| = |(k : ℚ) - num / (den * 2 ^ s : Nat)| * 2 ^ s :=
    fun k => by rw [hscale, Nat.cast_mul, Nat.cast_pow, Nat.cast_ofNat, ← sub_mul, abs_mul,
      abs_of_pos (by positivity : (0 : ℚ) < 2 ^ s)]
  obtain ⟨e, k, rfl, hk, he⟩ := exists_binade n
  rw [hmag, magOfBits_binade e k hk.le he]
  rcases Nat.lt_or_ge e s with hes | hes
  · -- A pattern of a lower binade lies below the whole binade of the quotient.
    have hfloor : 2 ^ 52 * (den * 2 ^ s) ≤ num := (Nat.le_div_iff_mul_le (by positivity)).mp (hge.resolve_left (by omega))
    have hx : ((2 ^ 52 * 2 ^ s : Nat) : ℚ) ≤ num / den := by
      rw [le_div_iff₀ (by exact_mod_cast hden)]
      exact_mod_cast (by linarith : 2 ^ 52 * 2 ^ s * den ≤ num)
    have hbelow : k * 2 ^ e < 2 ^ 52 * 2 ^ s := by
      calc k * 2 ^ e < 2 ^ 53 * 2 ^ e := Nat.mul_lt_mul_of_pos_right hk (by positivity)
        _ = 2 ^ 52 * 2 ^ (e + 1) := by ring
        _ ≤ 2 ^ 52 * 2 ^ s := Nat.mul_le_mul_left _ (Nat.pow_le_pow_right two_pos hes)
    have hbelow' : ((k * 2 ^ e : Nat) : ℚ) < (2 ^ 52 * 2 ^ s : Nat) := by exact_mod_cast hbelow
    have hfirst : |((m * 2 ^ s : Nat) : ℚ) - num / den| ≤ |((2 ^ 52 * 2 ^ s : Nat) : ℚ) - num / den| := by
      rw [hdist, hdist]
      exact mul_le_mul_of_nonneg_right (hround (2 ^ 52)).1 (by positivity)
    have hlt := hfirst.trans_lt (abs_sub_lt_abs_sub hbelow' hx)
    exact ⟨hlt.le, fun h => absurd h hlt.ne⟩
  · -- A pattern of the same binade or a higher one is a multiple of the unit of rounding.
    obtain ⟨hle, htie⟩ := hround (k * 2 ^ (e - s))
    have hmul : k * 2 ^ e = k * 2 ^ (e - s) * 2 ^ s := by rw [Nat.mul_assoc, ← pow_add, Nat.sub_add_cancel hes]
    rw [hmul, hdist, hdist]
    refine ⟨mul_le_mul_of_nonneg_right hle (by positivity), fun h => ?_⟩
    rcases htie (mul_right_cancel₀ (by positivity) h) with hkm | hm
    · refine .inl (magOfBits_strictMono.injective ?_)
      rw [hmag, magOfBits_binade e k hk.le he, hmul, hkm]
    · exact .inr (by omega)

/-! Overflow -/

/-- Half the unit of the last finite binade, in units of 2^-1074. -/
@[irreducible] def halfTopUnit : Nat := 2 ^ 2044

theorem halfTopUnit_eq : halfTopUnit = 2 ^ 2044 := by unfold halfTopUnit; exact Eq.refl _

theorem magOfBits_infBits : magOfBits F64.infBits = 2 ^ 54 * halfTopUnit := by
  rw [show F64.infBits = 2046 * 2 ^ 52 + 2 ^ 52 from rfl, magOfBits_binade _ _ (by norm_num) (.inr le_rfl),
    show (2046 : Nat) = 2 + 2044 from rfl, pow_add, ← halfTopUnit_eq, ← Nat.mul_assoc]
  norm_num

theorem magOfBits_largest : magOfBits (F64.infBits - 1) = (2 ^ 54 - 2) * halfTopUnit := by
  rw [show F64.infBits - 1 = 2045 * 2 ^ 52 + (2 ^ 53 - 1) from rfl, magOfBits_binade _ _ (by norm_num) (by norm_num),
    show (2045 : Nat) = 1 + 2044 from rfl, pow_add, ← halfTopUnit_eq, ← Nat.mul_assoc]
  norm_num

/-- Rounding with an unbounded exponent stays below the infinity exactly below the middle between the largest finite
value and the infinity: at the middle the tie goes to the even pattern, which is the infinity's. -/
theorem lt_infBits_iff_of_nearestEven {m : Nat} {x : ℚ} (h : NearestEven magOfBits m x) :
    m < F64.infBits ↔ x < (2 ^ 54 - 1) * halfTopUnit := by
  have hu : (0 : ℚ) < halfTopUnit := by exact_mod_cast (by rw [halfTopUnit_eq]; positivity : 0 < halfTopUnit)
  have hmono : ∀ {i j : Nat}, i ≤ j → (magOfBits i : ℚ) ≤ magOfBits j := fun hij => by
    exact_mod_cast magOfBits_strictMono.monotone hij
  have hinf : (magOfBits F64.infBits : ℚ) = 2 ^ 54 * halfTopUnit := by exact_mod_cast magOfBits_infBits
  have hmax : (magOfBits (F64.infBits - 1) : ℚ) = (2 ^ 54 - 2) * halfTopUnit := by
    rw [magOfBits_largest]
    norm_num
  constructor
  · intro hm
    by_contra hx
    rw [not_lt] at hx
    have hle := hmono (Nat.le_sub_one_of_lt hm)
    obtain ⟨hnear, htie⟩ := h F64.infBits
    rw [abs_of_neg (by linarith : (magOfBits m : ℚ) - x < 0)] at hnear htie
    have hfar : |(magOfBits F64.infBits : ℚ) - x| ≤ x - magOfBits (F64.infBits - 1) :=
      abs_le.mpr ⟨by linarith, by linarith⟩
    have hmag : (magOfBits m : ℚ) = magOfBits (F64.infBits - 1) := le_antisymm hle (by linarith)
    have hlast : m = F64.infBits - 1 := magOfBits_strictMono.injective (by exact_mod_cast hmag)
    rcases htie (le_antisymm hnear (by linarith)) with heq | heven
    · omega
    · rw [hlast] at heven
      exact absurd heven (by decide)
  · intro hx
    by_contra hm
    rw [not_lt] at hm
    have hle := hmono hm
    have hnear := (h (F64.infBits - 1)).1
    rw [abs_of_pos (by linarith : 0 < (magOfBits m : ℚ) - x)] at hnear
    have hlt : |(magOfBits (F64.infBits - 1) : ℚ) - x| < magOfBits m - x := abs_lt.mpr ⟨by linarith, by linarith⟩
    exact absurd hnear (not_le.mpr hlt)

/-! One rounded operation -/

/-- `r` is `q` rounded once to nearest, ties to even: finite exactly below the value from which rounding overflows, and
then no finite value is nearer, and it is even where another is as near (R9). -/
def F64.RoundsTo (r : F64) (q : ℚ) : Prop :=
  (r.isFinite = true ↔ |q| < 2 ^ 1024 - 2 ^ 970) ∧
  (r.isFinite = true → ∀ c : F64, c.isFinite = true →
    |r.toRat - q| ≤ |c.toRat - q| ∧
    (|r.toRat - q| = |c.toRat - q| → c.toRat = r.toRat ∨ r.bits.getLsbD 0 = false))

/-- A magnitude in units of 2^-1074 under a sign, as a number. -/
def signedUnits (neg : Bool) (x : ℚ) : ℚ := (if neg then -x else x) / 2 ^ 1074

theorem F64.toRat_eq_signedUnits (a : F64) : a.toRat = signedUnits a.sign (magOfBits (a.bits.toNat % 2 ^ 63)) := by
  unfold F64.toRat F64.units signedUnits
  rw [F64.mag_eq_magOfBits]
  cases a.sign <;> simp

theorem abs_div_units (x : ℚ) : |x / 2 ^ 1074| = |x| / 2 ^ 1074 := by
  rw [abs_div, abs_of_pos (by positivity : (0 : ℚ) < 2 ^ 1074)]

theorem abs_signedUnits (neg : Bool) (x : ℚ) : |signedUnits neg x| = |x| / 2 ^ 1074 := by
  rw [signedUnits, abs_div_units]
  cases neg
  · rfl
  · rw [if_pos rfl, abs_neg]

theorem abs_signedUnits_sub_same (neg : Bool) (x y : ℚ) :
    |signedUnits neg x - signedUnits neg y| = |x - y| / 2 ^ 1074 := by
  rw [signedUnits, signedUnits, ← sub_div, abs_div_units]
  cases neg
  · rfl
  · rw [if_pos rfl, if_pos rfl, neg_sub_neg, abs_sub_comm]

theorem abs_signedUnits_sub_opposite (neg : Bool) {x y : ℚ} (hx : 0 ≤ x) (hy : 0 ≤ y) :
    |signedUnits (!neg) x - signedUnits neg y| = (x + y) / 2 ^ 1074 := by
  rw [signedUnits, signedUnits, ← sub_div, abs_div_units]
  congr 1
  cases neg
  · rw [Bool.not_false, if_pos rfl, if_neg Bool.false_ne_true, abs_of_nonpos (by linarith)]; ring
  · rw [Bool.not_true, if_pos rfl, if_neg Bool.false_ne_true, sub_neg_eq_add, abs_of_nonneg (by linarith)]

/-- Where the overflow threshold of a magnitude in units stands as a number. -/
theorem lt_overflow_iff (x : ℚ) : x < (2 ^ 54 - 1) * halfTopUnit ↔ x / 2 ^ 1074 < 2 ^ 1024 - 2 ^ 970 := by
  have hval : ((2 : ℚ) ^ 1024 - 2 ^ 970) * 2 ^ 1074 = (2 ^ 54 - 1) * halfTopUnit := by
    rw [halfTopUnit_eq, Nat.cast_pow, Nat.cast_ofNat, show (2044 : Nat) = 970 + 1074 from rfl,
      show (1024 : Nat) = 54 + 970 from rfl, pow_add, pow_add, ← sub_one_mul, mul_assoc]
  rw [div_lt_iff₀ (by positivity), hval]

/-- A magnitude rounded under a sign is the signed value rounded, the overflow included. -/
theorem F64.pack_roundBits_roundsTo (neg : Bool) (num den : Nat) (hden : 0 < den) :
    (F64.pack neg (F64.roundBits num den)).RoundsTo (signedUnits neg (num / den)) := by
  have hnear := roundedBits_nearestEven num den hden
  rw [F64.roundBits_eq]
  generalize roundedBits num den = m at hnear
  have hx : (0 : ℚ) ≤ num / den := by positivity
  generalize (num : ℚ) / den = x at hnear hx
  have hsmall : min m F64.infBits < 2 ^ 63 := lt_of_le_of_lt (min_le_right _ _) (by decide)
  have hfinite : (F64.pack neg (min m F64.infBits)).isFinite = true ↔ m < F64.infBits := by
    rw [F64.isFinite_iff, F64.pack_toNat_mod _ _ hsmall]
    omega
  refine ⟨?_, fun hr c _ => ?_⟩
  · rw [hfinite, lt_infBits_iff_of_nearestEven hnear, lt_overflow_iff, abs_signedUnits, abs_of_nonneg hx]
  · have hm : min m F64.infBits = m := min_eq_left (hfinite.mp hr).le
    rw [hm] at hsmall ⊢
    rw [F64.toRat_eq_signedUnits, F64.toRat_eq_signedUnits c, F64.pack_sign _ _ hsmall, F64.pack_toNat_mod _ _ hsmall,
      F64.pack_even _ _ hsmall, abs_signedUnits_sub_same]
    obtain ⟨hle, htie⟩ := hnear (c.bits.toNat % 2 ^ 63)
    generalize c.bits.toNat % 2 ^ 63 = n at hle htie
    by_cases hsign : c.sign = neg
    · rw [hsign, abs_signedUnits_sub_same, div_le_div_iff_of_pos_right (by positivity),
        div_left_inj' (by positivity)]
      exact ⟨hle, fun h => (htie h).imp_left fun hn => by rw [hn]⟩
    · rw [Bool.eq_not_of_ne hsign, abs_signedUnits_sub_opposite neg (Nat.cast_nonneg _) hx,
        div_le_div_iff_of_pos_right (by positivity), div_left_inj' (by positivity)]
      have hn : (0 : ℚ) ≤ magOfBits n := Nat.cast_nonneg _
      have hfar : |(magOfBits n : ℚ) - x| ≤ magOfBits n + x := abs_le.mpr ⟨by linarith, by linarith⟩
      refine ⟨hle.trans hfar, fun h => ?_⟩
      rcases htie (le_antisymm hle (h ▸ hfar)) with rfl | heven
      · have hzero := (hnear 0).1
        rw [h, magOfBits_zero, Nat.cast_zero, zero_sub, abs_neg, abs_of_nonneg hx] at hzero
        have hmag : (magOfBits n : ℚ) ≤ 0 := by linarith
        have hn0 : n = 0 := Nat.eq_zero_of_not_pos fun hpos =>
          (Nat.cast_pos.mpr (magOfBits_pos hpos)).not_ge hmag
        exact .inr (by rw [hn0])
      · exact .inr heven

/-- What `ofUnits` answers is the exact quotient rounded once. -/
theorem F64.ofUnits_roundsTo (num : Int) (den : Nat) (zeroNeg : Bool) (hden : 0 < den) :
    (F64.ofUnits num den zeroNeg).RoundsTo ((num / den : ℚ) / 2 ^ 1074) := by
  unfold F64.ofUnits
  split
  · next h =>
    have hzero := F64.pack_roundBits_roundsTo zeroNeg 0 den hden
    have hbits : F64.roundBits 0 den = 0 := by simp [F64.roundBits, roundQuotient, hden]
    rw [hbits] at hzero
    subst h
    simpa [signedUnits] using hzero
  · have hround := F64.pack_roundBits_roundsTo (decide (num < 0)) num.natAbs den hden
    have hq : signedUnits (decide (num < 0)) (num.natAbs / den) = (num / den : ℚ) / 2 ^ 1074 := by
      unfold signedUnits
      rw [Nat.cast_natAbs]
      by_cases hneg : num < 0
      · rw [decide_eq_true hneg, if_pos rfl, abs_of_neg hneg, Int.cast_neg, neg_div, neg_div, neg_div, neg_neg]
      · rw [decide_eq_false hneg, if_neg Bool.false_ne_true, abs_of_nonneg (not_lt.mp hneg)]
    rwa [hq] at hround

/-! The operators -/

theorem F64.neg_toNat_mod (a : F64) : (F64.neg a).bits.toNat % 2 ^ 63 = a.bits.toNat % 2 ^ 63 := by
  rw [F64.neg, BitVec.toNat_xor, Nat.xor_mod_two_pow]
  exact Nat.xor_zero _

theorem F64.neg_sign (a : F64) : (F64.neg a).sign = !a.sign := by
  rw [F64.sign, F64.neg, BitVec.toNat_xor, Nat.testBit_xor]
  exact Bool.xor_true _

theorem F64.neg_isFinite {a : F64} (h : a.isFinite = true) : (F64.neg a).isFinite = true := by
  rwa [F64.isFinite_iff, F64.neg_toNat_mod, ← F64.isFinite_iff]

theorem F64.neg_toRat (a : F64) : (F64.neg a).toRat = -a.toRat := by
  rw [F64.toRat_eq_signedUnits, F64.toRat_eq_signedUnits a, F64.neg_toNat_mod, F64.neg_sign, signedUnits, signedUnits,
    ← neg_div]
  cases a.sign <;> simp

theorem F64.add_roundsTo {a b : F64} (ha : a.isFinite = true) (hb : b.isFinite = true) :
    (F64.add a b).RoundsTo (a.toRat + b.toRat) := by
  have h := F64.ofUnits_roundsTo (a.units + b.units) 1 (a.sign && b.sign) one_pos
  have hq : (((a.units + b.units : Int) : ℚ) / (1 : Nat)) / 2 ^ 1074 = a.toRat + b.toRat := by
    rw [F64.toRat, F64.toRat, Int.cast_add, Nat.cast_one, div_one, add_div]
  rw [hq] at h
  rwa [F64.add, ha, hb]

theorem F64.sub_roundsTo {a b : F64} (ha : a.isFinite = true) (hb : b.isFinite = true) :
    (F64.sub a b).RoundsTo (a.toRat - b.toRat) := by
  have h := F64.add_roundsTo ha (F64.neg_isFinite hb)
  rwa [F64.neg_toRat, ← sub_eq_add_neg] at h

theorem F64.mul_roundsTo {a b : F64} (ha : a.isFinite = true) (hb : b.isFinite = true) :
    (F64.mul a b).RoundsTo (a.toRat * b.toRat) := by
  have h := F64.ofUnits_roundsTo (a.units * b.units) (2 ^ 1074) (a.sign ^^ b.sign) (by positivity)
  have hq : (((a.units * b.units : Int) : ℚ) / (2 ^ 1074 : Nat)) / 2 ^ 1074 = a.toRat * b.toRat := by
    rw [F64.toRat, F64.toRat, Int.cast_mul, Nat.cast_pow, Nat.cast_ofNat, div_mul_div_comm, div_div]
  rw [hq] at h
  rwa [F64.mul, ha, hb]

/-- The numerator of a quotient over the magnitude of the divisor. -/
def F64.quotientNum (a b : F64) : Int :=
  if a.sign ^^ b.sign then -((a.mag * 2 ^ 1074 : Nat) : Int) else ((a.mag * 2 ^ 1074 : Nat) : Int)

theorem F64.div_eq_ofUnits {a b : F64} (ha : a.isFinite = true) (hb : b.isFinite = true) (hmag : b.mag ≠ 0) :
    F64.div a b = F64.ofUnits (F64.quotientNum a b) b.mag (a.sign ^^ b.sign) := by
  simp only [F64.div, F64.quotientNum, F64.isNaN_of_isFinite ha, F64.isNaN_of_isFinite hb, ha, hb, hmag, Bool.or_false,
    Bool.and_true, Bool.false_eq_true, if_false, if_true]

theorem F64.quotientNum_div (a b : F64) : (F64.quotientNum a b / b.mag : ℚ) / 2 ^ 1074 = a.toRat / b.toRat := by
  have hcancel : ((a.mag * 2 ^ 1074 : Nat) : ℚ) / b.mag / 2 ^ 1074 = a.mag / b.mag := by
    rw [Nat.cast_mul, Nat.cast_pow, Nat.cast_ofNat, div_right_comm, mul_div_cancel_right₀ _ (by positivity)]
  rw [F64.toRat, F64.toRat, div_div_div_cancel_right₀ (by positivity), F64.quotientNum, F64.units, F64.units]
  generalize a.mag * 2 ^ 1074 = n at hcancel ⊢
  cases a.sign <;> cases b.sign <;>
    simp only [Bool.xor_false, Bool.xor_true, Bool.not_false, Bool.not_true, Bool.false_eq_true, if_true, if_false,
      Int.cast_neg, Int.cast_natCast, neg_div, div_neg, neg_neg, hcancel]

theorem F64.div_roundsTo {a b : F64} (ha : a.isFinite = true) (hb : b.isFinite = true) (h0 : b.toRat ≠ 0) :
    (F64.div a b).RoundsTo (a.toRat / b.toRat) := by
  have hmag : b.mag ≠ 0 := fun h => h0 (by simp [F64.toRat, F64.units, h])
  rw [F64.div_eq_ofUnits ha hb hmag, ← F64.quotientNum_div]
  exact F64.ofUnits_roundsTo _ _ _ (Nat.pos_of_ne_zero hmag)

/-- Settles O47: each operator is its exact result rounded once, and the order is that of the values. -/
theorem f64OperationsRoundToNearestEven : Obligations.F64OperationsRoundToNearestEven := by
  unfold Obligations.F64OperationsRoundToNearestEven
  refine ⟨fun a b r q ha hb h => ?_, fun a b ha hb => ⟨F64.lt_iff ha hb, F64.le_iff ha hb⟩⟩
  show r.RoundsTo q
  rcases h with ⟨rfl, rfl⟩ | ⟨rfl, rfl⟩ | ⟨rfl, rfl⟩ | ⟨rfl, h0, rfl⟩
  · exact F64.add_roundsTo ha hb
  · exact F64.sub_roundsTo ha hb
  · exact F64.mul_roundsTo ha hb
  · exact F64.div_roundsTo ha hb h0

end Sys2Proof
end

section
/-! SUPPORT. SAMPLE as one function of the registers: when it completes, and what it leaves outside the transients
(R33, R95, R173). -/

namespace Sys2Proof.Machine

theorem State.sameButWires_symm {s t : State} (h : s.sameButWires t) : t.sameButWires s := by
  obtain ⟨w, rfl⟩ := (State.sameButWires_iff s t).mp h
  rfl

/-- The registers after the numeric part of a SAMPLE, the sample counted (R34, R95). -/
def State.withNumeric (s : State) (f : Front F64) : State :=
  { s with
    lpfY := f.lpfY, prevY := f.prevY, bitPhase := f.bitPhase, bitAcc := f.bitAcc, nSample := s.nSample + 1 }

/-- The registers after a SAMPLE: those of its numeric part, and at a boundary those the sliced bit leads to (R173). -/
def State.sampled (s : State) (x : F64) : State :=
  let r := Front.sample f64Ops Config.zcMode Config.nudgeDir s.front x
  match r.2 with
  | none => s.withNumeric r.1
  | some b => { (s.withNumeric r.1).boundary b with nBit := s.nBit + 1 }

theorem State.sampled_of_none {s : State} {x : F64} {f : Front F64}
    (h : Front.sample f64Ops Config.zcMode Config.nudgeDir s.front x = (f, none)) :
    s.sampled x = s.withNumeric f := by
  simp only [State.sampled, h]

theorem State.sampled_of_some {s : State} {x : F64} {f : Front F64} {b : Bool}
    (h : Front.sample f64Ops Config.zcMode Config.nudgeDir s.front x = (f, some b)) :
    s.sampled x = { (s.withNumeric f).boundary b with nBit := s.nBit + 1 } := by
  simp only [State.sampled, h]

theorem State.sampled_inbox (s : State) (x : F64) : (s.sampled x).inbox = s.inbox := by
  unfold State.sampled
  dsimp only
  split <;> rfl

/-- The numeric part of a SAMPLE latches the filtered value (R83). -/
theorem Front.sample_prevY {N : Type} (o : NumOps N) (mode : ZcMode) (dir : NudgeDir) (f : Front N) (x : N) :
    (Front.sample o mode dir f x).1.prevY = (Front.sample o mode dir f x).1.lpfY := by
  unfold Front.sample
  dsimp only
  split <;> rfl

/-- A sample inside the envelope is finite. -/
theorem isFinite_of_sampleInEnvelope {s : State} {x : F64} (h : s.sampleInEnvelope x = true) : x.isFinite = true :=
  ((inEnvelope_iff _ _ _ _ _).mp h).1

/-- A SAMPLE completes exactly on a READY state that is not busy, for a sample inside the envelope. -/
theorem execSample_eq_next_iff_inEnvelope (x : F64) (s t : State) :
    execSample x s = .next t ↔
      s.busy = false ∧ s.life = .ready ∧ s.sampleInEnvelope x = true ∧
        t = sampleTail (State.afterFront { s with wires := { s.wires with x := x } }) := by
  have hfront (u : State) (hx : x.isFinite = true) :=
    sampleFront_eq_next_iff_inEnvelope { s with wires := { s.wires with x := x } } u hx
  rw [execSample_eq_next_iff]
  refine and_congr_right fun _ => and_congr_right fun _ => ⟨?_, ?_⟩
  · rintro ⟨hx, u, hu, rfl⟩
    obtain ⟨henv, rfl⟩ := (hfront u hx).mp hu
    exact ⟨henv, rfl⟩
  · rintro ⟨henv, rfl⟩
    have hx := isFinite_of_sampleInEnvelope henv
    exact ⟨hx, _, (hfront _ hx).mpr ⟨henv, rfl⟩, rfl⟩

/-- The end of a SAMPLE off a boundary, with the transients it leaves (R173). -/
theorem sampleTail_afterFront_of_none {s : State} {x : F64} {f : Front F64}
    (h : Front.sample f64Ops Config.zcMode Config.nudgeDir s.front x = (f, none)) :
    sampleTail (State.afterFront { s with wires := { s.wires with x := x } }) =
      { s.withNumeric f with wires := { s.wires with
        x := x, y := f.lpfY, zc := flagZc s.prevY f.lpfY, bnd := false, emitted := false } } := by
  have h' : Front.sample f64Ops Config.zcMode Config.nudgeDir
      ({ s with wires := { s.wires with x := x } } : State).front x = (f, none) := h
  rw [State.afterFront, h']
  rfl

/-- The end of a SAMPLE after its numeric part, outside the transients. -/
theorem sampleTail_afterFront_registers (s : State) (x : F64) :
    (s.sampled x).sameButWires (sampleTail (State.afterFront { s with wires := { s.wires with x := x } })) := by
  rcases hr : Front.sample f64Ops Config.zcMode Config.nudgeDir s.front x with ⟨f, o⟩
  cases o with
  | none =>
    rw [State.sampled_of_none hr, sampleTail_afterFront_of_none hr]
    rfl
  | some b =>
    have hr' : Front.sample f64Ops Config.zcMode Config.nudgeDir
        ({ s with wires := { s.wires with x := x } } : State).front x = (f, some b) := hr
    rw [State.afterFront, hr']
    let w : Wires := { s.wires with
      x := x, y := f.lpfY, zc := flagZc s.prevY f.lpfY, bnd := true, bit := b }
    let u : State := { s.withNumeric f with nSample := s.nSample, wires := w }
    obtain ⟨v, hv⟩ := (State.sameButWires_iff _ _).mp (sampleBoundary_registers u)
    have hu : u.boundary b = { (s.withNumeric f).boundary b with nSample := s.nSample, wires := w } :=
      State.boundary_nSample _ _ _ _
    have htail : sampleTail u = { sampleBoundary u with nSample := s.nSample + 1, nBit := s.nBit + 1 } := rfl
    rw [State.sampled_of_some hr]
    show State.sameButWires _ (sampleTail u)
    rw [htail, hv, show u.wires.bit = b from rfl, hu]
    rfl

/-- What a SAMPLE that completes leaves outside the transients. -/
theorem execSample_registers {x : F64} {s t : State} (h : execSample x s = .next t) : (s.sampled x).sameButWires t := by
  obtain ⟨-, -, -, rfl⟩ := (execSample_eq_next_iff_inEnvelope x s t).mp h
  exact sampleTail_afterFront_registers s x

/-- The registers a SAMPLE leaves do not depend on the transients. -/
theorem State.sampled_congr (s : State) (w : Wires) (x : F64) :
    (s.sampled x).sameButWires (({ s with wires := w } : State).sampled x) := by
  rcases hr : Front.sample f64Ops Config.zcMode Config.nudgeDir s.front x with ⟨f, o⟩
  have hr' : Front.sample f64Ops Config.zcMode Config.nudgeDir ({ s with wires := w } : State).front x = (f, o) := hr
  cases o with
  | none =>
    rw [State.sampled_of_none hr, State.sampled_of_none hr']
    rfl
  | some b =>
    have hb : ({ s.withNumeric f with wires := w } : State).boundary b =
        { (s.withNumeric f).boundary b with wires := w } := State.boundary_nSample _ (s.nSample + 1) w b
    have hw : ({ s with wires := w } : State).withNumeric f = { s.withNumeric f with wires := w } := rfl
    rw [State.sampled_of_some hr, State.sampled_of_some hr', hw, hb]
    rfl

end Sys2Proof.Machine
end

section
/-! PROOFS. What SAMPLE writes and what it does not depend on, from the registers it leaves. -/

namespace Sys2Proof.Machine

/-- Settles O21: a SAMPLE completes on a condition of the registers alone, and the registers it leaves are a function
of the registers. -/
theorem sampleDoesNotDependOnTransients : Obligations.SampleDoesNotDependOnTransients := by
  unfold Obligations.SampleDoesNotDependOnTransients
  intro s t x w h
  obtain ⟨hbusy, hlife, henv, -⟩ := (execSample_eq_next_iff_inEnvelope x s t).mp h
  have h' : execSample x { s with wires := w } = .next _ :=
    (execSample_eq_next_iff_inEnvelope _ _ _).mpr ⟨hbusy, hlife, henv, rfl⟩
  refine ⟨_, h', ?_⟩
  have hback : t.sameButWires (s.sampled x) :=
    State.sameButWires_symm (execSample_registers h)
  exact State.sameButWires_trans hback
    (State.sameButWires_trans (State.sampled_congr s w x) (execSample_registers h'))

/-- Settles O22, by the two cases of the numeric part: no boundary, or one. -/
theorem sampleWritesOnlyTheStreamingState : Obligations.SampleWritesOnlyTheStreamingState := by
  unfold Obligations.SampleWritesOnlyTheStreamingState
  intro s t x h
  obtain ⟨w, rfl⟩ := (State.sameButWires_iff _ _).mp (execSample_registers h)
  rcases hr : Front.sample f64Ops Config.zcMode Config.nudgeDir s.front x with ⟨f, o⟩
  cases o with
  | none =>
    rw [State.sampled_of_none hr]
    exact .inl ⟨f.lpfY, f.prevY, f.bitPhase, f.bitAcc, w, rfl⟩
  | some b =>
    rw [State.sampled_of_some hr]
    exact .inr ⟨f.lpfY, f.prevY, f.bitPhase, f.bitAcc, w, _, _, _, _, _, _, rfl⟩

/-- Settles O17: off a boundary the end of a SAMPLE counts it and clears `EMITTED`. -/
theorem sampleBetweenBitBoundaries : Obligations.SampleBetweenBitBoundaries := by
  unfold Obligations.SampleBetweenBitBoundaries
  intro s x f hbusy hlife henv hr
  have hexec := (execSample_eq_next_iff_inEnvelope x s _).mpr ⟨hbusy, hlife, henv, rfl⟩
  rw [sampleTail_afterFront_of_none hr] at hexec
  exact ⟨_, hexec, rfl, rfl, rfl, rfl⟩

end Sys2Proof.Machine
end

section
/-! PROOFS. The reset state and what CREATE makes of an absent one (R20, R170). -/

namespace Sys2Proof.Machine

theorem guardHostOp_of_wrongLife {op : HostOp} {need : Life} {s : State} {act : State → Result} (hb : s.busy = false)
    (hl : s.life ≠ need) : guardHostOp op need s act = .refused (.wrongLifecycle op) := by
  simp [guardHostOp, hb, hl]

theorem execBind_of_wrongLife {en : Bool} {sink ctx : Nat} {s : State} (hb : s.busy = false) (hl : s.life ≠ .ready) :
    execBind en sink ctx s = .refused (.wrongLifecycle .bind) := by
  rw [execBind, guardHostOp_of_wrongLife hb hl]

theorem execSample_of_wrongLife {x : F64} {s : State} (hb : s.busy = false) (hl : s.life ≠ .ready) :
    execSample x s = .refused (.wrongLifecycle .sample) := by
  rw [execSample, guardHostOp_of_wrongLife hb hl]

theorem execDestroy_of_wrongLife {s : State} (hb : s.busy = false) (hl : s.life ≠ .ready) :
    execDestroy s = .refused (.wrongLifecycle .destroy) := by
  rw [execDestroy, guardHostOp_of_wrongLife hb hl]

/-- Settles O4: in the reset state the lifecycle check fails for every host operation but CREATE. -/
theorem resetStateIsAbsent : Obligations.ResetStateIsAbsent := by
  unfold Obligations.ResetStateIsAbsent
  have hbusy : State.reset.busy = false := rfl
  have hlife : State.reset.life ≠ .ready := by decide
  exact ⟨rfl, rfl, rfl, fun _ _ _ => execBind_of_wrongLife hbusy hlife,
    fun _ => execSample_of_wrongLife hbusy hlife, execDestroy_of_wrongLife hbusy hlife⟩

theorem samplesPerBit_f64 (n : Nat) : samplesPerBit f64Ops n = F64.div (F64.ofNat n) F64.bitRate := by
  have hdiv : f64Ops.div = F64.div := by simp only [f64Ops]
  have hof : f64Ops.ofNat = F64.ofNat := by simp only [f64Ops]
  have hrate : f64Ops.bitRate = F64.bitRate := by simp only [f64Ops]
  rw [samplesPerBit, hdiv, hof, hrate]

/-- What CFGA, CFGS, TBLD and INIT leave in CREATE (R170, R210). -/
theorem createInstance_eq (fs : BitVec 32) (s : State) :
    createInstance fs s = { s with
      life := .ready, status := .ok, fs := fs, alpha := alphaOf fs, spb := samplesPerBit f64Ops fs.toNat
      lpfY := F64.zero, prevY := F64.zero, bitPhase := F64.zero, bitAcc := F64.zero, windowA := 0, windowB := 0
      lastCode := none, lastInv := false, counter := 0
      sinkEn := false, sink := Config.freeSink s.freeIdx, sinkCtx := Config.freeCtx s.freeIdx
      synTable := builtTable, nSample := 0, nBit := 0, freeIdx := s.freeIdx + 1 } := by
  simp only [createInstance, opInit, opTbld, opCfgs, opCfga]

theorem createInstance_synTable (fs : BitVec 32) (s : State) : (createInstance fs s).synTable = builtTable := by
  simp only [createInstance_eq]

theorem createInstance_codeRom (fs : BitVec 32) (s : State) : (createInstance fs s).codeRom = s.codeRom := by
  simp only [createInstance_eq]

theorem createInstance_inbox (fs : BitVec 32) (s : State) : (createInstance fs s).inbox = s.inbox := by
  simp only [createInstance_eq]

theorem opTbld_synTable (s : State) : (opTbld s).synTable = builtTable := by
  simp only [opTbld]

theorem opTbld_codeRom (s : State) : (opTbld s).codeRom = s.codeRom := by
  unfold opTbld
  generalize builtTable = m
  rfl

/-- Settles O9: outside the stops of CREATE the model runs CFGA, CFGS, TBLD and INIT. -/
theorem createMakesAnInstance : Obligations.CreateMakesAnInstance := by
  unfold Obligations.CreateMakesAnInstance
  intro s fs hbusy hlife hrate halloc
  have hexec : exec (.create fs) s = .next (createInstance fs s) :=
    (execCreate_eq_next_iff fs s _).mpr ⟨hbusy, hlife, hrate, .inl ⟨halloc, rfl⟩⟩
  rw [hexec, createInstance_eq, samplesPerBit_f64]
  exact ⟨_, _, _, rfl⟩

end Sys2Proof.Machine
end

section
/-! PROOFS. The tables: what each instruction does to them, and that every step keeps their form (R32, R41). -/

namespace Sys2Proof.Machine

/-- `t` holds the tables of `s`. -/
def State.SameTables (s t : State) : Prop := t.synTable = s.synTable ∧ t.codeRom = s.codeRom

/-- The configuration registers are no part of the tables. -/
theorem State.sameTables_config (s : State) (alpha spb : F64) :
    s.SameTables { s with alpha := alpha, spb := spb } := ⟨rfl, rfl⟩

/-- A numeric micro-operation that completes leaves the tables as they are. -/
theorem sameTables_of_guardFinite {v : F64} {s t u : State} (h : guardFinite v u = .next t) (hu : s.SameTables u) :
    s.SameTables t := by
  obtain ⟨-, rfl⟩ := (guardFinite_eq_next_iff _ _ _).mp h
  exact hu

theorem opZcn_sameTables {s t : State} (h : opZcn s = .next t) : s.SameTables t := by
  obtain ⟨-, rfl⟩ := (opZcn_eq_next_iff_phaseAfterZcn s t).mp h
  exact ⟨rfl, rfl⟩

theorem opSlc_sameTables {s t : State} (h : opSlc s = .next t) : s.SameTables t := by
  rcases (opSlc_eq_next_iff s t).mp h with ⟨-, rfl⟩ | ⟨-, -, rfl⟩ <;> exact ⟨rfl, rfl⟩

theorem opCnf_sameTables (s : State) : s.SameTables (opCnf s) := by
  obtain ⟨c, i, n, w, h⟩ := opCnf_frame s
  rw [h]
  exact ⟨rfl, rfl⟩

theorem opEmit_sameTables (s : State) : s.SameTables (opEmit s) := by
  rcases opEmit_cases s with ⟨-, -, h⟩ | ⟨-, h⟩ <;> rw [h] <;> exact ⟨rfl, rfl⟩

theorem State.sampled_sameTables (s : State) (x : F64) : s.SameTables (s.sampled x) := by
  unfold State.sampled
  dsimp only
  split <;> exact ⟨rfl, rfl⟩

theorem execSample_sameTables {x : F64} {s t : State} (h : execSample x s = .next t) : s.SameTables t := by
  obtain ⟨w, rfl⟩ := (State.sameButWires_iff _ _).mp (execSample_registers h)
  exact State.sampled_sameTables s x

theorem execBind_sameTables {en : Bool} {sink ctx : Nat} {s t : State} (h : execBind en sink ctx s = .next t) :
    s.SameTables t := by
  obtain ⟨-, -, ⟨-, rfl⟩ | ⟨-, rfl⟩⟩ := (execBind_eq_next_iff en sink ctx s t).mp h <;> exact ⟨rfl, rfl⟩

/-- What an instruction that completes does to the tables: CREATE and TBLD may build the syndrome table, every other one
leaves it, and none writes `CODE_ROM`. -/
theorem exec_tables {i : Instr} {s t : State} (h : exec i s = .next t) :
    (t.synTable = s.synTable ∨ t.synTable = builtTable) ∧ t.codeRom = s.codeRom := by
  have keep {u : State} (hu : s.SameTables u) : (u.synTable = s.synTable ∨ u.synTable = builtTable) ∧
      u.codeRom = s.codeRom := ⟨.inl hu.1, hu.2⟩
  have direct {u : State} (hnext : (Host.Outcome.next u : Result) = .next t) (hu : s.SameTables u) :
      (t.synTable = s.synTable ∨ t.synTable = builtTable) ∧ t.codeRom = s.codeRom :=
    (next_eq_next u t).mp hnext ▸ keep hu
  cases i with
  | create fs =>
    obtain ⟨-, -, -, ⟨-, rfl⟩ | ⟨-, rfl⟩⟩ := (execCreate_eq_next_iff fs s t).mp h
    · exact ⟨.inr (createInstance_synTable fs s), createInstance_codeRom fs s⟩
    · exact ⟨.inl rfl, rfl⟩
  | bind en sink ctx => exact keep (execBind_sameTables h)
  | sample x => exact keep (execSample_sameTables h)
  | destroy =>
    obtain ⟨-, -, rfl⟩ := (execDestroy_eq_next_iff s t).mp h
    exact ⟨.inl rfl, rfl⟩
  | lpf => exact keep (sameTables_of_guardFinite h ⟨rfl, rfl⟩)
  | zcn => exact keep (opZcn_sameTables h)
  | acc => exact keep (sameTables_of_guardFinite h ⟨rfl, rfl⟩)
  | phi => exact keep (sameTables_of_guardFinite h ⟨rfl, rfl⟩)
  | slc => exact keep (opSlc_sameTables h)
  | cnf => exact direct h (opCnf_sameTables s)
  | emit => exact direct h (opEmit_sameTables s)
  | tbld =>
    obtain rfl := (next_eq_next _ t).mp h
    exact ⟨.inr (opTbld_synTable s), opTbld_codeRom s⟩
  | cfga => exact direct h (State.sameTables_config s (alphaOf s.fs) s.spb)
  | cfgs => exact direct h (State.sameTables_config s s.alpha (samplesPerBit f64Ops s.fs.toNat))
  | prv | wsha | wshb | cgen | syn | lut | cor | ext | top3 | romv | sel | init =>
    exact direct h ⟨rfl, rfl⟩

/-- Settles O7, by the two cases of a step: idle, or an instruction on the accepted request. -/
theorem everyStepKeepsTheTables : Obligations.EveryStepKeepsTheTables := by
  unfold Obligations.EveryStepKeepsTheTables
  intro s t hwf h
  rcases (step_eq_next_iff s t).mp h with ⟨-, rfl⟩ | ⟨r, rest, i, -, -, hexec⟩
  · exact ⟨hwf, rfl⟩
  · obtain ⟨htable, hrom⟩ := exec_tables hexec
    refine ⟨?_, hrom⟩
    rcases htable with hkept | hbuilt
    · rw [hkept]; exact hwf
    · rw [hbuilt]; exact builtTable_wf

end Sys2Proof.Machine
end

section
/-! PROOFS. The invariants between the operations of a host (R38): they hold in the reset state, and each host operation
keeps them. -/

namespace Sys2Proof.Machine

/-- Settles O5: with no register of a READY state to speak of, what is left is the table's form and R143. -/
theorem resetStateMeetsTheInvariants : Obligations.ResetStateMeetsTheInvariants := by
  unfold Obligations.ResetStateMeetsTheInvariants
  exact
    { notBusy := rfl
      tableForm := reset_synTable_wf
      romForm := by simp only [State.reset, codeRom_admissible]
      tableBuilt := nofun
      rate := nofun
      alphaConstant := nofun
      spbConstant := nofun
      latched := nofun
      quiet := nofun
      lastRecognized := nofun
      bitsCounted := nofun
      eventsRecognized := nofun }

/-! The codes a bit boundary can hold -/

theorem codeOf_recognized {table : Memory} {rom : RomBits} {w : Word23} {c : Code} (h : codeOf table rom w = some c) :
    romRead rom c = true := by
  unfold codeOf at h
  dsimp only at h
  split at h
  · next hvalid =>
    cases h
    exact (Bool.and_eq_true_iff.mp hvalid).2
  · cases h

/-- Every decode of a bit boundary is a recognized code (R142, R144). -/
theorem decodeOf_recognized {table : Memory} {rom : RomBits} {a b : Word23} {p : Code × Bool}
    (h : decodeOf table rom a b = some p) : romRead rom p.1 = true := by
  unfold decodeOf at h
  split at h
  case h_5 => cases h
  all_goals
    cases h
    exact codeOf_recognized ‹_›

/-! The parts of a SAMPLE -/

namespace State.Inv

variable {s t : State}

/-- The transients, the pending requests and the request's draw are no part of the invariants. -/
theorem congr (h : s.Inv) (hst : s.sameButWires t) : t.Inv := by
  obtain ⟨w, rfl⟩ := (State.sameButWires_iff s t).mp hst
  exact { h with }

theorem accept {r : Request} {rest : List Request} (h : s.Inv) (hbusy : (s.accept r rest).busy = false) :
    (s.accept r rest).Inv :=
  { h with notBusy := hbusy }

theorem withNumeric {f : Front F64} (h : s.Inv) (hlatched : f.prevY = f.lpfY) : (s.withNumeric f).Inv :=
  { h with
    latched := fun _ => hlatched
    bitsCounted := fun hlife => Nat.le_succ_of_le (h.bitsCounted hlife) }

theorem shifted (h : s.Inv) (b : Bool) : (s.shifted b).Inv := { h with }

/-- The confirmation layer keeps the invariants for a decode that is recognized. -/
theorem confirmed {d : Option (Code × Bool)} (h : s.Inv) (hd : ∀ p, d = some p → romRead s.codeRom p.1 = true) :
    (s.confirmed d).Inv := by
  cases d with
  | none =>
    rw [confirmed_none]
    exact { h with quiet := fun hlife hnone => by show s.counter - 1 = 0; rw [h.quiet hlife hnone] }
  | some p =>
    have hrec := hd p rfl
    exact { h with
      quiet := nofun
      lastRecognized := fun _ c hc => by cases hc; exact hrec
      eventsRecognized := fun e he => by
        rcases List.mem_append.mp he with hold | hnew
        · exact h.eventsRecognized e hold
        · obtain ⟨q, hq, rfl⟩ := List.mem_map.mp hnew
          obtain ⟨hpq, -⟩ := Option.filter_eq_some_iff.mp (Option.mem_toList.mp hq)
          cases hpq
          exact hrec }

theorem boundary (h : s.Inv) (b : Bool) : (s.boundary b).Inv :=
  (h.shifted b).confirmed fun _ => decodeOf_recognized

/-- A SAMPLE keeps the invariants: its numeric part latches the filtered value, and what a boundary decodes is
recognized. -/
theorem sampled (h : s.Inv) (x : F64) : (s.sampled x).Inv := by
  rcases hr : Front.sample f64Ops Config.zcMode Config.nudgeDir s.front x with ⟨f, o⟩
  have hlatched := Front.sample_prevY f64Ops Config.zcMode Config.nudgeDir s.front x
  rw [hr] at hlatched
  cases o with
  | none => exact State.sampled_of_none hr ▸ h.withNumeric hlatched
  | some b =>
    have hb := (h.withNumeric hlatched).boundary b
    rw [State.sampled_of_some hr]
    exact { hb with bitsCounted := fun hlife => Nat.succ_le_succ (h.bitsCounted hlife) }

/-- CREATE makes the table and the configuration from its rate, with no decode seen (R38, R39). -/
theorem createInstance {fs : BitVec 32} (h : s.Inv) (hrate : Config.minSampleRate ≤ fs.toNat) :
    (createInstance fs s).Inv := by
  rw [createInstance_eq]
  exact { h with
    tableForm := by simp only [builtTable_wf]
    tableBuilt := fun _ => by dsimp only
    rate := fun _ => hrate
    alphaConstant := fun _ => rfl
    spbConstant := fun _ => rfl
    latched := fun _ => rfl
    quiet := fun _ _ => rfl
    lastRecognized := fun _ _ => nofun
    bitsCounted := fun _ => le_refl 0 }

theorem creationFailure (h : s.Inv) : s.creationFailure.Inv := { h with }

theorem destroyed (h : s.Inv) : State.Inv { s with life := .absent } :=
  { h with
    tableBuilt := nofun
    rate := nofun
    alphaConstant := nofun
    spbConstant := nofun
    latched := nofun
    quiet := nofun
    lastRecognized := nofun
    bitsCounted := nofun }

end State.Inv

/-! A step of a host -/

/-- A command word is one of the four host operations (R56). -/
theorem exists_hostCall_of_decode_cmd {w : Nat} {i : Instr} (h : decode .cmd w = .ok i) :
    ∃ c : HostCall F64, i = c.instr := by
  have hi : i = decodeCmdAt Config.ctxw w := by cases h; rfl
  rw [hi]
  unfold decodeCmdAt
  split
  · exact ⟨.create _, rfl⟩
  · exact ⟨.bind _ _ _, rfl⟩
  · exact ⟨.sample _, rfl⟩
  · exact ⟨.destroy, rfl⟩

/-- Each host operation that completes was not called from inside the sink, keeps the invariants, and leaves the pending
requests. -/
theorem exec_hostCall_keepsInv {c : HostCall F64} {s t : State} (h : exec c.instr s = .next t) :
    s.busy = false ∧ (s.Inv → t.Inv) ∧ t.inbox = s.inbox := by
  cases c with
  | create fs =>
    obtain ⟨hbusy, -, hrate, ⟨-, rfl⟩ | ⟨-, rfl⟩⟩ := (execCreate_eq_next_iff fs s t).mp h
    · exact ⟨hbusy, fun hinv => hinv.createInstance hrate, createInstance_inbox fs s⟩
    · exact ⟨hbusy, State.Inv.creationFailure, rfl⟩
  | bind en sink ctx =>
    obtain ⟨hbusy, -, ⟨-, rfl⟩ | ⟨-, rfl⟩⟩ := (execBind_eq_next_iff en sink ctx s t).mp h <;>
      exact ⟨hbusy, fun hinv => { hinv with }, rfl⟩
  | sample x =>
    obtain ⟨hbusy, -⟩ := (execSample_eq_next_iff x s t).mp h
    obtain ⟨w, rfl⟩ := (State.sameButWires_iff _ _).mp (execSample_registers h)
    exact ⟨hbusy, fun hinv => (hinv.sampled x).congr rfl, State.sampled_inbox s x⟩
  | destroy =>
    obtain ⟨hbusy, -, rfl⟩ := (execDestroy_eq_next_iff s t).mp h
    exact ⟨hbusy, State.Inv.destroyed, rfl⟩

/-- Settles O6: a pending command word is one of the four host operations, and each keeps the invariants. -/
theorem everyHostStepKeepsTheInvariants : Obligations.EveryHostStepKeepsTheInvariants := by
  unfold Obligations.EveryHostStepKeepsTheInvariants
  intro s t hinv hhost h
  rcases (step_eq_next_iff s t).mp h with ⟨-, rfl⟩ | ⟨r, rest, i, hinbox, hdecode, hexec⟩
  · exact ⟨hinv, hhost⟩
  · rw [State.hostOnly, hinbox, List.all_cons, Bool.and_eq_true, beq_iff_eq] at hhost
    obtain ⟨hcmd, hrest⟩ := hhost
    rw [hcmd] at hdecode
    obtain ⟨c, rfl⟩ := exists_hostCall_of_decode_cmd hdecode
    obtain ⟨hbusy, hkeep, hleft⟩ := exec_hostCall_keepsInv hexec
    refine ⟨hkeep (hinv.accept hbusy), ?_⟩
    rw [State.hostOnly, hleft]
    exact hrest

end Sys2Proof.Machine
end

section
/-! PROOFS. The decoder in exact real arithmetic: its coefficient, its filter and its phase (R38, R80, R81, R97). -/

namespace Sys2Proof.Machine

/-! The coefficient and the filter -/

theorem realAlpha_pos {fs : ℕ} (h : 1 ≤ fs) : 0 < realAlpha fs := by
  have hfs : (0 : ℝ) < fs := by exact_mod_cast h
  have hneg : -(2 * Real.pi * 300) / fs < 0 := div_neg_of_neg_of_pos (neg_neg_of_pos (by positivity)) hfs
  exact sub_pos.mpr (Real.exp_lt_one_iff.mpr hneg)

theorem realAlpha_lt_one (fs : ℕ) : realAlpha fs < 1 := sub_lt_self 1 (Real.exp_pos _)

theorem realAlpha_strictAnti {fs fs' : ℕ} (h : 1 ≤ fs) (hlt : fs < fs') : realAlpha fs' < realAlpha fs := by
  have hfs : (0 : ℝ) < fs := by exact_mod_cast h
  have hlt' : (fs : ℝ) < fs' := by exact_mod_cast hlt
  refine sub_lt_sub_left (Real.exp_lt_exp.mpr ?_) 1
  rw [neg_div, neg_div, neg_lt_neg_iff]
  exact div_lt_div_of_pos_left (by positivity) hfs hlt'

theorem filtered_exact (alpha x y : ℝ) : filtered (exactOps ℝ) alpha x y = alpha * x + (1 - alpha) * y := rfl

/-- The filtered value is a weighted mean, so it is no larger than the larger of its two terms (R80). -/
theorem abs_filtered_le {alpha : ℝ} (h0 : 0 < alpha) (h1 : alpha < 1) (x y : ℝ) :
    |filtered (exactOps ℝ) alpha x y| ≤ max |x| |y| := by
  have hrest : 0 < 1 - alpha := sub_pos.mpr h1
  rw [filtered_exact]
  calc |alpha * x + (1 - alpha) * y| ≤ |alpha * x| + |(1 - alpha) * y| := abs_add_le _ _
    _ = alpha * |x| + (1 - alpha) * |y| := by rw [abs_mul, abs_mul, abs_of_pos h0, abs_of_pos hrest]
    _ ≤ alpha * max |x| |y| + (1 - alpha) * max |x| |y| :=
        add_le_add (mul_le_mul_of_nonneg_left (le_max_left _ _) h0.le)
          (mul_le_mul_of_nonneg_left (le_max_right _ _) hrest.le)
    _ = max |x| |y| := by ring

theorem samplesPerBit_exact (fs : ℕ) : samplesPerBit (exactOps ℝ) fs = 10 * (fs : ℝ) / 1344 := by
  show (fs : ℝ) / (672 / 5) = _
  ring

theorem two_le_samplesPerBit_exact {fs : ℕ} (h : 269 ≤ fs) : 2 ≤ samplesPerBit (exactOps ℝ) fs := by
  have hfs : (269 : ℝ) ≤ fs := by exact_mod_cast h
  rw [samplesPerBit_exact]
  linarith

/-! CREATE -/

/-- The registers of type NUM that CREATE makes in REAL (R81, R90, R210). -/
theorem Front.created_real (fs : BitVec 32) :
    Front.created realInstance fs =
      { alpha := realAlpha fs.toNat, spb := 10 * (fs.toNat : ℝ) / 1344
        lpfY := 0, prevY := 0, bitPhase := 0, bitAcc := 0 } := by
  rw [← samplesPerBit_exact]
  rfl

/-- CREATE over NUM answers a next state in two cases only: the registers made, or the creation failure. -/
theorem execIn_create_eq_next_iff {N : Type} (I : NumInstance N) (fs : BitVec 32) (d e : Decoder N) :
    execIn I (.create fs) d = .next e ↔
      d.rest.busy = false ∧ d.rest.life = .absent ∧ Config.minSampleRate ≤ fs.toNat ∧
        ((d.rest.allocOk = true ∧ e = ⟨Front.created I fs, createInstance fs d.rest⟩) ∨
          (d.rest.allocOk = false ∧ e = ⟨d.num, d.rest.creationFailure⟩)) := by
  have hready : (createInstance fs d.rest).life = .ready := rfl
  rw [execIn, withNum_eq_next_iff]
  constructor
  · rintro ⟨t, ht, rfl⟩
    obtain ⟨hbusy, hlife, hrate, hcase⟩ := (execCreate_eq_next_iff fs d.rest t).mp ht
    refine ⟨hbusy, hlife, hrate, hcase.imp ?_ ?_⟩
    · rintro ⟨ha, rfl⟩
      exact ⟨ha, by rw [if_pos hready]⟩
    · rintro ⟨ha, rfl⟩
      exact ⟨ha, by rw [if_neg (by rw [State.creationFailure_life, hlife]; decide)]⟩
  · rintro ⟨hbusy, hlife, hrate, ⟨ha, rfl⟩ | ⟨ha, rfl⟩⟩
    · exact ⟨_, (execCreate_eq_next_iff _ _ _).mpr ⟨hbusy, hlife, hrate, .inl ⟨ha, rfl⟩⟩, by rw [if_pos hready]⟩
    · exact ⟨_, (execCreate_eq_next_iff _ _ _).mpr ⟨hbusy, hlife, hrate, .inr ⟨ha, rfl⟩⟩,
        by rw [if_neg (by rw [State.creationFailure_life, hlife]; decide)]⟩

/-- Settles O55, from the bounds of the exact coefficient and the registers CREATE makes. -/
theorem realCoefficientAndFilterAreBounded : Obligations.RealCoefficientAndFilterAreBounded := by
  unfold Obligations.RealCoefficientAndFilterAreBounded
  refine ⟨fun fs h => ⟨realAlpha_pos h, realAlpha_lt_one fs, fun fs' => realAlpha_strictAnti h⟩, ?_,
    fun _ x y h0 h1 => abs_filtered_le h0 h1 x y⟩
  intro fs d hbusy hlife halloc hrate
  refine ⟨⟨Front.created realInstance fs, createInstance fs d.rest⟩, ?_, rfl, Front.created_real fs⟩
  exact (execIn_create_eq_next_iff _ _ _ _).mpr ⟨hbusy, hlife, hrate, .inl ⟨halloc, rfl⟩⟩

/-! The phase -/

/-- The nudge keeps a phase inside the period: it adds below half a period and subtracts from there on (R91, R97). -/
theorem nudgedPhase_mem {spb phase : ℝ} (h0 : 0 ≤ phase) (h1 : phase < spb) :
    0 ≤ nudgedPhase (exactOps ℝ) .asWritten spb phase ∧ nudgedPhase (exactOps ℝ) .asWritten spb phase < spb := by
  have hnudge : nudgedPhase (exactOps ℝ) .asWritten spb phase =
      if phase < spb / 2 then phase + 1 / 20 * spb else phase - 1 / 20 * spb := by
    by_cases h : phase < spb / 2 <;> simp [nudgedPhase, halfPeriod, nudgeStep, exactOps, h]
  rw [hnudge]
  split
  · constructor <;> linarith
  · constructor <;> linarith

theorem phaseAfterZcn_mem (mode : ZcMode) (prev y : ℝ) {spb phase : ℝ} (h0 : 0 ≤ phase) (h1 : phase < spb) :
    0 ≤ phaseAfterZcn (exactOps ℝ) mode .asWritten spb prev y phase ∧
      phaseAfterZcn (exactOps ℝ) mode .asWritten spb prev y phase < spb := by
  unfold phaseAfterZcn
  split
  · exact nudgedPhase_mem h0 h1
  · exact ⟨h0, h1⟩

theorem advancedPhase_exact (phase : ℝ) : advancedPhase (exactOps ℝ) phase = phase + 1 := rfl

theorem wrappedPhase_exact (spb phase : ℝ) : wrappedPhase (exactOps ℝ) spb phase = phase - spb := rfl

theorem atBoundary_exact (spb phase : ℝ) : atBoundary (exactOps ℝ) spb phase = decide (spb ≤ phase) := rfl

/-- One test a sample is enough: a phase inside the period, advanced by 1 and tested, is inside the period again, and
below 1 after a boundary (R96, R97). -/
theorem Front.sample_bitPhase_mem (mode : ZcMode) (f : Front ℝ) (x : ℝ) (hspb : 2 ≤ f.spb) (h0 : 0 ≤ f.bitPhase)
    (h1 : f.bitPhase < f.spb) :
    let r := Front.sample (exactOps ℝ) mode .asWritten f x
    0 ≤ r.1.bitPhase ∧ r.1.bitPhase < f.spb ∧ (r.2.isSome = true → r.1.bitPhase < 1) := by
  obtain ⟨hlow, hhigh⟩ := phaseAfterZcn_mem mode f.prevY (filtered (exactOps ℝ) f.alpha x f.lpfY) h0 h1
  unfold Front.sample
  dsimp only
  rw [advancedPhase_exact, wrappedPhase_exact, atBoundary_exact]
  generalize phaseAfterZcn (exactOps ℝ) mode .asWritten f.spb f.prevY (filtered (exactOps ℝ) f.alpha x f.lpfY)
    f.bitPhase = phase at hlow hhigh ⊢
  split
  · next h =>
    have hle := of_decide_eq_true h
    exact ⟨by linarith, by linarith, fun _ => by linarith⟩
  · next h =>
    have hlt := not_le.mp (mt decide_eq_true h)
    exact ⟨by linarith, hlt, nofun⟩

/-- Every host operation of the decoder in REAL keeps the coefficient, the period and the phase in range (R38). -/
theorem execIn_keepsRealInv {c : HostCall ℝ} {d e : Decoder ℝ} (hd : d.RealInv)
    (h : execIn realInstance c d = .next e) : e.RealInv := by
  intro hready
  cases c with
  | create fs =>
    obtain ⟨-, hlife, hrate, ⟨-, rfl⟩ | ⟨-, rfl⟩⟩ := (execIn_create_eq_next_iff _ _ _ _).mp h
    · have hspb := two_le_samplesPerBit_exact hrate
      exact ⟨realAlpha_pos (le_trans (by decide) hrate), realAlpha_lt_one _, hspb, le_refl 0, two_pos.trans_le hspb⟩
    · exact hd hready
  | bind en sink ctx =>
    obtain ⟨t, ht, rfl⟩ := (withNum_eq_next_iff _ _ _).mp h
    obtain ⟨-, hlife, -⟩ := (execBind_eq_next_iff en sink ctx d.rest t).mp ht
    exact hd hlife
  | sample x =>
    obtain ⟨-, hlife, -, -, rfl⟩ := (sampleIn_eq_next_iff _ _ _ _).mp h
    obtain ⟨ha0, ha1, hspb, h0, h1⟩ := hd hlife
    obtain ⟨hp0, hp1, -⟩ := Front.sample_bitPhase_mem Config.zcMode d.num x hspb h0 h1
    have halpha := Front.sample_alpha (exactOps ℝ) Config.zcMode Config.nudgeDir d.num x
    have hperiod := Front.sample_spb (exactOps ℝ) Config.zcMode Config.nudgeDir d.num x
    dsimp only
    rw [realInstance_ops, halpha, hperiod]
    exact ⟨ha0, ha1, hspb, hp0, hp1⟩
  | destroy =>
    obtain ⟨t, ht, rfl⟩ := (withNum_eq_next_iff _ _ _).mp h
    obtain ⟨-, -, rfl⟩ := (execDestroy_eq_next_iff d.rest t).mp ht
    cases hready

/-- Settles O57, from the range of the phase through one sample. -/
theorem realPhaseStaysInRange : Obligations.RealPhaseStaysInRange := by
  unfold Obligations.RealPhaseStaysInRange
  refine ⟨fun mode f x hspb h0 h1 => ?_, fun c d e hd h => execIn_keepsRealInv hd h⟩
  obtain ⟨hp0, hp1, hwrapped⟩ := Front.sample_bitPhase_mem mode f x hspb h0 h1
  have hnudged := (phaseAfterZcn_mem mode f.prevY (filtered (exactOps ℝ) f.alpha x f.lpfY) h0 h1).2
  exact ⟨Front.sample_spb .., hp0, hp1, hwrapped, add_lt_add_left hnudged 1⟩

end Sys2Proof.Machine
end

section
/-! SUPPORT. Bounds of a rounded result: rounding moves no exact value past a finite one, so a result lies between the
finite values its exact value lies between (R9). -/

namespace Sys2Proof

theorem F64.abs_toRat (a : F64) : |a.toRat| = a.mag / 2 ^ 1074 := by
  rw [F64.toRat_eq_signedUnits, abs_signedUnits, F64.mag_eq_magOfBits, Nat.abs_cast]

theorem F64.abs_toRat_lt_overflow {a : F64} (h : a.isFinite = true) : |a.toRat| < 2 ^ 1024 - 2 ^ 970 := by
  have hu : (0 : ℚ) < halfTopUnit := by exact_mod_cast (by rw [halfTopUnit_eq]; positivity : 0 < halfTopUnit)
  have hle : a.mag ≤ (2 ^ 54 - 2) * halfTopUnit := by
    rw [F64.mag_eq_magOfBits, ← magOfBits_largest]
    exact magOfBits_strictMono.monotone (Nat.le_sub_one_of_lt ((F64.isFinite_iff a).mp h))
  have hle' : (a.mag : ℚ) ≤ (2 ^ 54 - 2) * halfTopUnit := by
    refine (Nat.cast_le.mpr hle).trans_eq ?_
    norm_num
  rw [F64.abs_toRat, ← lt_overflow_iff]
  linarith

/-- A number that a finite pattern stands for. -/
def F64.IsValue (x : ℚ) : Prop := ∃ c : F64, c.isFinite = true ∧ c.toRat = x

theorem F64.IsValue.neg {x : ℚ} (h : F64.IsValue x) : F64.IsValue (-x) := by
  obtain ⟨c, hfinite, rfl⟩ := h
  exact ⟨F64.neg c, F64.neg_isFinite hfinite, F64.neg_toRat c⟩

/-- A result lies between the finite values its exact value lies between. -/
theorem F64.RoundsTo.mem_Icc {r : F64} {q x y : ℚ} (h : r.RoundsTo q) (hx : F64.IsValue x) (hy : F64.IsValue y)
    (hq : q ∈ Set.Icc x y) : r.isFinite = true ∧ r.toRat ∈ Set.Icc x y := by
  obtain ⟨lo, hlo, rfl⟩ := hx
  obtain ⟨hi, hhi, rfl⟩ := hy
  obtain ⟨hfinite, hnear⟩ := h
  obtain ⟨hloq, hqhi⟩ := hq
  have habs : |q| < 2 ^ 1024 - 2 ^ 970 := by
    have hl := (abs_lt.mp (F64.abs_toRat_lt_overflow hlo)).1
    have hh := (abs_lt.mp (F64.abs_toRat_lt_overflow hhi)).2
    exact abs_lt.mpr ⟨hl.trans_le hloq, hqhi.trans_lt hh⟩
  have hr := hfinite.mpr habs
  have hbelow := (hnear hr lo hlo).1
  have habove := (hnear hr hi hhi).1
  rw [abs_of_nonpos (sub_nonpos.mpr hloq)] at hbelow
  rw [abs_of_nonneg (sub_nonneg.mpr hqhi)] at habove
  have h1 := (abs_le.mp hbelow).1
  have h2 := (abs_le.mp habove).2
  exact ⟨hr, by linarith, by linarith⟩

/-- The value `m / 2^(1074 - e)`, in the binade `e` above the lowest one. -/
def F64.dyadic (e m : Nat) : F64 := F64.pack false (e * 2 ^ 52 + m)

theorem F64.dyadic_toRat_eq {e m : Nat} {x : ℚ} (k : Nat)
    (h : 2 ^ 52 ≤ m ∧ m ≤ 2 ^ 53 ∧ e + k = 1074 ∧ x = m / 2 ^ k) : (F64.dyadic e m).toRat = x := by
  obtain ⟨hnormal, hm, hk, rfl⟩ := h
  have hsmall : e * 2 ^ 52 + m < 2 ^ 63 := by omega
  rw [F64.dyadic, F64.toRat_eq_signedUnits, F64.pack_sign _ _ hsmall, F64.pack_toNat_mod _ _ hsmall,
    magOfBits_binade e m hm (.inr hnormal), signedUnits, if_neg Bool.false_ne_true, ← hk, pow_add, Nat.cast_mul,
    Nat.cast_pow, Nat.cast_ofNat, mul_comm, mul_div_mul_left _ _ (by positivity)]

/-- A significand of 53 bits over a power of 2 is a value. -/
theorem F64.isValue_dyadic (m k : Nat) {x : ℚ} (h : 2 ^ 52 ≤ m ∧ m ≤ 2 ^ 53 ∧ k ≤ 1074 ∧ x = m / 2 ^ k) :
    F64.IsValue x := by
  obtain ⟨hnormal, hm, hk, rfl⟩ := h
  refine ⟨F64.dyadic (1074 - k) m, ?_, F64.dyadic_toRat_eq k ⟨hnormal, hm, Nat.sub_add_cancel hk, rfl⟩⟩
  rw [F64.isFinite_iff, F64.dyadic, F64.pack_toNat_mod _ _ (by omega), F64.infBits]
  omega

theorem F64.zero_isFinite : F64.zero.isFinite = true := by decide

theorem F64.one_isFinite : F64.one.isFinite = true := by decide

theorem F64.zero_toRat : F64.zero.toRat = 0 := by
  rw [F64.toRat, show F64.zero.units = 0 by decide, Int.cast_zero, zero_div]

theorem F64.one_toRat : F64.one.toRat = 1 := by
  rw [show F64.one = F64.dyadic 1022 (2 ^ 52) by decide]
  exact F64.dyadic_toRat_eq 52 (by norm_num)

theorem F64.ofNat_roundsTo (n : Nat) : (F64.ofNat n).RoundsTo n := by
  have h := F64.ofUnits_roundsTo (n * 2 ^ 1074) 1 false one_pos
  have hq : (((n * 2 ^ 1074 : Int) : ℚ) / (1 : Nat)) / 2 ^ 1074 = n := by
    rw [Nat.cast_one, div_one, Int.cast_mul, Int.cast_natCast, Int.cast_pow, Int.cast_ofNat,
      mul_div_cancel_right₀ _ (by positivity)]
  rwa [hq] at h

end Sys2Proof
end

section
/-! PROOFS. `ALPHA` in F64 lies strictly between 0 and 1 (R38, R81). The argument of `exp` lies between -8 and -2^-22,
which the fixed-point series and its squarings turn into a value between 2^-12 and 1 - 2^-24; four units in the last
place are far less than what is left to 0 and to 1. -/

namespace Sys2Proof

/-! The fixed-point exponential -/

theorem expSeries_le (u n k : Nat) : expSeries u n k ≤ expScale := by
  cases n with
  | zero => exact le_rfl
  | succ n => exact Nat.sub_le _ _

/-- From the second term on the series is at least a half: it takes away no more than `u / 2`. -/
theorem half_le_expSeries {u k : Nat} (hu : u ≤ expScale) (hk : 2 ≤ k) (n : Nat) : expScale / 2 ≤ expSeries u n k := by
  cases n with
  | zero => exact Nat.div_le_self _ _
  | succ n =>
    have htwice : expScale / 2 * 2 = expScale := by decide
    have hterm : u * expSeries u n (k + 1) / (expScale * k) ≤ expScale / 2 := by
      refine Nat.div_le_of_le_mul ?_
      calc u * expSeries u n (k + 1) ≤ expScale * expScale := Nat.mul_le_mul hu (expSeries_le _ _ _)
        _ = expScale * (2 * (expScale / 2)) := by rw [Nat.mul_comm 2, htwice]
        _ ≤ expScale * (k * (expScale / 2)) := Nat.mul_le_mul_left _ (Nat.mul_le_mul_right _ hk)
        _ = expScale * k * (expScale / 2) := (Nat.mul_assoc _ _ _).symm
    show expScale / 2 ≤ expScale - u * expSeries u n (k + 1) / (expScale * k)
    omega

/-- The series takes at most `u` from 1, and at least `u / 2`. -/
theorem expSeries_bounds {u d : Nat} (hd : 2 * d ≤ u) (hu : u ≤ expScale) (n : Nat) :
    expScale - u ≤ expSeries u (n + 1) 1 ∧ expSeries u (n + 1) 1 ≤ expScale - d := by
  have hpos : 0 < expScale * 1 := by decide
  have htwice : expScale / 2 * 2 = expScale := by decide
  have hlow : d ≤ u * expSeries u n 2 / (expScale * 1) := by
    rw [Nat.le_div_iff_mul_le hpos]
    calc d * (expScale * 1) = 2 * d * (expScale / 2) := by
          rw [Nat.mul_one, Nat.mul_comm 2, Nat.mul_assoc, Nat.mul_comm 2, htwice]
      _ ≤ u * expSeries u n 2 := Nat.mul_le_mul hd (half_le_expSeries hu le_rfl n)
  have hhigh : u * expSeries u n 2 / (expScale * 1) ≤ u := by
    refine Nat.div_le_of_le_mul ?_
    rw [Nat.mul_one, Nat.mul_comm]
    exact Nat.mul_le_mul_right _ (expSeries_le _ _ _)
  exact ⟨Nat.sub_le_sub_left hhigh _, Nat.sub_le_sub_left hlow _⟩

theorem squareTimes_mono (n : Nat) {g h : Nat} (hgh : g ≤ h) : squareTimes n g ≤ squareTimes n h := by
  induction n generalizing g h with
  | zero => exact hgh
  | succ n ih => exact ih (Nat.div_le_div_right (Nat.mul_le_mul hgh hgh))

/-- The fixed-point argument that `expNearest` takes the series of. -/
def F64.expArgument (t : F64) : Nat := t.mag * 2 ^ 256 / 2 ^ 1086

/-- The fixed-point value that `expNearest` rounds. -/
def F64.expFixed (t : F64) : Nat := squareTimes 12 (expSeries t.expArgument 48 1)

/-- Where the argument of `exp` in R81 lies at the rates inside the envelope. -/
def alphaExponentRange : Set ℚ := Set.Icc (-8) (-(1 / 2 ^ 22))

/-- The magnitude of an argument from -8 to -2^-22, in units of 2^-1074. -/
theorem F64.mag_bounds {t : F64} (ht : t.toRat ∈ alphaExponentRange) :
    2 ^ 1052 ≤ t.mag ∧ t.mag ≤ 2 ^ 1077 := by
  obtain ⟨hlow, hhigh⟩ := ht
  have hneg : t.toRat < 0 := hhigh.trans_lt (neg_neg_of_pos (by positivity))
  have hmag : (t.mag : ℚ) = -t.toRat * 2 ^ 1074 := by
    rw [← abs_of_neg hneg, F64.abs_toRat, div_mul_cancel₀ _ (by positivity)]
  have hleast : (2 : ℚ) ^ 1052 = 1 / 2 ^ 22 * 2 ^ 1074 := by
    rw [show 1074 = 22 + 1052 from rfl, pow_add, ← mul_assoc, one_div_mul_cancel (by positivity), one_mul]
  have hlargest : (2 : ℚ) ^ 1077 = 8 * 2 ^ 1074 := by
    rw [show 1077 = 3 + 1074 from rfl, pow_add]
    norm_num
  have hlow' : ((2 ^ 1052 : Nat) : ℚ) ≤ t.mag := by
    rw [Nat.cast_pow, Nat.cast_ofNat, hmag, hleast]
    exact mul_le_mul_of_nonneg_right (le_neg_of_le_neg hhigh) (by positivity)
  have hhigh' : (t.mag : ℚ) ≤ (2 ^ 1077 : Nat) := by
    rw [Nat.cast_pow, Nat.cast_ofNat, hmag, hlargest]
    exact mul_le_mul_of_nonneg_right (neg_le_of_neg_le hlow) (by positivity)
  exact ⟨Nat.cast_le.mp hlow', Nat.cast_le.mp hhigh'⟩

theorem F64.expArgument_bounds {t : F64} (ht : t.toRat ∈ alphaExponentRange) :
    2 ^ 222 ≤ t.expArgument ∧ t.expArgument ≤ 2 ^ 247 := by
  obtain ⟨hlow, hhigh⟩ := F64.mag_bounds ht
  unfold F64.expArgument
  constructor
  · rw [Nat.le_div_iff_mul_le (by positivity), ← pow_add, show 222 + 1086 = 1052 + 256 from rfl, pow_add]
    exact Nat.mul_le_mul_right _ hlow
  · refine Nat.div_le_of_le_mul ?_
    rw [← pow_add, show 1086 + 247 = 1077 + 256 from rfl, pow_add]
    exact Nat.mul_le_mul_right _ hhigh

/-- Arguments in this range have a fixed-point exponential from 2^-12 to 1 - 2^-24. -/
theorem F64.expFixed_bounds {t : F64} (ht : t.toRat ∈ alphaExponentRange) :
    2 ^ 244 ≤ t.expFixed ∧ t.expFixed ≤ 2 ^ 256 - 2 ^ 232 := by
  obtain ⟨hlow, hhigh⟩ := F64.expArgument_bounds ht
  have hu : t.expArgument ≤ expScale := hhigh.trans (by decide)
  have hd : 2 * 2 ^ 221 ≤ t.expArgument := hlow
  obtain ⟨hseries, hseries'⟩ := expSeries_bounds hd hu 47
  have hleast : 2 ^ 244 ≤ squareTimes 12 (expScale - 2 ^ 247) := by decide +kernel
  have hlargest : squareTimes 12 (expScale - 2 ^ 221) ≤ 2 ^ 256 - 2 ^ 232 := by decide +kernel
  exact ⟨hleast.trans (squareTimes_mono 12 ((Nat.sub_le_sub_left hhigh _).trans hseries)),
    (squareTimes_mono 12 hseries').trans hlargest⟩

/-! From the argument to the coefficient -/

/-- `expNearest` rounds its fixed-point value once. -/
theorem F64.expNearest_roundsTo {t : F64} (hfinite : t.isFinite = true)
    (ht : t.toRat ∈ alphaExponentRange) :
    (F64.expNearest t).RoundsTo (t.expFixed / 2 ^ 256) := by
  have hpow : (2 : Nat) ^ 1077 < 2 ^ 1086 := pow_lt_pow_right₀ one_lt_two (by norm_num)
  have hsmall : t.mag < 2 ^ 1086 := (F64.mag_bounds ht).2.trans_lt hpow
  have hexp : F64.expNearest t = F64.ofUnits ((t.expFixed * 2 ^ 1074 : Nat) : Int) expScale false := by
    rw [F64.expNearest, hfinite, decide_eq_true hsmall, Bool.and_self, if_pos rfl]
    rfl
  have h := F64.ofUnits_roundsTo ((t.expFixed * 2 ^ 1074 : Nat) : Int) expScale false (by decide)
  have hq : ((((t.expFixed * 2 ^ 1074 : Nat) : Int) : ℚ) / expScale) / 2 ^ 1074 = t.expFixed / 2 ^ 256 := by
    rw [expScale, Int.cast_natCast, Nat.cast_mul, Nat.cast_pow, Nat.cast_pow, Nat.cast_ofNat, div_right_comm,
      mul_div_cancel_right₀ _ (by positivity)]
  rw [hexp]
  rwa [hq] at h

/-- The correctly rounded exponential keeps the bounds of its fixed-point value. -/
theorem F64.expNearest_mem {t : F64} (hfinite : t.isFinite = true) (ht : t.toRat ∈ alphaExponentRange) :
    (F64.expNearest t).toRat ∈ Set.Icc (1 / 2 ^ 12 : ℚ) (1 - 1 / 2 ^ 24) := by
  obtain ⟨hlow, hhigh⟩ := F64.expFixed_bounds ht
  have hlow' : (2 ^ 244 : ℚ) ≤ t.expFixed := by exact_mod_cast hlow
  have hhigh' : (t.expFixed : ℚ) ≤ 2 ^ 256 - 2 ^ 232 := by
    refine (Nat.cast_le.mpr hhigh).trans_eq ?_
    norm_num
  refine ((F64.expNearest_roundsTo hfinite ht).mem_Icc (F64.isValue_dyadic (2 ^ 52) 64 (by norm_num))
    (F64.isValue_dyadic (2 ^ 53 - 2 ^ 29) 53 (by norm_num)) ⟨?_, ?_⟩).2
  · rw [le_div_iff₀ (by positivity)]
    linarith
  · rw [div_le_iff₀ (by positivity)]
    linarith

theorem F64.pack_orderKey {n : Nat} (hn : n < 2 ^ 63) : (F64.pack false n).orderKey = n := by
  rw [F64.orderKey, F64.pack_sign _ _ hn, F64.pack_toNat_mod _ _ hn, if_neg Bool.false_ne_true]

theorem F64.dyadic_orderKey {e m : Nat} (h : e * 2 ^ 52 + m < 2 ^ 63) :
    (F64.dyadic e m).orderKey = (e * 2 ^ 52 + m : Nat) := F64.pack_orderKey h

theorem F64.orderKey_of_pos {a : F64} (h : 0 < a.orderKey) : a.orderKey = a.bits.toNat := by
  unfold F64.orderKey at *
  cases hs : a.sign with
  | true =>
    rw [hs, if_pos rfl] at h
    omega
  | false =>
    have hbits : a.bits.toNat < 2 ^ 63 := not_le.mp (mt (F64.sign_iff a).mpr (by rw [hs]; exact Bool.false_ne_true))
    rw [if_neg Bool.false_ne_true, Nat.mod_eq_of_lt hbits]

/-- Four units in the last place less than halve the distance of `exp` to 0 and to 1. -/
theorem F64.expWithin_mem (off : Fin 9) {t : F64} (hfinite : t.isFinite = true)
    (ht : t.toRat ∈ alphaExponentRange) :
    (F64.expWithin off t).isFinite = true ∧
      (F64.expWithin off t).toRat ∈ Set.Icc (1 / 2 ^ 13 : ℚ) (1 - 1 / 2 ^ 25) := by
  have hnearest := F64.expNearest_mem hfinite ht
  have h12 : (F64.dyadic 1010 (2 ^ 52)).toRat = 1 / 2 ^ 12 := F64.dyadic_toRat_eq 64 (by norm_num)
  have h24 : (F64.dyadic 1021 (2 ^ 53 - 2 ^ 29)).toRat = 1 - 1 / 2 ^ 24 := F64.dyadic_toRat_eq 53 (by norm_num)
  have h13 : (F64.dyadic 1009 (2 ^ 52)).toRat = 1 / 2 ^ 13 := F64.dyadic_toRat_eq 65 (by norm_num)
  have h25 : (F64.dyadic 1021 (2 ^ 53 - 2 ^ 28)).toRat = 1 - 1 / 2 ^ 25 := F64.dyadic_toRat_eq 53 (by norm_num)
  rw [← h12, ← h24, Set.mem_Icc, F64.toRat_le_iff, F64.toRat_le_iff, F64.dyadic_orderKey (by norm_num),
    F64.dyadic_orderKey (by norm_num)] at hnearest
  have hpos : 0 < (F64.expNearest t).orderKey := lt_of_lt_of_le (by norm_num) hnearest.1
  rw [F64.orderKey_of_pos hpos] at hnearest
  have hoff := off.isLt
  unfold F64.expWithin
  generalize (F64.expNearest t).bits.toNat = n at *
  have hsmall : n + off.val - 4 < 2 ^ 63 := by omega
  rw [← h13, ← h25, Set.mem_Icc, F64.toRat_le_iff, F64.toRat_le_iff, F64.isFinite_iff, F64.pack_toNat_mod _ _ hsmall,
    F64.pack_orderKey hsmall, F64.dyadic_orderKey (by norm_num), F64.dyadic_orderKey (by norm_num), F64.infBits]
  omega

/-- The numerator of R81, `-(2 * pi * 300)` in F64, lies between -2048 and -1024. -/
theorem alphaNumerator_mem :
    (F64.mul (F64.mul (F64.neg F64.two) F64.pi) F64.cornerFreq).isFinite = true ∧
      (F64.mul (F64.mul (F64.neg F64.two) F64.pi) F64.cornerFreq).toRat ∈ Set.Icc (-2048 : ℚ) (-1024) := by
  have hlow : (F64.neg (F64.dyadic 1033 (2 ^ 52))).toRat = -2048 := by
    rw [F64.neg_toRat, F64.dyadic_toRat_eq 41 (x := 2048) (by norm_num)]
  have hhigh : (F64.neg (F64.dyadic 1032 (2 ^ 52))).toRat = -1024 := by
    rw [F64.neg_toRat, F64.dyadic_toRat_eq 42 (x := 1024) (by norm_num)]
  have hvalue : F64.mul (F64.mul (F64.neg F64.two) F64.pi) F64.cornerFreq = ⟨0xC09D73D286BFE4D8#64⟩ := by
    decide +kernel
  rw [hvalue, ← hlow, ← hhigh, Set.mem_Icc, F64.toRat_le_iff, F64.toRat_le_iff]
  decide

/-- A rate inside the envelope, as a value of F64, lies between 2^8 and 2^32. -/
theorem F64.ofNat_rate_mem {n : Nat} (hlow : 269 ≤ n) (hhigh : n < 2 ^ 32) :
    (F64.ofNat n).isFinite = true ∧ (F64.ofNat n).toRat ∈ Set.Icc (256 : ℚ) (2 ^ 32) := by
  have hlow' : (269 : ℚ) ≤ n := by exact_mod_cast hlow
  have hhigh' : (n : ℚ) < 2 ^ 32 := by exact_mod_cast hhigh
  exact (F64.ofNat_roundsTo n).mem_Icc (F64.isValue_dyadic (2 ^ 52) 44 (by norm_num))
    (F64.isValue_dyadic (2 ^ 52) 20 (by norm_num)) ⟨by linarith, hhigh'.le⟩

namespace Machine

/-- The argument of `exp` in R81, at a rate inside the envelope. -/
theorem alphaExponent_mem {fs : BitVec 32} (hrate : 269 ≤ fs.toNat) :
    (alphaExponent fs).isFinite = true ∧ (alphaExponent fs).toRat ∈ alphaExponentRange := by
  obtain ⟨hnum, hnumLow, hnumHigh⟩ := alphaNumerator_mem
  obtain ⟨hden, hdenLow, hdenHigh⟩ := F64.ofNat_rate_mem hrate fs.isLt
  have hpos : 0 < (F64.ofNat fs.toNat).toRat := by linarith
  refine (F64.div_roundsTo hnum hden hpos.ne').mem_Icc (F64.isValue_dyadic (2 ^ 52) 49 (by norm_num)).neg
    (F64.isValue_dyadic (2 ^ 52) 74 (by norm_num)).neg ⟨?_, ?_⟩
  · rw [le_div_iff₀ hpos]
    linarith
  · rw [div_le_iff₀ hpos]
    linarith

/-- `ALPHA` in F64 at a rate inside the envelope, for every `exp` within four units in the last place. -/
theorem alphaWithin_mem (off : Fin 9) {fs : BitVec 32} (hrate : 269 ≤ fs.toNat) :
    (alphaWithin off fs).isFinite = true ∧ (alphaWithin off fs).toRat ∈ Set.Icc (1 / 2 ^ 25 : ℚ) (1 - 1 / 2 ^ 13) := by
  obtain ⟨hfinite, hmem⟩ := alphaExponent_mem hrate
  obtain ⟨hexp, hlow, hhigh⟩ := F64.expWithin_mem off hfinite hmem
  refine (F64.sub_roundsTo F64.one_isFinite hexp).mem_Icc (F64.isValue_dyadic (2 ^ 52) 77 (by norm_num))
    (F64.isValue_dyadic (2 ^ 53 - 2 ^ 40) 53 (by norm_num)) ⟨?_, ?_⟩
  · rw [F64.one_toRat]
    linarith
  · rw [F64.one_toRat]
    linarith

/-- Settles O49: `ALPHA` lies between 2^-25 and 1 - 2^-13. -/
theorem alphaLiesBetweenZeroAndOne : Obligations.AlphaLiesBetweenZeroAndOne := by
  unfold Obligations.AlphaLiesBetweenZeroAndOne
  intro off fs hrate
  obtain ⟨hfinite, hlow, hhigh⟩ := alphaWithin_mem off hrate
  rw [F64.lt_iff F64.zero_isFinite hfinite, F64.lt_iff hfinite F64.one_isFinite, F64.zero_toRat, F64.one_toRat]
  exact ⟨lt_of_lt_of_le (by norm_num) hlow, lt_of_le_of_lt hhigh (by norm_num)⟩

end Machine

end Sys2Proof
end

section
/-! PROOFS. The step and the record of events: a step is the instruction of its request, and what each instruction
delivers (R48, R156, R224). -/

namespace Sys2Proof.Machine

/-! The next request -/

theorem step_of_inbox_nil {s : State} (h : s.inbox = []) : step s = .next s := by
  rw [step, h]

theorem step_of_inbox_cons {s : State} {r : Request} {rest : List Request} (h : s.inbox = r :: rest) :
    step s = runRequest s r rest := by
  rw [step, h]

theorem runRequest_of_ok {s : State} {r : Request} {rest : List Request} {i : Instr}
    (h : decode r.format r.word = .ok i) : runRequest s r rest = exec i (s.accept r rest) := by
  rw [runRequest, h]

theorem runRequest_of_unusedLabel {s : State} {r : Request} {rest : List Request} {u : BitVec 5}
    (h : decode r.format r.word = .error (.unusedLabel u)) :
    runRequest s r rest = .refused (.unusedLabel u) := by
  rw [runRequest, h]

/-- Settles O3: a request that decodes, an empty inbox, and an unused label. -/
theorem stepRunsTheDecodedInstruction : Obligations.StepRunsTheDecodedInstruction := by
  unfold Obligations.StepRunsTheDecodedInstruction
  refine ⟨fun s r rest i hinbox hdecode => ?_, fun s => step_of_inbox_nil, fun s r rest u hinbox hdecode => ?_⟩
  · rw [step_of_inbox_cons hinbox, runRequest_of_ok hdecode]
    rfl
  · rw [step_of_inbox_cons hinbox, runRequest_of_unusedLabel hdecode]

/-! The record of events -/

/-- `t` has delivered what `s` had, and at most one event more, to the sink bound in `s` (R156, R177). -/
def State.DeliversAtMostOne (s t : State) : Prop :=
  t.events = s.events ∨
    (s.sinkEn = true ∧ ∃ (inv : Bool) (code : Code), t.events = s.events ++ [⟨s.sink, s.sinkCtx, inv, code⟩])

/-- A numeric micro-operation that completes leaves the record of events as it is. -/
theorem events_of_guardFinite {v : F64} {s t u : State} (h : guardFinite v u = .next t) (hu : u.events = s.events) :
    t.events = s.events := by
  obtain ⟨-, rfl⟩ := (guardFinite_eq_next_iff _ _ _).mp h
  exact hu

theorem opZcn_events {s t : State} (h : opZcn s = .next t) : t.events = s.events := by
  obtain ⟨-, rfl⟩ := (opZcn_eq_next_iff_phaseAfterZcn s t).mp h
  rfl

theorem opSlc_events {s t : State} (h : opSlc s = .next t) : t.events = s.events := by
  rcases (opSlc_eq_next_iff s t).mp h with ⟨-, rfl⟩ | ⟨-, -, rfl⟩ <;> rfl

/-- The confirmation layer does not deliver; EMIT does (R150, R156). -/
theorem opCnf_events (s : State) : (opCnf s).events = s.events := by
  obtain ⟨c, i, n, w, h⟩ := opCnf_frame s
  rw [h]

/-- The configuration registers are no part of the record of events. -/
theorem State.config_events (s : State) (alpha spb : F64) :
    ({ s with alpha := alpha, spb := spb } : State).events = s.events := rfl

theorem opTbld_events (s : State) : (opTbld s).events = s.events := by
  unfold opTbld
  generalize builtTable = m
  rfl

theorem createInstance_events (fs : BitVec 32) (s : State) : (createInstance fs s).events = s.events := by
  rw [createInstance_eq]

theorem execBind_events {en : Bool} {sink ctx : Nat} {s t : State} (h : execBind en sink ctx s = .next t) :
    t.events = s.events := by
  obtain ⟨-, -, ⟨-, rfl⟩ | ⟨-, rfl⟩⟩ := (execBind_eq_next_iff en sink ctx s t).mp h <;> rfl

/-- EMIT delivers the event due where one is asked for and a sink is bound (R156). -/
theorem opEmit_deliversAtMostOne (s : State) : s.DeliversAtMostOne (opEmit s) := by
  rcases opEmit_cases s with ⟨-, hen, h⟩ | ⟨-, h⟩
  · exact .inr ⟨hen, s.wires.dinv, s.wires.dcode, by rw [h]; rfl⟩
  · exact .inl (by rw [h]; rfl)

/-- A bit boundary delivers at most its own decode, and only where a sink is bound (R145, R156). -/
theorem State.confirmed_deliversAtMostOne (s : State) (d : Option (Code × Bool)) :
    s.DeliversAtMostOne (s.confirmed d) := by
  cases hfilter : d.filter (fun _ => s.confirmation.emits d && s.sinkEn) with
  | none => exact .inl (by simp [State.confirmed, hfilter])
  | some p =>
    obtain ⟨-, hon⟩ := Option.filter_eq_some_iff.mp hfilter
    exact .inr ⟨(Bool.and_eq_true_iff.mp hon).2, p.2, p.1, by simp [State.confirmed, hfilter]⟩

/-- A SAMPLE has at most one bit boundary, so it delivers at most one event (R96). -/
theorem State.sampled_deliversAtMostOne (s : State) (x : F64) : s.DeliversAtMostOne (s.sampled x) := by
  rcases hr : Front.sample f64Ops Config.zcMode Config.nudgeDir s.front x with ⟨f, o⟩
  cases o with
  | none => exact .inl (by rw [State.sampled_of_none hr]; rfl)
  | some b =>
    rw [State.sampled_of_some hr]
    exact ((s.withNumeric f).shifted b).confirmed_deliversAtMostOne _

/-- Of all instructions only SAMPLE and EMIT deliver, and each at most one event. -/
theorem exec_deliversAtMostOne {i : Instr} {s t : State} (h : exec i s = .next t) : s.DeliversAtMostOne t := by
  have direct {u : State} (hnext : (Host.Outcome.next u : Result) = .next t) (hu : s.DeliversAtMostOne u) :
      s.DeliversAtMostOne t := (next_eq_next u t).mp hnext ▸ hu
  cases i with
  | create fs =>
    obtain ⟨-, -, -, ⟨-, rfl⟩ | ⟨-, rfl⟩⟩ := (execCreate_eq_next_iff fs s t).mp h
    · exact .inl (createInstance_events fs s)
    · exact .inl rfl
  | bind en sink ctx => exact .inl (execBind_events h)
  | sample x =>
    obtain ⟨w, rfl⟩ := (State.sameButWires_iff _ _).mp (execSample_registers h)
    exact s.sampled_deliversAtMostOne x
  | destroy =>
    obtain ⟨-, -, rfl⟩ := (execDestroy_eq_next_iff s t).mp h
    exact .inl rfl
  | zcn => exact .inl (opZcn_events h)
  | slc => exact .inl (opSlc_events h)
  | lpf | acc | phi => exact .inl (events_of_guardFinite h rfl)
  | cnf => exact direct h (.inl (opCnf_events s))
  | emit => exact direct h (opEmit_deliversAtMostOne s)
  | cfga => exact direct h (.inl (s.config_events (alphaOf s.fs) s.spb))
  | cfgs => exact direct h (.inl (s.config_events s.alpha (samplesPerBit f64Ops s.fs.toNat)))
  | tbld => exact direct h (.inl (opTbld_events s))
  | prv | wsha | wshb | cgen | syn | lut | cor | ext | top3 | romv | sel | init =>
    exact direct h (.inl rfl)

/-- Settles O8: the accepted request changes neither the record nor the binding, and its instruction delivers at most
one event. -/
theorem aStepDeliversAtMostOneEvent : Obligations.AStepDeliversAtMostOneEvent := by
  unfold Obligations.AStepDeliversAtMostOneEvent
  intro s t h
  rcases (step_eq_next_iff s t).mp h with ⟨-, rfl⟩ | ⟨r, rest, i, -, -, hexec⟩
  · exact .inl rfl
  · have haccepted : (s.accept r rest).DeliversAtMostOne t := exec_deliversAtMostOne hexec
    exact haccepted

end Sys2Proof.Machine
end

section
/-! PROOFS. The shift windows after a run of bits: which bit of the run stands where, and the word a candidate recovers
(R43, R110 to R113). -/

namespace Sys2Proof.Machine

/-! One bit shifted in -/

theorem bitWord_getLsbD_zero (b : Bool) : (bitWord b).getLsbD 0 = b := by
  cases b <;> rfl

theorem bitWord_getLsbD_succ (b : Bool) (i : Nat) : (bitWord b).getLsbD (i + 1) = false := by
  simp [bitWord]

theorem shiftedA_getLsbD_top (w : Word23) (b : Bool) : (shiftedA w b).getLsbD 22 = b := by
  cases b <;> simp [shiftedA, bitWord]

theorem shiftedA_getLsbD_of_lt (w : Word23) (b : Bool) {i : Nat} (h : i < 22) :
    (shiftedA w b).getLsbD i = w.getLsbD (i + 1) := by
  simp [shiftedA, h, Nat.add_comm]

theorem shiftedB_getLsbD_zero (w : Word23) (b : Bool) : (shiftedB w b).getLsbD 0 = b := by
  simp only [shiftedB, BitVec.getLsbD_or, BitVec.getLsbD_shiftLeft, bitWord_getLsbD_zero]
  rfl

theorem shiftedB_getLsbD_succ (w : Word23) (b : Bool) {i : Nat} (h : i < 22) :
    (shiftedB w b).getLsbD (i + 1) = w.getLsbD i := by
  have hi : i + 1 < 23 := by omega
  simp only [shiftedB, BitVec.getLsbD_or, BitVec.getLsbD_shiftLeft, bitWord_getLsbD_succ]
  simp [hi]

/-! A run of bits -/

/-- Window A holds the newest bits from the top down (R110). -/
theorem windowAAfter_getLsbD (a : Word23) (bits : List Bool) {k : Nat} (hk : k < bits.length) (hk' : k < 23) :
    (windowAAfter a bits).getLsbD (22 - k) = bits.reverse.getD k false := by
  induction bits using List.reverseRecOn generalizing k with
  | nil => cases hk
  | append_singleton bits b ih =>
    have hfold : windowAAfter a (bits ++ [b]) = shiftedA (windowAAfter a bits) b := by simp [windowAAfter]
    rw [hfold, List.reverse_concat]
    cases k with
    | zero => exact shiftedA_getLsbD_top _ _
    | succ k =>
      have hk : k < bits.length := by simpa using hk
      rw [shiftedA_getLsbD_of_lt _ _ (by omega), show 22 - (k + 1) + 1 = 22 - k by omega]
      exact ih hk (by omega)

/-- Window B holds the newest bits from the bottom up (R111). -/
theorem windowBAfter_getLsbD (b : Word23) (bits : List Bool) {k : Nat} (hk : k < bits.length) (hk' : k < 23) :
    (windowBAfter b bits).getLsbD k = bits.reverse.getD k false := by
  induction bits using List.reverseRecOn generalizing k with
  | nil => cases hk
  | append_singleton bits c ih =>
    have hfold : windowBAfter b (bits ++ [c]) = shiftedB (windowBAfter b bits) c := by simp [windowBAfter]
    rw [hfold, List.reverse_concat]
    cases k with
    | zero => exact shiftedB_getLsbD_zero _ _
    | succ k =>
      have hk : k < bits.length := by simpa using hk
      rw [shiftedB_getLsbD_succ _ _ (by omega)]
      exact ih hk (by omega)

/-- The bit sent k-th from the end of a run of 23. -/
theorem getD_reverse_of_length {bits : List Bool} (hlen : bits.length = 23) {i : Nat} (hi : i < 23) :
    bits.reverse.getD (22 - i) false = bits.getD i false := by
  rw [List.getD_reverse _ (by omega), hlen, show 23 - 1 - (22 - i) = i by omega]

/-- After 23 bits window A holds the first bit lowest (R43, R110). -/
theorem windowAAfter_getLsbD_of_length (a : Word23) {bits : List Bool} (hlen : bits.length = 23) {i : Nat}
    (hi : i < 23) : (windowAAfter a bits).getLsbD i = bits.getD i false := by
  have h := windowAAfter_getLsbD a bits (k := 22 - i) (by omega) (by omega)
  rwa [show 22 - (22 - i) = i by omega, getD_reverse_of_length hlen hi] at h

/-- After 23 bits window B holds the first bit highest (R43, R111). -/
theorem windowBAfter_getLsbD_of_length (b : Word23) {bits : List Bool} (hlen : bits.length = 23) {i : Nat}
    (hi : i < 23) : (windowBAfter b bits).getLsbD (22 - i) = bits.getD i false := by
  rw [windowBAfter_getLsbD b bits (by omega) (by omega), getD_reverse_of_length hlen hi]

theorem reversed23_getLsbD (w : Word23) {i : Nat} (hi : i < 23) : (reversed23 w).getLsbD i = w.getLsbD (22 - i) := by
  simp [reversed23, hi]

theorem windowAAfter_eq_reversed23 (a b : Word23) {bits : List Bool} (hlen : bits.length = 23) :
    windowAAfter a bits = reversed23 (windowBAfter b bits) := by
  refine BitVec.eq_of_getLsbD_eq fun i hi => ?_
  rw [reversed23_getLsbD _ hi, windowAAfter_getLsbD_of_length a hlen hi, windowBAfter_getLsbD_of_length b hlen hi]

/-! A word sent in either order and polarity -/

@[simp] theorem bitsLsbFirst_length (c : Word23) : (bitsLsbFirst c).length = 23 := by simp [bitsLsbFirst]

@[simp] theorem bitsMsbFirst_length (c : Word23) : (bitsMsbFirst c).length = 23 := by simp [bitsMsbFirst]

theorem bitsLsbFirst_getD (c : Word23) {i : Nat} (hi : i < 23) : (bitsLsbFirst c).getD i false = c.getLsbD i := by
  simp [bitsLsbFirst, hi]

theorem bitsMsbFirst_getD (c : Word23) {i : Nat} (hi : i < 23) :
    (bitsMsbFirst c).getD i false = c.getLsbD (22 - i) := by
  simp [bitsMsbFirst, hi]

/-- A word sent with the opposite polarity is its complement sent. -/
theorem bitsLsbFirst_map_not (c : Word23) : (bitsLsbFirst c).map not = bitsLsbFirst (~~~c) := by
  rw [bitsLsbFirst, bitsLsbFirst, List.map_map]
  refine List.map_congr_left fun i hi => ?_
  simp [List.mem_range.mp hi]

theorem bitsMsbFirst_map_not (c : Word23) : (bitsMsbFirst c).map not = bitsMsbFirst (~~~c) := by
  rw [bitsMsbFirst, bitsMsbFirst, List.map_map]
  refine List.map_congr_left fun i hi => ?_
  have hi : 22 - i < 23 := by omega
  simp [hi]

/-- Window A recovers a word sent with its lowest bit first, whatever it held (R113). -/
theorem windowAAfter_bitsLsbFirst (a c : Word23) : windowAAfter a (bitsLsbFirst c) = c :=
  BitVec.eq_of_getLsbD_eq fun _ hi => by
    rw [windowAAfter_getLsbD_of_length a (bitsLsbFirst_length c) hi, bitsLsbFirst_getD c hi]

/-- Window B recovers a word sent with its highest bit first, whatever it held (R113). -/
theorem windowBAfter_bitsMsbFirst (b c : Word23) : windowBAfter b (bitsMsbFirst c) = c := by
  refine BitVec.eq_of_getLsbD_eq fun i hi => ?_
  have h := windowBAfter_getLsbD_of_length b (bitsMsbFirst_length c) (i := 22 - i) (by omega)
  rwa [bitsMsbFirst_getD c (by omega), show 22 - (22 - i) = i by omega] at h

/-- Settles O45: each window recovers the word sent in its order, and the complement of the word sent inverted. -/
theorem theCandidatesRecoverASentWord : Obligations.TheCandidatesRecoverASentWord := by
  unfold Obligations.TheCandidatesRecoverASentWord
  refine ⟨fun a b bits hlen => ⟨fun i hi => ?_, windowAAfter_eq_reversed23 a b hlen⟩, fun a b c => ?_⟩
  · exact ⟨windowAAfter_getLsbD_of_length a hlen hi, windowBAfter_getLsbD_of_length b hlen hi⟩
  · rw [bitsLsbFirst_map_not, bitsMsbFirst_map_not]
    simp [candidateOf, candInverted, windowAAfter_bitsLsbFirst, windowBAfter_bitsMsbFirst]

end Sys2Proof.Machine
end

section
/-! PROOFS. The numeric part in exact real arithmetic under a negated signal (R44, R85). -/

namespace Sys2Proof.Machine

theorem filtered_exact_neg (alpha x y : ℝ) :
    filtered (exactOps ℝ) alpha (-x) (-y) = -filtered (exactOps ℝ) alpha x y := by
  rw [filtered_exact, filtered_exact]
  ring

/-- A crossing is a crossing in either direction (R91, R99). -/
theorem signChange_exact_strict_neg (prev y : ℝ) :
    signChange (exactOps ℝ) .strict (-prev) (-y) = signChange (exactOps ℝ) .strict prev y := by
  simp [signChange, exactOps, Bool.or_comm]

theorem phaseAfterZcn_exact_strict_neg (dir : NudgeDir) (spb prev y phase : ℝ) :
    phaseAfterZcn (exactOps ℝ) .strict dir spb (-prev) (-y) phase =
      phaseAfterZcn (exactOps ℝ) .strict dir spb prev y phase := by
  rw [phaseAfterZcn, phaseAfterZcn, signChange_exact_strict_neg]

theorem accumulated_exact (acc y : ℝ) : accumulated (exactOps ℝ) acc y = acc + y := rfl

theorem accumulated_exact_neg (acc y : ℝ) :
    accumulated (exactOps ℝ) (-acc) (-y) = -accumulated (exactOps ℝ) acc y := by
  rw [accumulated_exact, accumulated_exact, neg_add]

/-- The slicer is odd but at zero, which it slices to 0 either way (R44, R94). -/
theorem slicedBit_exact_neg {acc : ℝ} (h : acc ≠ 0) :
    slicedBit (exactOps ℝ) (-acc) = !slicedBit (exactOps ℝ) acc := by
  have hiff : 0 < -acc ↔ ¬0 < acc := by rw [neg_pos, not_lt, le_iff_lt_or_eq, or_iff_left h]
  simp only [slicedBit, exactOps, hiff, decide_not]

/-- The registers of type NUM under the negated signal: those that hold a sample, or a sum of samples, negated. -/
def Front.negated (f : Front ℝ) : Front ℝ := { f with lpfY := -f.lpfY, prevY := -f.prevY, bitAcc := -f.bitAcc }

/-- One negated sample: the registers negated, and a boundary where there was one, with the bit of the negated sum. -/
theorem Front.sample_negated (dir : NudgeDir) (f : Front ℝ) (x : ℝ) :
    Front.sample (exactOps ℝ) .strict dir f.negated (-x) =
      ((Front.sample (exactOps ℝ) .strict dir f x).1.negated,
        (Front.sample (exactOps ℝ) .strict dir f x).2.map fun _ =>
          slicedBit (exactOps ℝ) (-accumulated (exactOps ℝ) f.bitAcc (filtered (exactOps ℝ) f.alpha x f.lpfY))) := by
  have hzero : -(exactOps ℝ).zero = (exactOps ℝ).zero := neg_zero
  simp only [Front.sample, Front.negated, filtered_exact_neg, phaseAfterZcn_exact_strict_neg, accumulated_exact_neg]
  split
  · simp only [hzero, Option.map_some]
  · rfl

/-- A sliced bit is that of the sum up to its boundary (R94). -/
theorem Front.bit_of_sample {N : Type} {o : NumOps N} {mode : ZcMode} {dir : NudgeDir} {f : Front N} {x : N} {b : Bool}
    (h : (Front.sample o mode dir f x).2 = some b) :
    b = slicedBit o (accumulated o f.bitAcc (filtered o f.alpha x f.lpfY)) := by
  unfold Front.sample at h
  dsimp only at h
  split at h
  · exact (Option.some.inj h).symm
  · cases h

/-- Settles O58, from one negated sample and the slicer's odd symmetry. -/
theorem realNegatedSignalComplementsTheBits : Obligations.RealNegatedSignalComplementsTheBits := by
  unfold Obligations.RealNegatedSignalComplementsTheBits
  intro f x g r n
  have hn : n = (r.1.negated, r.2.map fun _ => slicedBit (exactOps ℝ) (-accumulated (exactOps ℝ) f.bitAcc
      (filtered (exactOps ℝ) f.alpha x f.lpfY))) := Front.sample_negated .asWritten f x
  rw [hn]
  refine ⟨rfl, Option.isSome_map, fun hsum => ?_⟩
  have hacc : accumulated (exactOps ℝ) f.bitAcc (filtered (exactOps ℝ) f.alpha x f.lpfY) ≠ 0 := hsum
  cases hr : r.2 with
  | none => rfl
  | some b => rw [Front.bit_of_sample hr, Option.map_some, Option.map_some, slicedBit_exact_neg hacc]

end Sys2Proof.Machine
end

section
/-! PROOFS. The encodings: a command word's payload and a micro-operation's label read back what was written, and a
label names one micro-operation (R56 to R58, R68). -/

namespace Sys2Proof

/-! Command words -/

/-- The payload over a selector (R56). -/
theorem payload_shiftRight (v : Nat) {op : Nat} (hop : op < 4) : (v * 4 + op) >>> 2 = v := by
  rw [Nat.shiftRight_eq_div_pow]
  omega

theorem bitField_payload {n : Nat} (v : BitVec n) {op : Nat} (hop : op < 4) : bitField (v.toNat * 4 + op) 2 n = v := by
  rw [bitField, payload_shiftRight _ hop, BitVec.ofNat_toNat, BitVec.setWidth_eq]

theorem decodeCmdAt_create (ctxw : Nat) (fs : BitVec 32) : decodeCmdAt ctxw (fs.toNat * 4) = .create fs := by
  have hsel : fs.toNat * 4 % 4 = 0 := Nat.mul_mod_left _ _
  rw [decodeCmdAt, hsel]
  exact congrArg Instr.create (bitField_payload fs (by decide : 0 < 4))

theorem decodeCmdAt_sample (ctxw : Nat) (x : F64) : decodeCmdAt ctxw (x.bits.toNat * 4 + 2) = .sample x := by
  have hsel : (x.bits.toNat * 4 + 2) % 4 = 2 := by omega
  rw [decodeCmdAt, hsel]
  exact congrArg (fun b => Instr.sample ⟨b⟩) (bitField_payload x.bits (by decide))

/-- BIND's enable is bit 2, its context the `ctxw` bits above it, its sink all bits above the context (R57). -/
theorem decodeCmdAt_bind (ctxw : Nat) (en : Bool) (sink : Nat) {ctx : Nat} (hctx : ctx < 2 ^ ctxw) :
    decodeCmdAt ctxw (((sink * 2 ^ ctxw + ctx) * 2 + en.toNat) * 4 + 1) = .bind en sink ctx := by
  generalize hw : ((sink * 2 ^ ctxw + ctx) * 2 + en.toNat) * 4 + 1 = w
  have hen : en.toNat < 2 := Bool.toNat_lt en
  have hsel : w % 4 = 1 := by omega
  have hbit : w.testBit 2 = en := by
    have hmod : w / 2 ^ 2 % 2 = en.toNat := by omega
    rw [Nat.testBit_eq_decide_div_mod_eq, hmod]
    cases en <;> rfl
  have hrest : w >>> 3 = sink * 2 ^ ctxw + ctx := by
    rw [Nat.shiftRight_eq_div_pow]
    omega
  have hsink : w >>> (ctxw + 3) = sink := by
    rw [Nat.add_comm, Nat.shiftRight_add, hrest, Nat.shiftRight_eq_div_pow, Nat.mul_comm,
      Nat.mul_add_div (Nat.two_pow_pos ctxw), Nat.div_eq_of_lt hctx, Nat.add_zero]
  have hctx' : (w >>> 3) % 2 ^ ctxw = ctx := by
    rw [hrest, Nat.mul_comm, Nat.mul_add_mod, Nat.mod_eq_of_lt hctx]
  rw [decodeCmdAt, hsel, hbit, hsink, hctx']
  rfl

/-- Settles O2: a command word by the fields of its payload, a micro-operation by its label. -/
theorem decodeInvertsEncode : Obligations.DecodeInvertsEncode := by
  unfold Obligations.DecodeInvertsEncode
  intro ctxw i hi
  cases i with
  | create fs => exact congrArg Except.ok (decodeCmdAt_create ctxw fs)
  | bind en sink ctx => exact congrArg Except.ok (decodeCmdAt_bind ctxw en sink (of_decide_eq_true hi))
  | sample x => exact congrArg Except.ok (decodeCmdAt_sample ctxw x)
  | _ => rfl

/-- Decoding inverts encoding at the width the implementation has. -/
theorem decode_encode {i : Instr} (h : i.wellFormed = true) : decode (encode i).1 (encode i).2 = .ok i :=
  decodeInvertsEncode Config.ctxw i h

/-! Micro-operation labels -/

/-- A label that decodes is the one its micro-operation is written as (R58). -/
theorem encodeAt_of_decodeUop {u : BitVec 5} {i : Instr} (ctxw : Nat) (h : decodeUop u = .ok i) :
    encodeAt ctxw i = (.uop, u.toNat) := by
  unfold decodeUop at h
  split at h <;> cases h
  all_goals
    next hu =>
      rw [hu]
      rfl

/-- No two labels name one micro-operation: each has one encoding. -/
theorem decodeUop_injective {u v : BitVec 5} {i : Instr} (hu : decodeUop u = .ok i) (hv : decodeUop v = .ok i) :
    u = v :=
  BitVec.eq_of_toNat_eq
    (congrArg Prod.snd ((encodeAt_of_decodeUop 0 hu).symm.trans (encodeAt_of_decodeUop 0 hv)))

/-- The ten unused labels (R58, R68). -/
theorem decodeUop_eq_unusedLabel_iff (u : BitVec 5) :
    decodeUop u = .error (.unusedLabel u) ↔ (0x12 ≤ u.toNat ∧ u.toNat ≤ 0x17) ∨ 0x1C ≤ u.toNat := by
  revert u
  decide

/-- Settles O1: the written words by evaluation, the labels by the laws above. -/
theorem writtenWordsDecode : Obligations.WrittenWordsDecode := by
  unfold Obligations.WrittenWordsDecode
  exact ⟨rfl, rfl, rfl, by decide, by decide, by decide, rfl, rfl, decodeUop_eq_unusedLabel_iff,
    fun _ _ _ => decodeUop_injective⟩

end Sys2Proof
end

section
/-! PROOFS. Runs of the machine on the requests for samples: no sample reads the pending requests, so a run may be cut
anywhere (R48, R72, R82, R174, R224). -/

namespace Sys2Proof.Machine

/-! The pending requests -/

/-- A state with other pending requests. -/
def State.withInbox (s : State) (l : List Request) : State := { s with inbox := l }

theorem State.withInbox_of_inbox_eq {s : State} {l : List Request} (h : s.inbox = l) : s.withInbox l = s := by
  subst h
  rfl

/-- An answer whose next state has other pending requests. -/
def withPending (o : Result) (l : List Request) : Result := andThen o (fun t => .next (t.withInbox l))

theorem andThen_withPending (o : Result) (l : List Request) (f : State → Result) :
    andThen (withPending o l) f = andThen o (fun t => f (t.withInbox l)) := by
  cases o <;> rfl

theorem withPending_andThen (o : Result) (f : State → Result) (l : List Request) :
    withPending (andThen o f) l = andThen o (fun t => withPending (f t) l) := by
  cases o <;> rfl

/-! SAMPLE neither reads nor writes the pending requests -/

theorem decodeCandidate_withInbox (s : State) (k : CandIdx) (l : List Request) :
    decodeCandidate (s.withInbox l) k = (decodeCandidate s k).withInbox l := by
  rw [decodeCandidate_eq, decodeCandidate_eq]
  rfl

theorem candidateLoop_withInbox (ks : List CandIdx) (s : State) (l : List Request) :
    ks.foldl decodeCandidate (s.withInbox l) = (ks.foldl decodeCandidate s).withInbox l := by
  induction ks generalizing s with
  | nil => rfl
  | cons k ks ih => rw [List.foldl_cons, List.foldl_cons, decodeCandidate_withInbox, ih]

theorem opCnf_withInbox (s : State) (l : List Request) : opCnf (s.withInbox l) = (opCnf s).withInbox l := by
  cases hf : s.wires.found with
  | false =>
    rw [opCnf_miss s hf, opCnf_miss (s.withInbox l) hf]
    rfl
  | true =>
    cases hm : flagMatch true s.wires.dcode s.wires.dinv s.lastCode s.lastInv with
    | false =>
      rw [opCnf_different s hf hm, opCnf_different (s.withInbox l) hf hm]
      rfl
    | true =>
      rw [opCnf_match s hf hm, opCnf_match (s.withInbox l) hf hm]
      rfl

theorem opEmit_withInbox (s : State) (l : List Request) : opEmit (s.withInbox l) = (opEmit s).withInbox l := by
  have hdue : flagEmitted (s.withInbox l).wires.emitReq (s.withInbox l).sinkEn =
      flagEmitted s.wires.emitReq s.sinkEn := rfl
  rw [opEmit, opEmit, hdue]
  split <;> rfl

theorem sampleBoundary_withInbox (s : State) (l : List Request) :
    sampleBoundary (s.withInbox l) = (sampleBoundary s).withInbox l := by
  have hcgen : opCgen (opWshb (opWsha (s.withInbox l))) = (opCgen (opWshb (opWsha s))).withInbox l := rfl
  have hsel (t : State) : opSel (t.withInbox l) = (opSel t).withInbox l := rfl
  rw [sampleBoundary, hcgen, candidateLoop_withInbox, hsel, opCnf_withInbox, opEmit_withInbox, sampleBoundary]

theorem sampleTail_withInbox (s : State) (l : List Request) :
    sampleTail (s.withInbox l) = (sampleTail s).withInbox l := by
  have hbnd : (s.withInbox l).wires.bnd = s.wires.bnd := rfl
  rw [sampleTail, sampleTail, hbnd, sampleBoundary_withInbox]
  split <;> rfl

theorem sampleFront_withInbox (s : State) (l : List Request) (hx : s.wires.x.isFinite = true) :
    sampleFront (s.withInbox l) = withPending (sampleFront s) l := by
  have hfront : (s.withInbox l).front = s.front := rfl
  have hwires : (s.withInbox l).wires = s.wires := rfl
  rw [sampleFront_eq s hx, sampleFront_eq (s.withInbox l) hx, hfront, hwires]
  split <;> rfl

/-- What a host operation checks does not read the pending requests. -/
theorem guardHostOp_withInbox (op : HostOp) (need : Life) {s : State} {l : List Request} {act : State → Result}
    (hact : act (s.withInbox l) = withPending (act s) l) :
    guardHostOp op need (s.withInbox l) act = withPending (guardHostOp op need s act) l := by
  have hbusy : (s.withInbox l).busy = s.busy := rfl
  have hlife : (s.withInbox l).life = s.life := rfl
  rw [guardHostOp, guardHostOp, hbusy, hlife, hact]
  split
  · rfl
  · split <;> rfl

theorem execSample_withInbox (x : F64) (s : State) (l : List Request) :
    execSample x (s.withInbox l) = withPending (execSample x s) l := by
  refine guardHostOp_withInbox _ _ ?_
  let u : State := { s with wires := { s.wires with x := x } }
  by_cases hx : x.isFinite = true
  · rw [if_pos hx, if_pos hx]
    have hfront : sampleFront (u.withInbox l) = withPending (sampleFront u) l := sampleFront_withInbox u l hx
    show andThen (sampleFront (u.withInbox l)) _ = withPending (andThen (sampleFront u) _) l
    rw [hfront, andThen_withPending, withPending_andThen]
    simp only [sampleTail_withInbox]
    rfl
  · rw [if_neg hx, if_neg hx]
    rfl

/-- A SAMPLE leaves what a request sets but the transients. -/
theorem execSample_requestFields {x : F64} {s t : State} (h : execSample x s = .next t) :
    t.busy = s.busy ∧ t.allocOk = s.allocOk ∧ t.inbox = s.inbox := by
  rcases sampleWritesOnlyTheStreamingState s t x h with
    ⟨_, _, _, _, _, rfl⟩ | ⟨_, _, _, _, _, _, _, _, _, _, _, rfl⟩
  · exact ⟨rfl, rfl, rfl⟩
  · exact ⟨rfl, rfl, rfl⟩

/-! Runs -/

theorem coreRun_succ_of_next {M : Host.Core} {s t : M.State} (h : M.step s = .next t) (k : Nat) :
    M.run (k + 1) s = M.run k t := by
  rw [Host.Core.run, h]

theorem coreRun_succ_of_refused {M : Host.Core} {s : M.State} {r : M.Refusal} (h : M.step s = .refused r) (k : Nat) :
    M.run (k + 1) s = .refused r := by
  rw [Host.Core.run, h]

/-- A run of the machine, over its own states. -/
def runSteps (k : Nat) (s : State) : Result := Sys2Proof.core.run k s

theorem runSteps_succ (k : Nat) (s : State) : runSteps (k + 1) s = andThen (step s) (runSteps k) := by
  cases h : step s with
  | next t => exact coreRun_succ_of_next h k
  | fault r => exact nomatch r
  | refused r => exact coreRun_succ_of_refused h k

theorem runSteps_add (j k : Nat) (s : State) :
    runSteps (j + k) s = andThen (runSteps j s) (runSteps k) := by
  induction j generalizing s with
  | zero => rw [Nat.zero_add]; rfl
  | succ j ih =>
    rw [Nat.succ_add, runSteps_succ, runSteps_succ]
    cases step s with
    | next t => exact ih t
    | fault r => rfl
    | refused r => rfl

/-- Without requests the block waits (R224). -/
theorem runSteps_of_inbox_nil (k : Nat) {s : State} (h : s.inbox = []) : runSteps k s = .next s := by
  induction k with
  | zero => rfl
  | succ k ih => rw [runSteps_succ, step_of_inbox_nil h]; exact ih

/-! The samples of a call -/

/-- The samples of a call one after another, each with the candidate of its request in turn. -/
def sampleCalls : List F64 → State → Result
  | [], s => .next s
  | x :: xs, s => andThen (execSample x (s.turnTo .a)) (sampleCalls xs)

theorem sampleCalls_append (xs ys : List F64) (s : State) :
    sampleCalls (xs ++ ys) s = andThen (sampleCalls xs s) (sampleCalls ys) := by
  induction xs generalizing s with
  | nil => rfl
  | cons x xs ih =>
    simp only [List.cons_append, sampleCalls]
    cases execSample x (s.turnTo .a) <;> simp [andThen, ih]

theorem sampleCalls_requestFields {xs : List F64} {s t : State} (h : sampleCalls xs s = .next t) :
    t.busy = s.busy ∧ t.allocOk = s.allocOk ∧ t.inbox = s.inbox := by
  induction xs generalizing s with
  | nil =>
    cases h
    exact ⟨rfl, rfl, rfl⟩
  | cons x xs ih =>
    obtain ⟨u, hu, hrest⟩ := (andThen_eq_next_iff _ _ _).mp h
    obtain ⟨hbusy, halloc, hinbox⟩ := execSample_requestFields hu
    obtain ⟨hbusy', halloc', hinbox'⟩ := ih hrest
    exact ⟨hbusy'.trans hbusy, halloc'.trans halloc, hinbox'.trans hinbox⟩

/-- The step that takes a request for a sample runs that sample. -/
theorem step_sampleRequest (x : F64) {s : State} (rest : List Request) (hbusy : s.busy = false) :
    step (s.withInbox (requestOf (.sample x) .a s.allocOk :: rest)) =
      withPending (execSample x (s.turnTo .a)) rest := by
  have haccept : (s.withInbox (requestOf (.sample x) .a s.allocOk :: rest)).accept
      (requestOf (.sample x) .a s.allocOk) rest = (s.turnTo .a).withInbox rest := by
    rw [State.accept, show (requestOf (.sample x) .a s.allocOk).fromSink = s.busy from hbusy.symm]
    rfl
  rw [step_of_inbox_cons rfl, runRequest_of_ok (i := .sample x) (decode_encode rfl), haccept]
  exact execSample_withInbox x (s.turnTo .a) rest

/-- As many steps as a call has samples run these, and leave the requests behind them pending. -/
theorem runSteps_sampleRequests (xs : List F64) (l : List Request) {s : State} (hbusy : s.busy = false) :
    runSteps xs.length (s.withInbox (sampleRequests s.allocOk xs ++ l)) =
      withPending (sampleCalls xs s) l := by
  induction xs generalizing s with
  | nil => rfl
  | cons x xs ih =>
    have hstep : step (s.withInbox (sampleRequests s.allocOk (x :: xs) ++ l)) =
        withPending (execSample x (s.turnTo .a)) (sampleRequests s.allocOk xs ++ l) :=
      step_sampleRequest x _ hbusy
    rw [List.length_cons, runSteps_succ, hstep, andThen_withPending, sampleCalls, withPending_andThen]
    cases h : execSample x (s.turnTo .a) with
    | next t =>
      obtain ⟨hbusy', halloc, -⟩ := execSample_requestFields h
      have halloc' : s.allocOk = t.allocOk := halloc.symm
      rw [halloc']
      exact ih (hbusy'.trans hbusy)
    | fault r => rfl
    | refused r => rfl

/-- A call: its samples, then the idle steps. -/
theorem runSteps_call (xs : List F64) (k : Nat) {s : State} (hbusy : s.busy = false) :
    runSteps (xs.length + k) (s.withInbox (sampleRequests s.allocOk xs)) =
      withPending (sampleCalls xs s) [] := by
  rw [runSteps_add, ← List.append_nil (sampleRequests s.allocOk xs), runSteps_sampleRequests xs [] hbusy]
  cases sampleCalls xs s with
  | next t => exact runSteps_of_inbox_nil k rfl
  | fault r => rfl
  | refused r => rfl

/-- A call that nothing precedes ends where its samples end, however many idle steps follow. -/
theorem runSteps_call_eq_next_iff (xs : List F64) (k : Nat) {s t : State} (hbusy : s.busy = false)
    (hinbox : s.inbox = []) :
    runSteps (xs.length + k) (s.withInbox (sampleRequests s.allocOk xs)) = .next t ↔ sampleCalls xs s = .next t := by
  have hleft {u : State} (hu : sampleCalls xs s = .next u) : u.withInbox [] = u := by
    obtain ⟨-, -, hkept⟩ := sampleCalls_requestFields hu
    exact State.withInbox_of_inbox_eq (hkept.trans hinbox)
  rw [runSteps_call xs k hbusy, withPending, andThen_eq_next_iff]
  constructor
  · rintro ⟨u, hu, ht⟩
    rw [hleft hu, next_eq_next] at ht
    rw [ht]
    exact hu
  · intro ht
    exact ⟨t, ht, congrArg Host.Outcome.next (hleft ht)⟩

/-- The samples of a call are those of the operations it expands to, outside the transients. -/
theorem execAll_of_sampleCalls {xs : List F64} {s t : State} (w : Wires) (h : sampleCalls xs s = .next t) :
    ∃ t', execAll (processOps xs) { s with wires := w } = .next t' ∧ t.sameButWires t' := by
  induction xs generalizing s w with
  | nil =>
    cases h
    exact ⟨_, rfl, rfl⟩
  | cons x xs ih =>
    obtain ⟨u, hu, hrest⟩ := (andThen_eq_next_iff _ _ _).mp h
    obtain ⟨u', hu', hsame⟩ := sampleDoesNotDependOnTransients (s.turnTo .a) u x w hu
    obtain ⟨w', rfl⟩ := (State.sameButWires_iff u u').mp hsame
    obtain ⟨t', ht', hsame'⟩ := ih w' hrest
    exact ⟨t', (andThen_eq_next_iff _ _ _).mpr ⟨_, hu', ht'⟩, hsame'⟩

/-- Settles O52: each call is its samples, these append, and outside the transients they are the operations of O53. -/
theorem processMayBeCutAnywhere : Obligations.ProcessMayBeCutAnywhere := by
  unfold Obligations.ProcessMayBeCutAnywhere
  intro xs ys m n s u v hinbox hbusy hu hv
  have hxs : sampleCalls xs s = .next u := (runSteps_call_eq_next_iff xs m hbusy hinbox).mp hu
  obtain ⟨hbusy', halloc, hinbox'⟩ := sampleCalls_requestFields hxs
  rw [← halloc] at hv
  have hys : sampleCalls ys u = .next v :=
    (runSteps_call_eq_next_iff ys n (hbusy'.trans hbusy) (hinbox'.trans hinbox)).mp hv
  have hall : sampleCalls (xs ++ ys) s = .next v := by
    rw [sampleCalls_append, hxs]
    exact hys
  constructor
  · have hrun := (runSteps_call_eq_next_iff (xs ++ ys) 0 hbusy hinbox).mpr hall
    rw [Nat.add_zero, List.length_append] at hrun
    exact hrun
  · obtain ⟨v', hv', hsame⟩ := execAll_of_sampleCalls s.wires hall
    obtain ⟨w, rfl⟩ := (State.sameButWires_iff v v').mp hsame
    obtain ⟨hfront, _, hrest⟩ := theMachineIsTheDecoderOverF64 (xs ++ ys) s _ hv'
    exact ⟨hfront, v.wires, congrArg (fun r : State => { r with wires := v.wires }) hrest⟩

end Sys2Proof.Machine
end

section
/-! PROOFS. The micro-operations that complete on a condition of their operands alone: LPF, PRV, ACC, PHI, and the four
of CREATE (R80, R81, R83, R90, R92, R93, R123, R210). -/

namespace Sys2Proof.Machine

theorem filtered_f64 (alpha x y : F64) :
    filtered f64Ops alpha x y = F64.add (F64.mul alpha x) (F64.mul (F64.sub F64.one alpha) y) := rfl

theorem accumulated_f64 (acc y : F64) : accumulated f64Ops acc y = F64.add acc y := rfl

theorem advancedPhase_f64 (phase : F64) : advancedPhase f64Ops phase = F64.add phase F64.one := rfl

/-- Settles O23: LPF goes through where the filtered value is finite. -/
theorem lpfWritesTheFilteredValue : Obligations.LpfWritesTheFilteredValue := by
  unfold Obligations.LpfWritesTheFilteredValue
  rintro s y rfl hfinite
  rw [← filtered_f64] at hfinite ⊢
  exact (opLpf_eq_next_iff s _).mpr ⟨hfinite, rfl⟩

/-- Settles O25: PRV cannot stop, and ACC and PHI go through where their sum is finite. -/
theorem prvAccPhiWriteOneRegisterEach : Obligations.PrvAccPhiWriteOneRegisterEach := by
  unfold Obligations.PrvAccPhiWriteOneRegisterEach
  refine ⟨fun s => ?_, fun s hfinite => ?_, fun s hfinite => ?_⟩
  · show execPrv s = _
    rw [execPrv, opPrv]
  · rw [← accumulated_f64] at hfinite ⊢
    exact (opAcc_eq_next_iff s _).mpr ⟨hfinite, rfl⟩
  · rw [← advancedPhase_f64] at hfinite ⊢
    exact (opPhi_eq_next_iff s _).mpr ⟨hfinite, rfl⟩

/-- Settles O37: none of the four can stop; `exp` is off by what the implementation fixed for the argument. -/
theorem configurationMicroOperationsComplete : Obligations.ConfigurationMicroOperationsComplete := by
  unfold Obligations.ConfigurationMicroOperationsComplete
  refine ⟨fun s => ⟨Config.expUlp (alphaExponent s.fs).bits, ?_⟩, fun s => ?_, fun s => ?_, fun s => ?_⟩
  · show execCfga s = _
    rw [execCfga, opCfga, alphaOf, alphaWithin, alphaExponent]
  · show execCfgs s = _
    rw [execCfgs, opCfgs, samplesPerBit_f64]
  · show execTbld s = _
    rw [execTbld, opTbld]
  · exact ⟨Config.freeSink s.freeIdx, Config.freeCtx s.freeIdx, s.freeIdx + 1, rfl⟩

end Sys2Proof.Machine
end

section
/-! SUPPORT. What a finite sum or product says of its operands, and the one rounding of `ofUnits` under a change of
sign (R9). -/

namespace Sys2Proof

/-! Operands of a finite result -/

/-- A finite sum has a finite second term. -/
theorem F64.isFinite_of_add_isFinite_right {a b : F64} (h : (F64.add a b).isFinite = true) : b.isFinite = true := by
  have ha := F64.isFinite_of_add_isFinite a b h
  by_contra hb
  rw [F64.add, if_neg (by simp [hb])] at h
  split at h
  · exact Bool.false_ne_true (F64.isFinite_nan.symm.trans h)
  · exact hb h

theorem F64.pack_infBits_isFinite (neg : Bool) : (F64.pack neg F64.infBits).isFinite = false := by
  cases neg <;> decide

/-- A finite product has a finite first factor. -/
theorem F64.isFinite_of_mul_isFinite {a b : F64} (h : (F64.mul a b).isFinite = true) : a.isFinite = true := by
  by_contra ha
  rw [F64.mul, if_neg (by simp [ha])] at h
  split at h
  · exact Bool.false_ne_true (F64.isFinite_nan.symm.trans h)
  · split at h
    · exact Bool.false_ne_true (F64.isFinite_nan.symm.trans h)
    · exact Bool.false_ne_true ((F64.pack_infBits_isFinite _).symm.trans h)

/-! Sums and products of finite values -/

theorem F64.add_eq_ofUnits {a b : F64} (ha : a.isFinite = true) (hb : b.isFinite = true) :
    F64.add a b = F64.ofUnits (a.units + b.units) 1 (a.sign && b.sign) := by
  rw [F64.add, ha, hb, Bool.and_self, if_pos rfl]

theorem F64.mul_eq_ofUnits {a b : F64} (ha : a.isFinite = true) (hb : b.isFinite = true) :
    F64.mul a b = F64.ofUnits (a.units * b.units) (2 ^ 1074) (a.sign ^^ b.sign) := by
  rw [F64.mul, ha, hb, Bool.and_self, if_pos rfl]

theorem F64.ofUnits_zero (den : Nat) (zeroNeg : Bool) : F64.ofUnits 0 den zeroNeg = F64.pack zeroNeg 0 := if_pos rfl

theorem F64.roundBits_lt (num den : Nat) : F64.roundBits num den < 2 ^ 63 :=
  (min_le_right _ _).trans_lt (by decide)

theorem F64.ofUnits_of_ne_zero {num : Int} (den : Nat) (zeroNeg : Bool) (h : num ≠ 0) :
    F64.ofUnits num den zeroNeg = F64.pack (decide (num < 0)) (F64.roundBits num.natAbs den) := if_neg h

theorem F64.ofUnits_sign {num : Int} {den : Nat} {zeroNeg : Bool} (h : num ≠ 0) :
    (F64.ofUnits num den zeroNeg).sign = decide (num < 0) := by
  rw [F64.ofUnits_of_ne_zero _ _ h, F64.pack_sign _ _ (F64.roundBits_lt _ _)]

/-! A change of sign -/

/-- Two finite values that differ in sign alone; the two zeros count as opposite to each other and to themselves. -/
def F64.Opposite (a b : F64) : Prop := a.isFinite = true ∧ b.isFinite = true ∧ b.toRat = -a.toRat

theorem F64.Opposite.units {a b : F64} (h : F64.Opposite a b) : b.units = -a.units := by
  obtain ⟨-, -, hvalue⟩ := h
  rw [F64.toRat, F64.toRat, ← neg_div, div_left_inj' (by positivity)] at hvalue
  exact_mod_cast hvalue

theorem F64.pack_toRat (neg : Bool) {n : Nat} (hn : n < 2 ^ 63) :
    (F64.pack neg n).toRat = signedUnits neg (magOfBits n) := by
  rw [F64.toRat_eq_signedUnits, F64.pack_sign _ _ hn, F64.pack_toNat_mod _ _ hn]

/-- Rounding to nearest, ties to even, does not look at the sign. -/
theorem F64.ofUnits_opposite {num : Int} {den : Nat} {zeroNeg : Bool} (zeroNeg' : Bool)
    (hfinite : (F64.ofUnits num den zeroNeg).isFinite = true) :
    F64.Opposite (F64.ofUnits num den zeroNeg) (F64.ofUnits (-num) den zeroNeg') := by
  by_cases hnum : num = 0
  · subst hnum
    rw [neg_zero, F64.ofUnits_zero, F64.ofUnits_zero]
    refine ⟨by cases zeroNeg <;> decide, by cases zeroNeg' <;> decide, ?_⟩
    rw [F64.pack_toRat _ (by norm_num), F64.pack_toRat _ (by norm_num), magOfBits_zero]
    simp [signedUnits]
  · have hn := F64.roundBits_lt num.natAbs den
    have hsign : decide (-num < 0) = !decide (num < 0) := by
      rw [← decide_not]
      exact decide_eq_decide.mpr (by omega)
    refine ⟨hfinite, ?_⟩
    rw [F64.ofUnits_of_ne_zero _ _ hnum] at hfinite ⊢
    rw [F64.ofUnits_of_ne_zero _ _ (neg_ne_zero.mpr hnum), Int.natAbs_neg, hsign, F64.pack_toRat _ hn,
      F64.pack_toRat _ hn, F64.isFinite_iff, F64.pack_toNat_mod _ _ hn]
    rw [F64.isFinite_iff, F64.pack_toNat_mod _ _ hn] at hfinite
    refine ⟨hfinite, ?_⟩
    cases decide (num < 0) <;> simp [signedUnits, neg_div]

theorem F64.add_opposite {a b a' b' : F64} (ha : F64.Opposite a a') (hb : F64.Opposite b b')
    (hfinite : (F64.add a b).isFinite = true) : F64.Opposite (F64.add a b) (F64.add a' b') := by
  have hunits : a'.units + b'.units = -(a.units + b.units) := by rw [ha.units, hb.units, neg_add]
  rw [F64.add_eq_ofUnits ha.1 hb.1] at hfinite ⊢
  rw [F64.add_eq_ofUnits ha.2.1 hb.2.1, hunits]
  exact F64.ofUnits_opposite _ hfinite

theorem F64.mul_opposite {c a a' : F64} (hc : c.isFinite = true) (ha : F64.Opposite a a')
    (hfinite : (F64.mul c a).isFinite = true) : F64.Opposite (F64.mul c a) (F64.mul c a') := by
  have hunits : c.units * a'.units = -(c.units * a.units) := by rw [ha.units, mul_neg]
  rw [F64.mul_eq_ofUnits hc ha.1] at hfinite ⊢
  rw [F64.mul_eq_ofUnits hc ha.2.1, hunits]
  exact F64.ofUnits_opposite _ hfinite

namespace Machine

/-- Settles O48: products and the sum of opposite values are opposite, and a finite sum has finite terms. -/
theorem f64FilterIsSymmetricUnderNegation : Obligations.F64FilterIsSymmetricUnderNegation := by
  unfold Obligations.F64FilterIsSymmetricUnderNegation
  intro alpha x y x' y' halpha hx hy hx' hy' hxneg hyneg hfinite
  rw [filtered_f64] at hfinite
  rw [filtered_f64, filtered_f64]
  have hfed := F64.isFinite_of_add_isFinite _ _ hfinite
  have hback := F64.isFinite_of_add_isFinite_right hfinite
  have hsum := F64.add_opposite (F64.mul_opposite halpha ⟨hx, hx', hxneg⟩ hfed)
    (F64.mul_opposite (F64.isFinite_of_mul_isFinite hback) ⟨hy, hy', hyneg⟩ hback) hfinite
  exact hsum.2

end Machine
end Sys2Proof
end

section
/-! PROOFS. Silence (R86, R159(f)): a zero sample from a filter, an accumulator and windows at zero leaves them there,
and windows at zero hold no decode. -/

namespace Sys2Proof

theorem F64.zero_units : F64.zero.units = 0 := by decide

theorem F64.zero_sign : F64.zero.sign = false := by decide

theorem F64.mul_posZero {c : F64} (hc : c.isFinite = true) : F64.mul c F64.zero = F64.pack c.sign 0 := by
  rw [F64.mul_eq_ofUnits hc F64.zero_isFinite, F64.zero_units, F64.zero_sign, Int.mul_zero, Bool.xor_false,
    F64.ofUnits_zero]

/-- Two zeros add up to the positive one, unless both are negative. -/
theorem F64.add_signedZeros {neg neg' : Bool} (h : (neg && neg') = false) :
    F64.add (F64.pack neg 0) (F64.pack neg' 0) = F64.zero := by
  revert h
  cases neg <;> cases neg' <;> decide

/-- A negative number taken from 1 leaves a positive one. -/
theorem F64.sign_and_one_sub_sign {c : F64} (hc : c.isFinite = true) :
    (c.sign && (F64.sub F64.one c).sign) = false := by
  cases hs : c.sign
  · exact Bool.false_and _
  · have hone : 0 < F64.one.units := by
      have hvalue : (F64.one.units : ℚ) / 2 ^ 1074 = 1 := F64.one_toRat
      have hpos := (div_pos_iff_of_pos_right (by positivity)).mp (hvalue.symm ▸ one_pos)
      exact_mod_cast hpos
    have hneg : 0 ≤ (F64.neg c).units := by
      rw [F64.units, F64.neg_sign, hs]
      exact Int.natCast_nonneg _
    rw [Bool.true_and, F64.sub, F64.add_eq_ofUnits F64.one_isFinite (F64.neg_isFinite hc), F64.ofUnits_sign (by omega),
      decide_eq_false (by omega)]

namespace Machine

/-! The numeric part -/

/-- R86: the filter at zero stays at the positive zero, whatever the coefficient. -/
theorem filtered_zero {alpha : F64} (hfinite : (filtered f64Ops alpha F64.zero F64.zero).isFinite = true) :
    filtered f64Ops alpha F64.zero F64.zero = F64.zero := by
  rw [filtered_f64] at hfinite ⊢
  have halpha := F64.isFinite_of_mul_isFinite (F64.isFinite_of_add_isFinite _ _ hfinite)
  have hrest := F64.isFinite_of_mul_isFinite (F64.isFinite_of_add_isFinite_right hfinite)
  rw [F64.mul_posZero halpha, F64.mul_posZero hrest]
  exact F64.add_signedZeros (F64.sign_and_one_sub_sign halpha)

/-- The filter, the latched value and the accumulator at zero. -/
def Front.Silent (f : Front F64) : Prop := f.lpfY = F64.zero ∧ f.prevY = F64.zero ∧ f.bitAcc = F64.zero

/-- A zero sample keeps the numeric part silent, and a boundary slices a 0. -/
theorem Front.Silent.sample {f : Front F64} (h : f.Silent) {mode : ZcMode} {dir : NudgeDir}
    (henv : Front.inEnvelope f64Instance mode dir f F64.zero = true) :
    (Front.sample f64Ops mode dir f F64.zero).1.Silent ∧
      ∀ b ∈ (Front.sample f64Ops mode dir f F64.zero).2, b = false := by
  obtain ⟨hy, hprev, hacc⟩ := h
  obtain ⟨-, hfinite, -⟩ := (inEnvelope_iff _ _ _ _ _).mp henv
  rw [hy] at hfinite
  have hy' : filtered f64Ops f.alpha F64.zero f.lpfY = F64.zero := by
    rw [hy]
    exact filtered_zero hfinite
  have hacc' : accumulated f64Ops f.bitAcc F64.zero = F64.zero := by
    rw [hacc]
    decide
  have hbit : slicedBit f64Ops F64.zero = false := by decide
  unfold Front.sample
  dsimp only
  rw [hy', hacc', hbit]
  split
  · exact ⟨⟨rfl, rfl, rfl⟩, by simp⟩
  · exact ⟨⟨rfl, rfl, rfl⟩, by simp⟩

/-! The windows -/

theorem storePattern_read_of_valid {m : Memory} {s : Syndrome} (h : (m.read s).valid = true) (e : Word23) :
    (storePattern m e).read s = m.read s := by
  unfold storePattern
  split
  · rfl
  · next hfree =>
    refine Memory.read_write_other _ _ _ _ ?_
    rintro rfl
    exact hfree h

/-- The first writer of an entry wins (R123). -/
theorem foldl_storePattern_read_of_valid {m : Memory} {s : Syndrome} (h : (m.read s).valid = true)
    (es : List Word23) : (es.foldl storePattern m).read s = m.read s := by
  induction es generalizing m with
  | nil => rfl
  | cons e es ih =>
    have hfirst := storePattern_read_of_valid h e
    exact (ih (by rw [hfirst]; exact h)).trans hfirst

/-- Entry 0 of the table is the zero pattern (R123 step 2, R124). -/
theorem builtTable_read_zero : builtTable.read 0 = ⟨true, 0⟩ := by
  have hstart : tableStart.read 0 = ⟨true, 0⟩ := Memory.read_write_same _ _ _ Memory.wf_empty
  exact (foldl_storePattern_read_of_valid (by rw [hstart]) _).trans hstart

/-- With code 0 unrecognized (R143), windows at zero hold no decode: they recover code 0, and their complements data
bits whose top three are set. -/
theorem decodeOf_zero {table : Memory} {rom : RomBits} (htable : table.read 0 = ⟨true, 0⟩)
    (hrom : romRead rom 0 = false) : decodeOf table rom 0 0 = none := by
  have hzero : codeOf table rom 0 = none := by
    have hsyndrome : syndrome 0 = 0 := by decide
    have hcode : codeField (dataField (0 ^^^ 0)) = 0 := by decide
    simp only [codeOf, hsyndrome, htable, hcode, hrom, Bool.and_false, Bool.false_eq_true, if_false]
  have hones : codeOf table rom (~~~0) = none := by
    have hsyndrome : syndrome (~~~0) = 0 := by decide
    have htop : (zero3Field (dataField (~~~0 ^^^ 0)) == 0) = false := by decide
    simp only [codeOf, hsyndrome, htable, htop, Bool.and_false, Bool.false_and, Bool.false_eq_true, if_false]
  simp only [decodeOf, hzero, hones]

theorem romRead_zero_of_admissible {rom : RomBits} (h : romAdmissible rom = true) : romRead rom 0 = false := by
  simp only [romAdmissible, List.all_cons, List.all_nil, Bool.and_eq_true, Bool.not_eq_true'] at h
  obtain ⟨-, -, hzero, -⟩ := h
  exact hzero

/-! The state -/

/-- The registers of a decoder that has heard nothing but silence. -/
def State.Silent (s : State) : Prop :=
  romAdmissible s.codeRom = true ∧ s.synTable = builtTable ∧ s.front.Silent ∧ s.windowA = 0 ∧ s.windowB = 0 ∧
    s.lastCode = none ∧ s.lastInv = false ∧ s.counter = 0

/-- A bit 0 into windows at zero is a miss, with nothing left to decay. -/
theorem State.Silent.boundary {s : State} (h : s.Silent) : s.boundary false = s := by
  obtain ⟨hrom, htable, -, ha, hb, -, -, hcounter⟩ := h
  have hshiftA : shiftedA s.windowA false = s.windowA := by rw [ha]; decide
  have hshiftB : shiftedB s.windowB false = s.windowB := by rw [hb]; decide
  have hshifted : s.shifted false = s := by rw [State.shifted, hshiftA, hshiftB]
  have hread : s.synTable.read 0 = ⟨true, 0⟩ := by rw [htable, builtTable_read_zero]
  have hdecode : s.windowDecode = none := by
    rw [State.windowDecode, ha, hb]
    exact decodeOf_zero hread (romRead_zero_of_admissible hrom)
  have hdecay : s.counter - 1 = s.counter := by rw [hcounter]
  rw [State.boundary, hshifted, hdecode, confirmed_none, hdecay]

/-- A zero sample keeps the registers silent, and is counted. -/
theorem State.Silent.sampled {s : State} (h : s.Silent) (henv : s.sampleInEnvelope F64.zero = true) :
    (s.sampled F64.zero).Silent ∧ (s.sampled F64.zero).events = s.events ∧
      (s.sampled F64.zero).nSample = s.nSample + 1 := by
  obtain ⟨hrom, htable, hfront, hrest⟩ := h
  obtain ⟨hsilent, hbit⟩ := hfront.sample henv
  rcases hr : Front.sample f64Ops Config.zcMode Config.nudgeDir s.front F64.zero with ⟨f, o⟩
  rw [hr] at hsilent hbit
  have hnumeric : (s.withNumeric f).Silent := ⟨hrom, htable, hsilent, hrest⟩
  cases o with
  | none =>
    rw [State.sampled_of_none hr]
    exact ⟨hnumeric, rfl, rfl⟩
  | some b =>
    rw [State.sampled_of_some hr, hbit b rfl, hnumeric.boundary]
    exact ⟨hnumeric, rfl, rfl⟩

theorem State.Silent.execSample {s t : State} (h : s.Silent) (ht : execSample F64.zero s = .next t) :
    t.Silent ∧ t.events = s.events ∧ t.nSample = s.nSample + 1 := by
  obtain ⟨-, -, henv, -⟩ := (execSample_eq_next_iff_inEnvelope _ s t).mp ht
  obtain ⟨w, rfl⟩ := (State.sameButWires_iff _ _).mp (execSample_registers ht)
  exact h.sampled henv

theorem State.Silent.execAll_repeatOps {s t : State} (h : s.Silent) (n : Nat)
    (ht : execAll (repeatOps n F64.zero) s = .next t) :
    t.Silent ∧ t.events = s.events ∧ t.nSample = s.nSample + n := by
  induction n generalizing s with
  | zero =>
    obtain rfl := (next_eq_next s t).mp ht
    exact ⟨h, rfl, rfl⟩
  | succ n ih =>
    obtain ⟨u, hu, hrest⟩ := (andThen_eq_next_iff _ _ _).mp ht
    obtain ⟨husilent, huevents, hucount⟩ := h.execSample hu
    obtain ⟨hsilent, hevents, hcount⟩ := ih husilent hrest
    exact ⟨hsilent, hevents.trans huevents, by omega⟩

/-- Settles O51, by induction on the number of samples. -/
theorem silenceGivesNoEvents : Obligations.SilenceGivesNoEvents := by
  unfold Obligations.SilenceGivesNoEvents
  intro s t n _ hrom htable hlpfY hprevY hacc ha hb hcode hinv hcounter ht
  have hs : s.Silent := ⟨hrom, htable, ⟨hlpfY, hprevY, hacc⟩, ha, hb, hcode, hinv, hcounter⟩
  obtain ⟨⟨-, -, ⟨hlpfY', hprevY', -⟩, ha', hb', hcode', hinv', hcounter'⟩, hevents, hcount⟩ :=
    hs.execAll_repeatOps n ht
  exact ⟨hlpfY', hprevY', ha', hb', hcode', hinv', hcounter', hevents, hcount⟩

end Machine
end Sys2Proof
end

section
/-! SUPPORT. How far one rounding moves a value, and how far a step to another pattern does (R9). -/

namespace Sys2Proof

/-! One rounding -/

/-- A result is no further from its exact value than a finite value is from the exact magnitude, whatever the sign. -/
theorem F64.RoundsTo.abs_sub_le {r : F64} {q x : ℚ} (h : r.RoundsTo q) (hr : r.isFinite = true) (hx : F64.IsValue x) :
    |r.toRat - q| ≤ |x - (|q|)| := by
  have hnearest {y : ℚ} (hy : F64.IsValue y) : |r.toRat - q| ≤ |y - q| := by
    obtain ⟨c, hc, rfl⟩ := hy
    exact (h.2 hr c hc).1
  rcases abs_cases q with ⟨hq, -⟩ | ⟨hq, -⟩
  · rw [hq]
    exact hnearest hx
  · have hneg : |x - -q| = |-x - q| := by rw [← abs_neg]; congr 1; ring
    rw [hq, hneg]
    exact hnearest hx.neg

/-- The two neighbouring significands of 53 bits that a magnitude lies between. -/
theorem exists_significand {x : ℚ} (hlow : 1 / 2 ^ 100 ≤ x) (hhigh : x ≤ 2 ^ 53) :
    ∃ m k : ℕ, 2 ^ 52 ≤ m ∧ m < 2 ^ 53 ∧ k ≤ 1074 ∧ (m : ℚ) < x * 2 ^ k ∧ x * 2 ^ k ≤ m + 1 := by
  have hx : 0 < x := lt_of_lt_of_le (by positivity) hlow
  obtain ⟨k, hk, hk'⟩ := exists_nat_pow_near_of_lt_one (x := x / 2 ^ 53) (y := 1 / 2) (by positivity)
    ((div_le_one (by positivity)).mpr hhigh) (by norm_num) (by norm_num)
  have hpow : (0 : ℚ) < 2 ^ k := by positivity
  rw [one_div_pow, pow_succ, div_lt_div_iff₀ (by positivity) (by positivity)] at hk
  rw [one_div_pow, div_le_div_iff₀ (by positivity) hpow] at hk'
  have hle : k ≤ 1074 := by
    have hsmall : (2 : ℚ) ^ k ≤ 2 ^ 153 := by
      have hscaled := (mul_le_mul_of_nonneg_right hlow hpow.le).trans hk'
      rw [one_div_mul_eq_div, div_le_iff₀ (by positivity)] at hscaled
      exact hscaled.trans_eq (by norm_num)
    exact ((pow_le_pow_iff_right₀ one_lt_two).mp hsmall).trans (by norm_num)
  have hz : 0 < x * 2 ^ k := by positivity
  obtain ⟨m, hm⟩ : ∃ m, ⌈x * 2 ^ k⌉₊ = m + 1 := Nat.exists_eq_succ_of_ne_zero (Nat.ceil_pos.mpr hz).ne'
  have hbelow : (m : ℚ) < x * 2 ^ k := Nat.lt_ceil.mp (by omega)
  have habove : x * 2 ^ k ≤ m + 1 := by exact_mod_cast Nat.ceil_le.mp hm.le
  have hm1 : ((2 ^ 52 : ℕ) : ℚ) < m + 1 := by
    refine lt_of_lt_of_le ?_ habove
    norm_num at hk ⊢
    linarith
  have hm2 : (m : ℚ) < (2 ^ 53 : ℕ) := by
    refine hbelow.trans_le ?_
    norm_num at hk' ⊢
    linarith
  exact ⟨m, k, Nat.lt_succ_iff.mp (by exact_mod_cast hm1), by exact_mod_cast hm2, hle, hbelow, habove⟩

/-- One rounding moves a value by at most its 2^53 + 1st part: half a unit in the last place, and less where the exact
value is next to a power of 2. -/
theorem F64.RoundsTo.relative_error {r : F64} {q : ℚ} (h : r.RoundsTo q) (hlow : 1 / 2 ^ 100 ≤ |q|)
    (hhigh : |q| ≤ 2 ^ 53) : r.isFinite = true ∧ |r.toRat - q| * (2 ^ 53 + 1) ≤ |q| := by
  obtain ⟨m, k, hm, hm', hk, hbelow, habove⟩ := exists_significand hlow hhigh
  have hpow : (0 : ℚ) < 2 ^ k := by positivity
  have hdown : F64.IsValue (m / 2 ^ k) := F64.isValue_dyadic m k ⟨hm, hm'.le, hk, rfl⟩
  have hup : F64.IsValue ((m + 1) / 2 ^ k) :=
    F64.isValue_dyadic (m + 1) k ⟨hm.trans m.le_succ, hm', hk, by rw [Nat.cast_succ]⟩
  have hfinite : r.isFinite = true :=
    (h.mem_Icc hup.neg hup (abs_le.mp ((le_div_iff₀ hpow).mpr habove))).1
  refine ⟨hfinite, ?_⟩
  have herror := h.abs_sub_le hfinite hdown
  have herror' := h.abs_sub_le hfinite hup
  rw [abs_of_neg (sub_neg.mpr ((div_lt_iff₀ hpow).mpr hbelow)), neg_sub, le_sub_iff_add_le, ← le_sub_iff_add_le',
    div_le_iff₀ hpow, sub_mul] at herror
  rw [abs_of_nonneg (sub_nonneg.mpr ((le_div_iff₀ hpow).mpr habove)), le_sub_iff_add_le, le_div_iff₀ hpow,
    add_mul] at herror'
  have hm2 : (2 ^ 52 : ℚ) ≤ m := by exact_mod_cast hm
  refine le_of_mul_le_mul_right ?_ hpow
  rw [mul_right_comm]
  generalize |r.toRat - q| * 2 ^ k = e at *
  generalize |q| * 2 ^ k = z at *
  rcases le_total z (2 ^ 52 + 1 / 2) with hz | hz
  · linarith
  · linarith

/-- The same bound in the real numbers. -/
theorem F64.RoundsTo.real_error {r : F64} {q : ℚ} (h : r.RoundsTo q) {x : ℝ} (hq : (q : ℝ) = x)
    (hlow : 1 / 2 ^ 100 ≤ |x|) (hhigh : |x| ≤ 2 ^ 53) :
    r.isFinite = true ∧ |(r.toRat : ℝ) - x| * (2 ^ 53 + 1) ≤ |x| := by
  subst hq
  have hlow' : 1 / 2 ^ 100 ≤ |q| := by
    rw [← Rat.cast_le (K := ℝ)]
    push_cast
    exact hlow
  obtain ⟨hfinite, herror⟩ := h.relative_error hlow' (by exact_mod_cast hhigh)
  exact ⟨hfinite, by exact_mod_cast herror⟩

/-! Steps to other patterns -/

/-- Below the pattern of 1, a step to the next pattern adds at most 2^-53, the unit just below 1. -/
theorem magOfBits_succ_le {n : ℕ} (h : n + 1 ≤ 1023 * 2 ^ 52) : magOfBits (n + 1) ≤ magOfBits n + 2 ^ 1021 := by
  obtain ⟨e, m, rfl, hm, he⟩ := exists_binade n
  have hbinade : e ≤ 1021 := by omega
  have hnext : e = 0 ∨ 2 ^ 52 ≤ m + 1 := by omega
  have hunit : 2 ^ e ≤ 2 ^ 1021 := pow_le_pow_right₀ one_le_two hbinade
  rw [magOfBits_binade e m hm.le he, Nat.add_assoc, magOfBits_binade e (m + 1) hm hnext, Nat.succ_mul]
  exact add_le_add_right hunit _

theorem magOfBits_add_le {n : ℕ} (j : ℕ) (h : n + j ≤ 1023 * 2 ^ 52) :
    magOfBits (n + j) ≤ magOfBits n + j * 2 ^ 1021 := by
  induction j with
  | zero => rw [Nat.add_zero, Nat.zero_mul, Nat.add_zero]
  | succ j ih =>
    rw [Nat.succ_mul, ← Nat.add_assoc, ← Nat.add_assoc]
    exact (magOfBits_succ_le h).trans (Nat.add_le_add_right (ih (Nat.le_of_succ_le h)) _)

/-- Up to the pattern of 1, `j` steps to the next pattern add at most `j / 2^53`. -/
theorem F64.pack_toRat_add_sub_le {n j : ℕ} (h : n + j ≤ 1023 * 2 ^ 52) :
    |(F64.pack false (n + j)).toRat - (F64.pack false n).toRat| ≤ j / 2 ^ 53 := by
  have hlast : n + j < 2 ^ 63 := by omega
  have hfirst : n < 2 ^ 63 := by omega
  have hstep : (magOfBits (n + j) : ℚ) ≤ magOfBits n + j * 2 ^ 1021 := by
    exact_mod_cast magOfBits_add_le j h
  have hmono : (magOfBits n : ℚ) ≤ magOfBits (n + j) := by
    exact_mod_cast magOfBits_strictMono.monotone (Nat.le_add_right n j)
  rw [F64.pack_toRat _ hlast, F64.pack_toRat _ hfirst, abs_signedUnits_sub_same,
    abs_of_nonneg (sub_nonneg.mpr hmono), div_le_div_iff₀ (by positivity) (by positivity),
    show 1074 = 1021 + 53 from rfl, pow_add, ← mul_assoc]
  exact mul_le_mul_of_nonneg_right (sub_le_iff_le_add'.mpr hstep) (by positivity)

end Sys2Proof
end

section
/-! SUPPORT. The fixed-point exponential against the real one: the nested series is the Taylor polynomial with one
truncation a term, and a squaring at most quadruples a relative error, its truncation included. -/

namespace Sys2Proof

/-- A truncated quotient is less than 1 below the exact one. -/
theorem natDiv_bounds (a : ℕ) {b : ℕ} (hb : 0 < b) :
    (a / b : ℝ) - 1 < (a / b : ℕ) ∧ ((a / b : ℕ) : ℝ) ≤ a / b := by
  refine ⟨?_, Nat.cast_div_le⟩
  rw [sub_lt_iff_lt_add, div_lt_iff₀ (by exact_mod_cast hb)]
  exact_mod_cast Nat.lt_mul_of_div_lt (Nat.lt_succ_self _) hb

/-- Truncating a quotient of units of the fixed point moves it by at most one unit. -/
theorem abs_natDiv_sub_div_le (a : ℕ) {b : ℕ} (hb : 0 < b) :
    |((a / b : ℕ) - (a : ℝ) / b) / 2 ^ 256| ≤ 1 / 2 ^ 256 := by
  obtain ⟨hlow, hhigh⟩ := natDiv_bounds a hb
  rw [abs_div, abs_of_pos (by positivity : (0 : ℝ) < 2 ^ 256)]
  exact div_le_div_of_nonneg_right (abs_le.mpr ⟨by linarith, by linarith⟩) (by positivity)

/-! Fixed-point numbers -/

/-- A fixed-point number as the real number it stands for. -/
noncomputable def fixedValue (n : ℕ) : ℝ := n / 2 ^ 256

theorem fixedValue_nonneg (n : ℕ) : 0 ≤ fixedValue n := by unfold fixedValue; positivity

theorem expScale_cast : (expScale : ℝ) = 2 ^ 256 := by rw [expScale, Nat.cast_pow, Nat.cast_ofNat]

theorem fixedValue_expScale : fixedValue expScale = 1 := by
  rw [fixedValue, expScale_cast, div_self (by positivity)]

theorem le_expScale_of_fixedValue_le {n : ℕ} (h : fixedValue n ≤ 1) : n ≤ expScale := by
  rw [← fixedValue_expScale, fixedValue, fixedValue, div_le_div_iff_of_pos_right (by positivity)] at h
  exact_mod_cast h

/-- A fixed-point product is truncated once. -/
theorem fixedValue_mul (h : ℕ) : |fixedValue (h * h / expScale) - fixedValue h ^ 2| ≤ 1 / 2 ^ 256 := by
  have heq : fixedValue (h * h / expScale) - fixedValue h ^ 2 =
      ((h * h / expScale : ℕ) - ((h * h : ℕ) : ℝ) / expScale) / 2 ^ 256 := by
    rw [fixedValue, fixedValue, Nat.cast_mul, expScale_cast]
    ring
  rw [heq]
  exact abs_natDiv_sub_div_le (h * h) (by decide)

/-! The series -/

/-- One term of the series, but for one truncation. -/
theorem expSeries_succ_near {u k : ℕ} (hu : u ≤ expScale) (hk : 1 ≤ k) (n : ℕ) :
    |1 + -fixedValue u / k * fixedValue (expSeries u n (k + 1)) - fixedValue (expSeries u (n + 1) k)| ≤
      1 / 2 ^ 256 := by
  have hseries := expSeries_le u n (k + 1)
  have hden : 0 < expScale * k := Nat.mul_pos (by decide) hk
  have hterm : u * expSeries u n (k + 1) / (expScale * k) ≤ expScale := by
    refine Nat.div_le_of_le_mul ?_
    rw [Nat.mul_right_comm]
    exact (Nat.mul_le_mul hu hseries).trans (Nat.le_mul_of_pos_right _ hk)
  have hk' : (0 : ℝ) < k := by exact_mod_cast hk
  have heq : 1 + -fixedValue u / k * fixedValue (expSeries u n (k + 1)) - fixedValue (expSeries u (n + 1) k) =
      ((u * expSeries u n (k + 1) / (expScale * k) : ℕ) -
        ((u * expSeries u n (k + 1) : ℕ) : ℝ) / (expScale * k : ℕ)) / 2 ^ 256 := by
    rw [show expSeries u (n + 1) k = expScale - u * expSeries u n (k + 1) / (expScale * k) from rfl, fixedValue,
      fixedValue, fixedValue, Nat.cast_sub hterm, Nat.cast_mul u, Nat.cast_mul expScale, expScale_cast]
    have hone : (0 : ℝ) < 2 ^ 256 := by positivity
    generalize (2 : ℝ) ^ 256 = one at hone ⊢
    field_simp
    ring
  rw [heq]
  exact abs_natDiv_sub_div_le _ hden

/-- The series from term `j + 1` on stands near the rest of the Taylor series. -/
theorem expSeries_near {u : ℕ} (hu : fixedValue u ≤ 1 / 2 ^ 9) (n j : ℕ) :
    |Real.exp (-fixedValue u) - Real.expNear j (-fixedValue u) (fixedValue (expSeries u n (j + 1)))| ≤
      |-fixedValue u| ^ j / j.factorial * (2 / 2 ^ 256 + 2 * (1 / 2 ^ 9) ^ (n + 1)) := by
  have habs : |-fixedValue u| ≤ 1 / 2 ^ 9 := by rwa [abs_neg, abs_of_nonneg (fixedValue_nonneg u)]
  have hdiv (m : ℕ) : |-fixedValue u| / (m + 1 : ℕ) ≤ 1 / 2 ^ 9 :=
    (div_le_self (abs_nonneg _) (by exact_mod_cast Nat.succ_pos m)).trans habs
  induction n generalizing j with
  | zero =>
    have hlast : fixedValue (expSeries u 0 (j + 1)) = 1 := fixedValue_expScale
    have hcoeff : ((j + 1 : ℕ) + 1 : ℝ) / (j + 1 : ℕ) ≤ 2 := by
      rw [div_le_iff₀ (by positivity)]
      push_cast
      linarith [(Nat.cast_nonneg j : (0 : ℝ) ≤ j)]
    have hrest := mul_le_mul (hdiv j) hcoeff (by positivity) (by positivity)
    rw [hlast]
    refine Real.exp_approx_end' (j + 1) rfl _ rfl (habs.trans (by norm_num)) ?_
    rw [sub_self, abs_zero, sub_nonneg]
    refine hrest.trans ?_
    norm_num
  | succ n ih =>
    have hterm := expSeries_succ_near (le_expScale_of_fixedValue_le (hu.trans (by norm_num))) j.succ_pos n
    have hrest := mul_le_mul_of_nonneg_right (hdiv j)
      (by positivity : (0 : ℝ) ≤ 2 / 2 ^ 256 + 2 * (1 / 2 ^ 9) ^ (n + 1))
    refine Real.exp_approx_succ (j + 1) rfl _ _ (hterm.trans (le_sub_iff_add_le.mpr ?_)) (ih (j + 1))
    rw [pow_succ _ (n + 1)]
    generalize (1 / 2 ^ 9 : ℝ) ^ (n + 1) = rest at hrest ⊢
    linarith

/-- The whole series of `expNearest` is the exponential to within three units of the fixed point. -/
theorem abs_expSeries_sub_exp_le {u : ℕ} (hu : fixedValue u ≤ 1 / 2 ^ 9) :
    |fixedValue (expSeries u 48 1) - Real.exp (-fixedValue u)| ≤ 3 / 2 ^ 256 := by
  have h := expSeries_near hu 48 0
  have hrest : 2 * (1 / 2 ^ 9 : ℝ) ^ 49 ≤ 1 / 2 ^ 256 := by
    have hsmall : (1 / 2 ^ 9 : ℝ) ^ 49 ≤ (1 / 2 ^ 9) ^ 29 :=
      pow_le_pow_of_le_one (by norm_num) (by norm_num) (by norm_num)
    norm_num at hsmall ⊢
  rw [Real.expNear_zero, abs_sub_comm, pow_zero, Nat.factorial_zero, Nat.cast_one, div_one, one_mul] at h
  refine h.trans ?_
  linarith

/-! The squarings -/

/-- The square of a value with relative error `d` has relative error `2 * d + d^2`. -/
theorem abs_sq_sub_sq_le {a y d : ℝ} (hy : 0 ≤ y) (h : |a - y| ≤ d * y) :
    |a ^ 2 - y ^ 2| ≤ 2 * (d * y ^ 2) + d ^ 2 * y ^ 2 := by
  have hsum : |a + y| ≤ d * y + 2 * y := by
    rw [show a + y = (a - y) + 2 * y by ring]
    refine (abs_add_le _ _).trans ?_
    rw [abs_of_nonneg (by positivity : 0 ≤ 2 * y)]
    linarith
  calc |a ^ 2 - y ^ 2| = |a + y| * |a - y| := by rw [sq_sub_sq, abs_mul]
    _ ≤ (d * y + 2 * y) * (d * y) := mul_le_mul hsum h (abs_nonneg _) ((abs_nonneg _).trans hsum)
    _ = 2 * (d * y ^ 2) + d ^ 2 * y ^ 2 := by ring

/-- `n` squarings multiply a relative error by no more than `4^n`, as long as the value stays above 2^-12. -/
theorem squareTimes_near (n : ℕ) {h : ℕ} {y d : ℝ} (hy0 : 0 ≤ y) (hy1 : y ≤ 1) (hlow : 1 / 2 ^ 12 ≤ y ^ 2 ^ n)
    (hd : 1 / 2 ^ 244 ≤ d) (hd1 : 4 ^ n * d ≤ 1) (hh : |fixedValue h - y| ≤ d * y) :
    |fixedValue (squareTimes n h) - y ^ 2 ^ n| ≤ 4 ^ n * d * y ^ 2 ^ n := by
  induction n generalizing h y d with
  | zero => simpa [squareTimes] using hh
  | succ n ih =>
    have hd0 : 0 ≤ d := le_trans (by positivity) hd
    have hdle : d ≤ 1 := by
      have hfour : (1 : ℝ) ≤ 4 ^ (n + 1) := one_le_pow₀ (by norm_num)
      exact (le_mul_of_one_le_left hd0 hfour).trans hd1
    have hpow : y ^ 2 ^ (n + 1) = (y ^ 2) ^ 2 ^ n := by rw [pow_succ', pow_mul]
    have hy2 : y ^ 2 ≤ 1 := pow_le_one₀ hy0 hy1
    rw [hpow] at hlow ⊢
    have hbelow : 1 / 2 ^ 12 ≤ y ^ 2 := hlow.trans (pow_le_of_le_one (by positivity) hy2 (by positivity))
    have hunit : (1 / 2 ^ 256 : ℝ) ≤ d * y ^ 2 := by
      refine le_trans ?_ (mul_le_mul hd hbelow (by positivity) hd0)
      norm_num
    have htruncated := fixedValue_mul h
    have hsquared := abs_sq_sub_sq_le hy0 hh
    have hstep : |fixedValue (h * h / expScale) - y ^ 2| ≤ 4 * d * y ^ 2 := by
      have hdd : d ^ 2 * y ^ 2 ≤ d * y ^ 2 :=
        mul_le_mul_of_nonneg_right (pow_le_of_le_one hd0 hdle two_ne_zero) (by positivity)
      refine (abs_sub_le _ (fixedValue h ^ 2) _).trans ?_
      linarith
    have hnext := ih (by positivity) hy2 hlow (by linarith) (by rwa [← mul_assoc, ← pow_succ]) hstep
    rwa [← mul_assoc, ← pow_succ] at hnext

end Sys2Proof
end

section
/-! PROOFS. The `exp` that the model rounds against the real one, for arguments from -8 to 0 (R81, D27). -/

namespace Sys2Proof

/-! The argument of the series -/

/-- The argument divided by 2^12, which the series is taken of. -/
noncomputable def F64.scaledArgument (t : F64) : ℝ := t.mag / 2 ^ 1086

theorem F64.toRat_eq_scaledArgument {t : F64} (ht : t.toRat ≤ 0) : (t.toRat : ℝ) = -(2 ^ 12 * t.scaledArgument) := by
  have hmag : t.toRat = -(t.mag / 2 ^ 1074) := by rw [← F64.abs_toRat, abs_of_nonpos ht, neg_neg]
  rw [hmag, F64.scaledArgument, show 1086 = 12 + 1074 from rfl, pow_add, ← mul_div_assoc,
    mul_div_mul_left _ _ (by positivity)]
  push_cast
  rfl

/-- The fixed-point argument is the scaled one, truncated. -/
theorem F64.fixedValue_expArgument (t : F64) :
    fixedValue t.expArgument ≤ t.scaledArgument ∧ t.scaledArgument - fixedValue t.expArgument ≤ 1 / 2 ^ 256 := by
  obtain ⟨hlow, hhigh⟩ := natDiv_bounds (t.mag * 2 ^ 256) (by positivity : 0 < 2 ^ 1086)
  have hscaled : ((t.mag * 2 ^ 256 : ℕ) : ℝ) / (2 ^ 1086 : ℕ) = t.scaledArgument * 2 ^ 256 := by
    rw [F64.scaledArgument, Nat.cast_mul, Nat.cast_pow, Nat.cast_pow, Nat.cast_ofNat, mul_div_right_comm]
  rw [hscaled] at hlow hhigh
  have hone : (0 : ℝ) < 2 ^ 256 := by positivity
  unfold fixedValue F64.expArgument
  refine ⟨(div_le_iff₀ hone).mpr hhigh, ?_⟩
  rw [sub_le_iff_le_add, ← add_div, le_div_iff₀ hone]
  linarith

/-! `exp` -/

/-- `exp` of the truncated argument, 2^12 times over, is little more than `exp` of the argument. -/
theorem F64.exp_expArgument_pow_mem {t : F64} (ht : t.toRat ≤ 0) :
    Real.exp (-fixedValue t.expArgument) ^ 2 ^ 12 ∈
      Set.Icc (Real.exp t.toRat) (Real.exp t.toRat + 1 / 2 ^ 243 * Real.exp t.toRat) := by
  obtain ⟨htrunc, htrunc'⟩ := t.fixedValue_expArgument
  have hexponent : Real.exp (-fixedValue t.expArgument) ^ 2 ^ 12 =
      Real.exp t.toRat * Real.exp (2 ^ 12 * (t.scaledArgument - fixedValue t.expArgument)) := by
    rw [← Real.exp_nat_mul, ← Real.exp_add, F64.toRat_eq_scaledArgument ht]
    congr 1
    push_cast
    ring
  have hdiff0 : 0 ≤ 2 ^ 12 * (t.scaledArgument - fixedValue t.expArgument) :=
    mul_nonneg (by positivity) (sub_nonneg.mpr htrunc)
  have hdiff : 2 ^ 12 * (t.scaledArgument - fixedValue t.expArgument) ≤ 1 / 2 ^ 244 := by linarith
  generalize 2 ^ 12 * (t.scaledArgument - fixedValue t.expArgument) = d at *
  have hexp := (abs_le.mp (Real.abs_exp_sub_one_le (by rw [abs_of_nonneg hdiff0]; linarith))).2
  rw [abs_of_nonneg hdiff0] at hexp
  have hpos := Real.exp_pos (t.toRat : ℝ)
  rw [hexponent]
  refine ⟨le_mul_of_one_le_right hpos.le (Real.one_le_exp hdiff0), ?_⟩
  rw [← one_add_mul, mul_comm]
  exact mul_le_mul_of_nonneg_right (by linarith) hpos.le

section
variable {t : F64} (hlow : -8 ≤ t.toRat) (hhigh : t.toRat ≤ 0)
include hlow hhigh

theorem F64.scaledArgument_le : t.scaledArgument ≤ 1 / 2 ^ 9 := by
  have hlow' : (-8 : ℝ) ≤ t.toRat := by exact_mod_cast hlow
  rw [F64.toRat_eq_scaledArgument hhigh] at hlow'
  linarith

theorem F64.mag_lt_of_toRat_mem : t.mag < 2 ^ 1086 := by
  have hlt : t.scaledArgument < 1 := (F64.scaledArgument_le hlow hhigh).trans_lt (by norm_num)
  rw [F64.scaledArgument, div_lt_one (by positivity)] at hlt
  exact_mod_cast hlt

theorem F64.exp_toRat_mem : Real.exp t.toRat ∈ Set.Icc (1 / 2 ^ 12 : ℝ) 1 := by
  have hlow' : (-8 : ℝ) ≤ t.toRat := by exact_mod_cast hlow
  have hhigh' : (t.toRat : ℝ) ≤ 0 := by exact_mod_cast hhigh
  refine ⟨le_trans ?_ (Real.exp_le_exp.mpr hlow'), Real.exp_le_one_iff.mpr hhigh'⟩
  have hpow : Real.exp (-8) = (Real.exp 1 ^ 8)⁻¹ := by
    rw [← Real.exp_nat_mul, ← Real.exp_neg]
    norm_num
  have he : Real.exp 1 ^ 8 ≤ 2.7182818286 ^ 8 := pow_le_pow_left₀ (Real.exp_pos _).le Real.exp_one_lt_d9.le 8
  rw [hpow, one_div]
  exact inv_anti₀ (by positivity) (he.trans (by norm_num))

/-- The fixed-point value that `expNearest` rounds is the real exponential to a relative 2^-200. -/
theorem F64.abs_expFixed_sub_le :
    |fixedValue t.expFixed - Real.exp t.toRat| ≤ 1 / 2 ^ 200 * Real.exp t.toRat := by
  obtain ⟨htrunc, htrunc'⟩ := t.fixedValue_expArgument
  have hu : fixedValue t.expArgument ≤ 1 / 2 ^ 9 := htrunc.trans (F64.scaledArgument_le hlow hhigh)
  obtain ⟨hleast, -⟩ := F64.exp_toRat_mem hlow hhigh
  obtain ⟨hpower, hpower'⟩ := F64.exp_expArgument_pow_mem hhigh
  have hhalf : 1 / 2 ≤ Real.exp (-fixedValue t.expArgument) := by
    linarith [Real.add_one_le_exp (-fixedValue t.expArgument)]
  have hone : Real.exp (-fixedValue t.expArgument) ≤ 1 :=
    Real.exp_le_one_iff.mpr (neg_nonpos.mpr (fixedValue_nonneg _))
  have hseries : |fixedValue (expSeries t.expArgument 48 1) - Real.exp (-fixedValue t.expArgument)| ≤
      1 / 2 ^ 244 * Real.exp (-fixedValue t.expArgument) := by
    refine (abs_expSeries_sub_exp_le hu).trans ?_
    linarith
  have hsquared := squareTimes_near 12 (by positivity) hone (hleast.trans hpower) le_rfl (by norm_num) hseries
  refine (abs_sub_le _ (Real.exp (-fixedValue t.expArgument) ^ 2 ^ 12) _).trans ?_
  rw [abs_of_nonneg (sub_nonneg.mpr hpower)]
  unfold F64.expFixed
  generalize Real.exp (-fixedValue t.expArgument) ^ 2 ^ 12 = y at *
  generalize |fixedValue (squareTimes 12 (expSeries t.expArgument 48 1)) - y| = e at *
  generalize Real.exp t.toRat = z at *
  linarith

/-- `expNearest` rounds its fixed-point value once, at every argument from -8 to 0. -/
theorem F64.expNearest_roundsTo_expFixed (hfinite : t.isFinite = true) :
    (F64.expNearest t).RoundsTo (t.expFixed / 2 ^ 256) := by
  have hexp : F64.expNearest t = F64.ofUnits ((t.expFixed * 2 ^ 1074 : ℕ) : ℤ) expScale false := by
    rw [F64.expNearest, hfinite, decide_eq_true (F64.mag_lt_of_toRat_mem hlow hhigh), Bool.and_self, if_pos rfl]
    rfl
  have h := F64.ofUnits_roundsTo ((t.expFixed * 2 ^ 1074 : ℕ) : ℤ) expScale false (by decide)
  have hq : ((((t.expFixed * 2 ^ 1074 : ℕ) : ℤ) : ℚ) / expScale) / 2 ^ 1074 = t.expFixed / 2 ^ 256 := by
    rw [expScale, Int.cast_natCast, Nat.cast_mul, Nat.cast_pow, Nat.cast_pow, Nat.cast_ofNat, div_right_comm,
      mul_div_cancel_right₀ _ (by positivity)]
  rw [hexp]
  rwa [hq] at h

/-- The rounding leaves room for the error of the fixed point: its own is at most a 2^53 + 1st part. -/
theorem F64.abs_expNearest_sub_le (hfinite : t.isFinite = true) :
    (F64.expNearest t).isFinite = true ∧
      |((F64.expNearest t).toRat : ℝ) - Real.exp t.toRat| ≤ Real.exp t.toRat / 2 ^ 53 := by
  obtain ⟨hleast, hlargest⟩ := F64.exp_toRat_mem hlow hhigh
  have hfixed := F64.abs_expFixed_sub_le hlow hhigh
  obtain ⟨hfixedLow, hfixedHigh⟩ := abs_le.mp hfixed
  have hcast : ((t.expFixed / 2 ^ 256 : ℚ) : ℝ) = fixedValue t.expFixed := by
    rw [Rat.cast_div, Rat.cast_natCast, Rat.cast_pow, Rat.cast_ofNat]
    rfl
  have habs : |fixedValue t.expFixed| = fixedValue t.expFixed := abs_of_nonneg (fixedValue_nonneg _)
  obtain ⟨hresult, herror⟩ := (F64.expNearest_roundsTo_expFixed hlow hhigh hfinite).real_error hcast
    (by linarith) (by linarith)
  refine ⟨hresult, (abs_sub_le _ (fixedValue t.expFixed) _).trans ?_⟩
  linarith

end
end Sys2Proof
end

section
/-! PROOFS. `ALPHA` in F64 against the real coefficient (R81, D27): the rounded argument, the rounded `exp`, the four
units of an implementation's `exp` (log 7) and the rounded difference each move it by a few times 2^-53. -/

namespace Sys2Proof

/-! The argument -/

/-- A whole number up to 2^53 is a value of F64. -/
theorem F64.ofNat_toRat {n : ℕ} (hlow : 1 ≤ n) (hhigh : n ≤ 2 ^ 53) : (F64.ofNat n).toRat = n := by
  have hone : (1 : ℚ) ≤ n := by exact_mod_cast hlow
  have hmax : (n : ℚ) ≤ 2 ^ 53 := by exact_mod_cast hhigh
  obtain ⟨m, k, hm, hm', hk, hbelow, habove⟩ := exists_significand (x := n) (hone.trans' (by norm_num)) hmax
  have hexact : n * 2 ^ k = m + 1 :=
    le_antisymm (by exact_mod_cast habove) (Nat.succ_le_of_lt (by exact_mod_cast hbelow))
  have hvalue : F64.IsValue n := by
    refine F64.isValue_dyadic (m + 1) k ⟨hm.trans m.le_succ, hm', hk, ?_⟩
    rw [← hexact, Nat.cast_mul, Nat.cast_pow, Nat.cast_ofNat, mul_div_cancel_right₀ _ (by positivity)]
  have hround := F64.ofNat_roundsTo n
  have hfinite := (hround.mem_Icc hvalue hvalue ⟨le_rfl, le_rfl⟩).1
  have herror := hround.abs_sub_le hfinite hvalue
  rw [Nat.abs_cast, sub_self, abs_zero, abs_nonpos_iff, sub_eq_zero] at herror
  exact herror

/-- The numerator of R81 in F64, `-(2 * pi * 300)` left to right. -/
def alphaNumerator : F64 := F64.mul (F64.mul (F64.neg F64.two) F64.pi) F64.cornerFreq

theorem alphaNumerator_toRat : alphaNumerator.toRat = -(8290122365658328 / 2 ^ 42) := by
  have hvalue : alphaNumerator = F64.neg (F64.dyadic 1032 8290122365658328) := by decide +kernel
  rw [hvalue, F64.neg_toRat, F64.dyadic_toRat_eq 42 (x := 8290122365658328 / 2 ^ 42) (by norm_num)]

/-- Two multiplications and the rounded pi leave a relative error of at most 2^-53 in the numerator. -/
theorem abs_alphaNumerator_sub_le :
    |(alphaNumerator.toRat : ℝ) - -(600 * Real.pi)| ≤ 600 * Real.pi / 2 ^ 53 := by
  have hlow := Real.pi_gt_d20
  have hhigh := Real.pi_lt_d20
  rw [alphaNumerator_toRat]
  push_cast
  norm_num at hlow hhigh
  exact abs_le.mpr ⟨by linarith, by linarith⟩

/-- `exp` at two arguments at or below zero with a small relative difference. -/
theorem abs_exp_sub_exp_le {a b c : ℝ} (h : |a - b| ≤ c * -b) (hsmall : c * -b ≤ 1) (hc : 0 ≤ c) :
    |Real.exp a - Real.exp b| ≤ 3 / 4 * c := by
  have hexp : Real.exp a = Real.exp b * Real.exp (a - b) := by rw [← Real.exp_add, add_sub_cancel]
  have hdiff : |Real.exp (a - b) - 1| ≤ 2 * (c * -b) :=
    (Real.abs_exp_sub_one_le (h.trans hsmall)).trans (mul_le_mul_of_nonneg_left h two_pos.le)
  have hpeak : -b * Real.exp b ≤ 3 / 8 := by
    have hmax := Real.mul_exp_neg_le_exp_neg_one (-b)
    rw [neg_neg] at hmax
    exact hmax.trans (Real.exp_neg_one_lt_d9.le.trans (by norm_num))
  rw [hexp, ← mul_sub_one, abs_mul, abs_of_pos (Real.exp_pos b)]
  calc Real.exp b * |Real.exp (a - b) - 1| ≤ Real.exp b * (2 * (c * -b)) :=
        mul_le_mul_of_nonneg_left hdiff (Real.exp_pos b).le
    _ = 2 * c * (-b * Real.exp b) := by ring
    _ ≤ 2 * c * (3 / 8) := mul_le_mul_of_nonneg_left hpeak (by positivity)
    _ = 3 / 4 * c := by ring

/-! `exp` within four units -/

theorem F64.pack_false_bits (a : F64) : F64.pack false a.bits.toNat = a := by
  rw [F64.pack, if_neg Bool.false_ne_true, BitVec.ofNat_toNat, BitVec.setWidth_eq]

/-- Four steps from the pattern of `exp` reach neither 0 nor past 1. -/
theorem F64.expNearest_bits_bounds {t : F64} (hfinite : t.isFinite = true) (ht : t.toRat ∈ alphaExponentRange) :
    4 ≤ (F64.expNearest t).bits.toNat ∧ (F64.expNearest t).bits.toNat + 4 ≤ 1023 * 2 ^ 52 := by
  have hmem := F64.expNearest_mem hfinite ht
  have h12 : (F64.dyadic 1010 (2 ^ 52)).toRat = 1 / 2 ^ 12 := F64.dyadic_toRat_eq 64 (by norm_num)
  have h24 : (F64.dyadic 1021 (2 ^ 53 - 2 ^ 29)).toRat = 1 - 1 / 2 ^ 24 := F64.dyadic_toRat_eq 53 (by norm_num)
  rw [← h12, ← h24, Set.mem_Icc, F64.toRat_le_iff, F64.toRat_le_iff, F64.dyadic_orderKey (by norm_num),
    F64.dyadic_orderKey (by norm_num)] at hmem
  have hpos : 0 < (F64.expNearest t).orderKey := lt_of_lt_of_le (by norm_num) hmem.1
  rw [F64.orderKey_of_pos hpos] at hmem
  omega

/-- Below 1 four units in the last place are at most 2^-51. -/
theorem F64.abs_expWithin_sub_le (off : Fin 9) {t : F64} (hfinite : t.isFinite = true)
    (ht : t.toRat ∈ alphaExponentRange) :
    |(F64.expWithin off t).toRat - (F64.expNearest t).toRat| ≤ 4 / 2 ^ 53 := by
  obtain ⟨hlow, hhigh⟩ := F64.expNearest_bits_bounds hfinite ht
  have hoff := off.isLt
  have hstep {n j : ℕ} (hj : j ≤ 4) (hn : n + j ≤ 1023 * 2 ^ 52) :
      |(F64.pack false (n + j)).toRat - (F64.pack false n).toRat| ≤ 4 / 2 ^ 53 :=
    (F64.pack_toRat_add_sub_le hn).trans (div_le_div_of_nonneg_right (by exact_mod_cast hj) (by positivity))
  have hnearest := F64.pack_false_bits (F64.expNearest t)
  rw [F64.expWithin]
  generalize (F64.expNearest t).bits.toNat = n at *
  rw [← hnearest]
  rcases le_total 4 off.val with hup | hdown
  · have h := hstep (n := n) (j := off.val - 4) (by omega) (by omega)
    rwa [← Nat.add_sub_assoc hup] at h
  · have h := hstep (n := n + off.val - 4) (j := 4 - off.val) (by omega) (by omega)
    rwa [show n + off.val - 4 + (4 - off.val) = n by omega, abs_sub_comm] at h

namespace Machine

theorem alphaExponent_eq (fs : BitVec 32) : alphaExponent fs = F64.div alphaNumerator (F64.ofNat fs.toNat) := rfl

/-- The argument of `exp` in F64 has a relative error of at most 2^-52. -/
theorem abs_alphaExponent_sub_le {fs : BitVec 32} (hrate : 269 ≤ fs.toNat) :
    |((alphaExponent fs).toRat : ℝ) - -(2 * Real.pi * 300) / fs.toNat| ≤
      2 / 2 ^ 53 * -(-(2 * Real.pi * 300) / fs.toNat) := by
  have hrate' : (269 : ℝ) ≤ fs.toNat := by exact_mod_cast hrate
  have hlimit : (fs.toNat : ℝ) ≤ 2 ^ 32 := by exact_mod_cast fs.isLt.le
  have hpos : (0 : ℝ) < fs.toNat := by linarith
  have hden : (F64.ofNat fs.toNat).toRat = fs.toNat :=
    F64.ofNat_toRat (hrate.trans' (by norm_num)) (fs.isLt.le.trans (by norm_num))
  have hround : (alphaExponent fs).RoundsTo (alphaNumerator.toRat / fs.toNat) := by
    rw [alphaExponent_eq, ← hden]
    exact F64.div_roundsTo alphaNumerator_mem.1 (F64.ofNat_rate_mem hrate fs.isLt).1
      (by rw [hden]; exact_mod_cast hpos.ne')
  have hnumerator : |(alphaNumerator.toRat : ℝ) / fs.toNat - -(600 * Real.pi) / fs.toNat| ≤
      600 * Real.pi / fs.toNat / 2 ^ 53 := by
    rw [← sub_div, abs_div, abs_of_pos hpos, div_right_comm]
    exact div_le_div_of_nonneg_right abs_alphaNumerator_sub_le hpos.le
  have hvalue : |(alphaNumerator.toRat : ℝ) / fs.toNat| = 8290122365658328 / 2 ^ 42 / fs.toNat := by
    rw [abs_div, abs_of_pos hpos, alphaNumerator_toRat]
    push_cast
    rw [abs_neg, abs_of_pos (by positivity)]
  obtain ⟨-, herror⟩ := hround.real_error (by push_cast; rfl)
    (by rw [hvalue, div_le_div_iff₀ (by positivity) hpos]; linarith)
    (by rw [hvalue, div_le_iff₀ hpos]; linarith)
  have hexact : -(2 * Real.pi * 300) / fs.toNat = -(600 * Real.pi) / fs.toNat := by ring
  have hopposite : -(600 * Real.pi) / fs.toNat = -(600 * Real.pi / fs.toNat) := neg_div _ _
  have hsize : |600 * Real.pi / fs.toNat| = 600 * Real.pi / fs.toNat := abs_of_pos (by positivity)
  rw [hexact]
  rw [hopposite] at hnumerator ⊢
  generalize 600 * Real.pi / fs.toNat = x at *
  generalize (alphaNumerator.toRat : ℝ) / fs.toNat = y at *
  have htotal := abs_sub_le ((alphaExponent fs).toRat : ℝ) y (-x)
  have hyx := abs_sub_abs_le_abs_sub y (-x)
  rw [abs_neg, hsize] at hyx
  linarith

/-- The exponential of the argument in F64 against that of the exact argument. -/
theorem abs_exp_alphaExponent_sub_le {fs : BitVec 32} (hrate : 269 ≤ fs.toNat) :
    |Real.exp (alphaExponent fs).toRat - Real.exp (-(2 * Real.pi * 300) / fs.toNat)| ≤ 3 / 2 / 2 ^ 53 := by
  have hrate' : (269 : ℝ) ≤ fs.toNat := by exact_mod_cast hrate
  have hexponent : -(-(2 * Real.pi * 300) / fs.toNat) ≤ 2400 := by
    rw [← neg_div, neg_neg, div_le_iff₀ (by linarith)]
    linarith [Real.pi_le_four]
  refine (abs_exp_sub_exp_le (abs_alphaExponent_sub_le hrate) ?_ (by positivity)).trans (by norm_num)
  linarith

/-- The second clause of O50: the four errors together stay below eight times 2^-53. -/
theorem abs_alphaWithin_sub_le (off : Fin 9) {fs : BitVec 32} (hrate : 269 ≤ fs.toNat) :
    |((alphaWithin off fs).toRat : ℝ) - realAlpha fs.toNat| ≤ 1 / 2 ^ 50 := by
  obtain ⟨hfinite, hmem⟩ := alphaExponent_mem hrate
  obtain ⟨hexpFinite, hexpLow, hexpHigh⟩ := F64.expWithin_mem off hfinite hmem
  have hnonpos : (alphaExponent fs).toRat ≤ 0 := hmem.2.trans (by norm_num)
  have hargument := abs_exp_alphaExponent_sub_le hrate
  have hnearest := (F64.abs_expNearest_sub_le hmem.1 hnonpos hfinite).2
  have hunits := F64.abs_expWithin_sub_le off hfinite hmem
  rw [← Rat.cast_le (K := ℝ)] at hunits hexpLow hexpHigh
  push_cast at hunits hexpLow hexpHigh
  have hpeak := (F64.exp_toRat_mem hmem.1 hnonpos).2
  have hround := F64.sub_roundsTo F64.one_isFinite hexpFinite
  rw [F64.one_toRat] at hround
  have hq : ((1 - (F64.expWithin off (alphaExponent fs)).toRat : ℚ) : ℝ) =
      1 - ((F64.expWithin off (alphaExponent fs)).toRat : ℝ) := by push_cast; rfl
  have hvalue : |(1 - (F64.expWithin off (alphaExponent fs)).toRat : ℝ)| =
      1 - ((F64.expWithin off (alphaExponent fs)).toRat : ℝ) := abs_of_nonneg (by linarith)
  obtain ⟨-, hdifference⟩ := hround.real_error hq (by linarith) (by linarith)
  rw [hvalue] at hdifference
  unfold alphaWithin realAlpha
  generalize ((F64.expWithin off (alphaExponent fs)).toRat : ℝ) = w at *
  generalize ((F64.expNearest (alphaExponent fs)).toRat : ℝ) = v at *
  generalize Real.exp (alphaExponent fs).toRat = u at *
  generalize Real.exp (-(2 * Real.pi * 300) / fs.toNat) = z at *
  have hexp : |w - z| ≤ 13 / 2 / 2 ^ 53 := by
    linarith [abs_sub_le w v z, abs_sub_le v u z]
  have hcomplement : |(1 - w) - (1 - z)| = |w - z| := by rw [sub_sub_sub_cancel_left, abs_sub_comm]
  refine (abs_sub_le _ (1 - w) _).trans ?_
  rw [hcomplement]
  linarith

/-- Settles O50, its clauses by the error of `expNearest` and by the four errors of `ALPHA`. -/
theorem alphaIsNearTheRealCoefficient : Obligations.AlphaIsNearTheRealCoefficient := by
  unfold Obligations.AlphaIsNearTheRealCoefficient
  exact ⟨fun t hfinite hlow hhigh => F64.abs_expNearest_sub_le hlow hhigh hfinite,
    fun off fs hrate => ⟨(alphaWithin_mem off hrate).1, abs_alphaWithin_sub_le off hrate⟩⟩

end Machine
end Sys2Proof
end

section
/-! PROOFS. The bit clock's micro-operations ZCN and SLC, and SAMPLE as its micro-operations in order (R91, R94, R95,
R99, R173). -/

namespace Sys2Proof.Machine

/-! ZCN and SLC -/

/-- `ZC` in the `ZC_MODE` of this implementation: a strict sign change (R91, R99). -/
theorem flagZc_f64 (prev y : F64) :
    flagZc prev y = ((F64.lt prev F64.zero && F64.lt F64.zero y) || (F64.lt F64.zero prev && F64.lt y F64.zero)) := rfl

/-- The nudge in the `NUDGE_DIR` of this implementation: up below half a period, down from there on (R91). -/
theorem nudgedPhase_f64 (spb phase : F64) :
    nudgedPhase f64Ops Config.nudgeDir spb phase =
      if F64.lt phase (F64.div spb F64.two) then F64.add phase (F64.mul F64.nudgeFrac spb)
      else F64.sub phase (F64.mul F64.nudgeFrac spb) := by
  cases h : F64.lt phase (F64.div spb F64.two) <;>
    simp [nudgedPhase, Config.nudgeDir, halfPeriod, nudgeStep, f64Ops, h]

theorem wrappedPhase_f64 (spb phase : F64) : wrappedPhase f64Ops spb phase = F64.sub phase spb := rfl

theorem flagBnd_f64 (spb phase : F64) : flagBnd spb phase = F64.le spb phase := rfl

theorem flagBit_f64 (acc : F64) : flagBit acc = F64.lt F64.zero acc := rfl

/-- ZCN at a crossing goes through where the nudged phase is finite (R91). -/
theorem exec_zcn_of_crossing {s : State} {p : F64} (hzc : flagZc s.prevY s.wires.y = true)
    (hp : nudgedPhase f64Ops Config.nudgeDir s.spb s.bitPhase = p) (hfinite : p.isFinite = true) :
    exec .zcn s = .next { s with bitPhase := p, wires := { s.wires with zc := true } } := by
  subst hp
  exact (opZcn_eq_next_iff s _).mpr (.inr ⟨hzc, hfinite, rfl⟩)

/-- Settles O24, by whether there is a crossing and then by the half of the period the phase lies in. -/
theorem zcnNudgesThePhaseAtACrossing : Obligations.ZcnNudgesThePhaseAtACrossing := by
  unfold Obligations.ZcnNudgesThePhaseAtACrossing
  simp only [← flagZc_f64]
  refine ⟨fun s hzc => ?_, ?_, ?_⟩
  · exact (opZcn_eq_next_iff s _).mpr (.inl ⟨hzc, rfl⟩)
  · rintro s p hzc hbelow rfl hfinite
    exact exec_zcn_of_crossing hzc (by rw [nudgedPhase_f64, if_pos hbelow]) hfinite
  · rintro s p hzc habove rfl hfinite
    exact exec_zcn_of_crossing hzc (by rw [nudgedPhase_f64, if_neg (Bool.eq_false_iff.mp habove)]) hfinite

/-- Settles O26, by whether the phase has reached the period. -/
theorem slcSlicesABitAtABoundary : Obligations.SlcSlicesABitAtABoundary := by
  unfold Obligations.SlcSlicesABitAtABoundary
  refine ⟨fun s hbnd hfinite => ?_, fun s hbnd => ?_⟩
  · rw [← flagBit_f64]
    rw [← wrappedPhase_f64] at hfinite ⊢
    exact (opSlc_eq_next_iff s _).mpr (.inr ⟨hbnd, hfinite, rfl⟩)
  · exact (opSlc_eq_next_iff s _).mpr (.inl ⟨hbnd, rfl⟩)

/-! SAMPLE -/

theorem andThen_assoc (o : Result) (f g : State → Result) :
    andThen (andThen o f) g = andThen o (fun s => andThen (f s) g) := by
  cases o with
  | next s => rfl
  | fault r => cases r
  | refused r => rfl

/-- One operation alone is the operation (R48). -/
theorem execAll_singleton (i : Instr) (s : State) : execAll [i] s = exec i s := by
  show andThen (exec i s) Host.Outcome.next = exec i s
  cases exec i s with
  | next t => rfl
  | fault r => cases r
  | refused r => rfl

/-- The numeric part of SAMPLE is its six micro-operations one after the other (R95). -/
theorem execAll_numericOps (s : State) : execAll [.lpf, .zcn, .prv, .acc, .phi, .slc] s = sampleFront s := by
  have hslc : execAll [.slc] = opSlc := funext (execAll_singleton .slc)
  rw [sampleFront, andThen_assoc, andThen_assoc, andThen_assoc, ← hslc]
  rfl

/-- What follows the numeric part: at a boundary the micro-operations of R173 in their order, else `EMITTED` cleared. -/
theorem next_sampleTail (t : State) :
    .next (sampleTail t) =
      if t.wires.bnd then
        andThen (execAll [.wsha, .wshb, .cgen] t) (fun u =>
          andThen (execAll [.sel, .cnf, .emit] (candOrder.foldl decodeCandidate u)) (fun v =>
            .next { v with nSample := t.nSample + 1, nBit := t.nBit + 1 }))
      else (.next { t with nSample := t.nSample + 1, wires := { t.wires with emitted := false } } : Result) := by
  unfold sampleTail
  split
  · rfl
  · rfl

/-- A candidate is its micro-operations in order: those after LUT skipped for a sentinel (R125), and ROMV for a candidate
that TOP3 rejects (R140). -/
theorem next_decodeCandidate (s : State) (k : CandIdx) :
    .next (decodeCandidate s k) =
      andThen (execAll [.syn, .lut] { s with wires := { s.wires with k := k } }) (fun t =>
        if t.wires.turn.eok then
          andThen (execAll [.cor, .ext, .top3] t) (fun u => if u.wires.turn.t3ok then exec .romv u else .next u)
        else .next t) := by
  have hfirst : execAll [.syn, .lut] { s with wires := { s.wires with k := k } } =
      .next (opLut (opSyn (s.turnTo k))) := rfl
  rw [hfirst, andThen_next]
  unfold decodeCandidate
  dsimp only
  split
  · show _ = if (opTop3 (opExt (opCor (opLut (opSyn (s.turnTo k)))))).wires.turn.t3ok then _ else _
    split
    · rfl
    · rfl
  · rfl

/-- Settles O19, from the order of the numeric part, of the boundary part and of one candidate. -/
theorem sampleRunsItsMicroOperationsInOrder : Obligations.SampleRunsItsMicroOperationsInOrder := by
  unfold Obligations.SampleRunsItsMicroOperationsInOrder
  refine ⟨fun s x hbusy hready hfinite => ?_, next_decodeCandidate⟩
  show execSample x s = _
  rw [execSample, guardHostOp_of_legal _ _ _ _ hbusy hready, if_pos hfinite, execAll_numericOps]
  simp only [next_sampleTail]

end Sys2Proof.Machine
end

section
/-! PROOFS. The nominal period in exact real arithmetic, and the bit clock running free on silence (R90, R100, R192). -/

namespace Sys2Proof.Machine

/-! The period -/

/-- The period is a whole number exactly where 5 * FS is a multiple of 672, which is prime to 5 (R90). -/
theorem samplesPerBit_exact_isNat_iff (fs : ℕ) :
    (∃ n : ℕ, samplesPerBit (exactOps ℝ) fs = n) ↔ 672 ∣ fs := by
  have hnat (n : ℕ) : samplesPerBit (exactOps ℝ) fs = n ↔ 10 * fs = n * 1344 := by
    rw [samplesPerBit_exact, div_eq_iff (by norm_num)]
    norm_cast
  simp only [hnat]
  constructor
  · rintro ⟨n, hn⟩
    omega
  · rintro ⟨k, rfl⟩
    exact ⟨5 * k, by ring⟩

/-- The period is at least the two samples of R192 exactly from the least rate of the envelope on. -/
theorem two_le_samplesPerBit_exact_iff (fs : ℕ) : 2 ≤ samplesPerBit (exactOps ℝ) fs ↔ 269 ≤ fs := by
  refine ⟨fun h => ?_, two_le_samplesPerBit_exact⟩
  rw [samplesPerBit_exact, le_div_iff₀ (by norm_num)] at h
  have hnat : 2 * 1344 ≤ 10 * fs := by exact_mod_cast h
  omega

/-- Settles O56, from the exact period. -/
theorem realPeriodIsWholeForMultiplesOf672 : Obligations.RealPeriodIsWholeForMultiplesOf672 := by
  unfold Obligations.RealPeriodIsWholeForMultiplesOf672
  exact fun fs => ⟨samplesPerBit_exact fs, samplesPerBit_exact_isNat_iff fs, two_le_samplesPerBit_exact_iff fs⟩

/-! Silence -/

/-- The registers of type NUM in the midst of silence: all at zero but the coefficient, the period and the phase. -/
def Front.silent (alpha spb phase : ℝ) : Front ℝ where
  alpha := alpha
  spb := spb
  lpfY := 0
  prevY := 0
  bitPhase := phase
  bitAcc := 0

/-- CREATE leaves the registers silent, with the phase at 0 (R210). -/
theorem Front.created_real_eq_silent (fs : BitVec 32) :
    Front.created realInstance fs = Front.silent (realAlpha fs.toNat) (samplesPerBit (exactOps ℝ) fs.toNat) 0 := rfl

/-- A sample of silence advances the phase by 1, and at a boundary slices a 0 and takes off the period (R100). -/
theorem Front.sample_silent (alpha spb phase : ℝ) :
    Front.sample (exactOps ℝ) .strict .asWritten (Front.silent alpha spb phase) 0 =
      if spb ≤ phase + 1 then (Front.silent alpha spb (phase + 1 - spb), some false)
      else (Front.silent alpha spb (phase + 1), none) := by
  have hy : filtered (exactOps ℝ) alpha 0 0 = 0 := by rw [filtered_exact]; ring
  have hphase : phaseAfterZcn (exactOps ℝ) .strict .asWritten spb 0 0 phase = phase := by
    simp [phaseAfterZcn, signChange, exactOps]
  have hacc : accumulated (exactOps ℝ) 0 0 = 0 := add_zero 0
  have hbit : slicedBit (exactOps ℝ) 0 = false := by simp [slicedBit, exactOps]
  simp only [Front.sample, Front.silent, hy, hphase, hacc, hbit, advancedPhase_exact, wrappedPhase_exact,
    atBoundary_exact, decide_eq_true_eq]
  rfl

/-- A sample of silence goes into the phase and at most one boundary, which slices a 0, and leaves the phase inside the
period (R97, R100). -/
theorem Front.exists_sample_silent (alpha : ℝ) {spb phase : ℝ} (hspb : 1 ≤ spb) (hphase : phase ∈ Set.Ico 0 spb) :
    ∃ left ∈ Set.Ico 0 spb, ∃ o,
      Front.sample (exactOps ℝ) .strict .asWritten (Front.silent alpha spb phase) 0 =
        (Front.silent alpha spb left, o) ∧
      left + (if o.isSome then 1 else 0 : ℕ) * spb = phase + 1 ∧ ∀ b, some b = o → b = false := by
  obtain ⟨hlow, hhigh⟩ := hphase
  rw [Front.sample_silent]
  by_cases hbnd : spb ≤ phase + 1
  · exact ⟨phase + 1 - spb, ⟨by linarith, by linarith⟩, some false, if_pos hbnd, by simp, by simp⟩
  · exact ⟨phase + 1, ⟨by linarith, by linarith⟩, none, if_neg hbnd, by simp, nofun⟩

/-- Over silence from any phase of the period, the samples go into the boundaries and the phase that is left, which
stays inside the period, and every boundary slices a 0 (R100). -/
theorem Front.stream_silent (alpha : ℝ) {spb phase : ℝ} (hspb : 1 ≤ spb) (hphase : phase ∈ Set.Ico 0 spb) (n : ℕ) :
    let r := Front.stream (exactOps ℝ) .strict .asWritten (Front.silent alpha spb phase) (List.replicate n 0)
    ∃ left ∈ Set.Ico 0 spb, r.1 = Front.silent alpha spb left ∧
      left + r.2.countP Option.isSome * spb = phase + n ∧ ∀ b, some b ∈ r.2 → b = false := by
  induction n generalizing phase with
  | zero => exact ⟨phase, hphase, rfl, by simp [Front.stream], nofun⟩
  | succ n ih =>
    obtain ⟨mid, hmid, o, hsample, hadvance, hbit⟩ := Front.exists_sample_silent alpha hspb hphase
    obtain ⟨left, hleft, hregs, hcount, hbits⟩ := ih hmid
    simp only [List.replicate_succ, Front.stream, hsample]
    refine ⟨left, hleft, hregs, ?_, ?_⟩
    · rw [List.countP_cons]
      push_cast at hadvance ⊢
      linarith
    · intro b hb
      exact (List.mem_cons.mp hb).elim (hbit b) (hbits b)

/-- The boundaries of `n` samples are `floor(n / SPB)` where the phase that is left lies inside the period (R100). -/
theorem boundaries_eq_div {fs n k : ℕ}
    (h : n - k * samplesPerBit (exactOps ℝ) fs ∈ Set.Ico 0 (samplesPerBit (exactOps ℝ) fs)) :
    k = n * 1344 / (10 * fs) := by
  obtain ⟨hlow, hhigh⟩ := h
  rw [samplesPerBit_exact] at hlow hhigh
  have hle : (k * (10 * fs) : ℝ) ≤ n * 1344 := by linarith
  have hlt : (n * 1344 : ℝ) < (k + 1) * (10 * fs) := by linarith
  exact (Nat.div_eq_of_lt_le (by exact_mod_cast hle) (by exact_mod_cast hlt)).symm

/-- Settles O60, from the silent stream that starts at the phase 0. -/
theorem realSilenceSlicesOneBitAPeriod : Obligations.RealSilenceSlicesOneBitAPeriod := by
  unfold Obligations.RealSilenceSlicesOneBitAPeriod
  intro fs n hrate f r
  have hspb : 2 ≤ f.spb := two_le_samplesPerBit_exact hrate
  have hstream := Front.stream_silent (realAlpha fs.toNat) (by linarith) ⟨le_refl 0, by linarith⟩ n (spb := f.spb)
  rw [Front.created_spb, realInstance_ops, ← Front.created_real_eq_silent] at hstream
  obtain ⟨left, hleft, hregs, hcount, hbits⟩ := hstream
  have hphase : r.1.bitPhase = left := congrArg Front.bitPhase hregs
  have hleft_eq : left = n - r.2.countP Option.isSome * f.spb := eq_sub_of_add_eq (hcount.trans (zero_add _))
  rw [← boundaries_eq_div (hleft_eq ▸ hleft), hphase]
  exact ⟨rfl, hleft_eq, congrArg Front.bitAcc hregs, hbits⟩

end Sys2Proof.Machine
end

section
/-! PROOFS. The windows micro-operation by micro-operation: the two shifts as numbers and bit by bit, and the four
candidates (R110, R111, R112). -/

namespace Sys2Proof.Machine

/-! The shifts as numbers -/

theorem bitWord_toNat (b : Bool) : (bitWord b).toNat = b.toNat := by
  cases b <;> rfl

/-- The shifted window and the bit at place 22 share no place, so that `|` adds them (R110). -/
theorem shiftedA_toNat (w : Word23) (b : Bool) : (shiftedA w b).toNat = w.toNat / 2 + b.toNat * 2 ^ 22 := by
  have hw : w.toNat / 2 < 2 ^ 22 := by omega
  have hb : b.toNat * 2 ^ 22 < 2 ^ 23 := by have := b.toNat_lt; omega
  calc (shiftedA w b).toNat
      = w.toNat / 2 ||| b.toNat * 2 ^ 22 := by
        rw [shiftedA, BitVec.toNat_or, BitVec.toNat_ushiftRight, BitVec.toNat_shiftLeft, bitWord_toNat,
          Nat.shiftRight_eq_div_pow, Nat.pow_one, Nat.shiftLeft_eq, Nat.mod_eq_of_lt hb]
    _ = 2 ^ 22 * b.toNat + w.toNat / 2 := by rw [Nat.two_pow_add_eq_or_of_lt hw, Nat.or_comm, Nat.mul_comm]
    _ = w.toNat / 2 + b.toNat * 2 ^ 22 := by omega

/-- The shifted window has an even number below the bit that is dropped, so that `|` adds the bit (R111). -/
theorem shiftedB_toNat (w : Word23) (b : Bool) : (shiftedB w b).toNat = (w.toNat * 2 + b.toNat) % 2 ^ 23 := by
  have hb : b.toNat < 2 ^ 1 := b.toNat_lt
  have heven : w.toNat * 2 % 2 ^ 23 = 2 ^ 1 * (w.toNat % 2 ^ 22) := by omega
  calc (shiftedB w b).toNat
      = w.toNat * 2 % 2 ^ 23 ||| b.toNat := by
        rw [shiftedB, BitVec.toNat_or, BitVec.toNat_shiftLeft, bitWord_toNat, Nat.shiftLeft_eq, Nat.pow_one]
    _ = 2 ^ 1 * (w.toNat % 2 ^ 22) + b.toNat := by rw [heven, Nat.two_pow_add_eq_or_of_lt hb]
    _ = (w.toNat * 2 + b.toNat) % 2 ^ 23 := by omega

/-! The shifts bit by bit -/

theorem shiftedA_getLsbD (w : Word23) (b : Bool) {i : Nat} (hi : i < 23) :
    (shiftedA w b).getLsbD i = if i = 22 then b else w.getLsbD (i + 1) := by
  split
  · next h => rw [h, shiftedA_getLsbD_top]
  · next h => exact shiftedA_getLsbD_of_lt w b (by omega)

theorem shiftedB_getLsbD (w : Word23) (b : Bool) {i : Nat} (hi : i < 23) :
    (shiftedB w b).getLsbD i = if i = 0 then b else w.getLsbD (i - 1) := by
  cases i with
  | zero => exact shiftedB_getLsbD_zero w b
  | succ i => exact shiftedB_getLsbD_succ w b (by omega)

/-- Settles O28: each micro-operation writes its window alone, and the two rules of the shift give number and bits. -/
theorem windowShiftsMoveEveryBitOnePlace : Obligations.WindowShiftsMoveEveryBitOnePlace := by
  unfold Obligations.WindowShiftsMoveEveryBitOnePlace
  exact ⟨fun s => ⟨_, rfl, shiftedA_toNat _ _, fun _ hi => shiftedA_getLsbD _ _ hi⟩,
    fun s => ⟨_, rfl, shiftedB_toNat _ _, fun _ hi => shiftedB_getLsbD _ _ hi⟩⟩

/-! The candidates -/

/-- The complement over 23 bits takes a word's number from that of 23 ones (R112). -/
theorem not_word23_eq_ofNat_sub (w : Word23) : ~~~w = BitVec.ofNat 23 (0x7FFFFF - w.toNat) := by
  apply BitVec.eq_of_toNat_eq
  rw [BitVec.toNat_not, BitVec.toNat_ofNat]
  omega

/-- CGEN writes the word and the polarity of each of the four candidates, and nothing else (R112). -/
theorem opCgen_eq (s : State) :
    opCgen s = { s with wires := { s.wires with
      candA := { s.wires.candA with cand := s.windowA, cinv := false }
      candNotA := { s.wires.candNotA with cand := ~~~s.windowA, cinv := true }
      candB := { s.wires.candB with cand := s.windowB, cinv := false }
      candNotB := { s.wires.candNotB with cand := ~~~s.windowB, cinv := true } } } := rfl

/-- Settles O29: the four candidates CGEN writes, the complements as numbers. -/
theorem cgenFormsTheFourCandidates : Obligations.CgenFormsTheFourCandidates := by
  unfold Obligations.CgenFormsTheFourCandidates
  intro s
  have hexec : exec .cgen s = .next (opCgen s) := rfl
  refine ⟨_, _, _, _, hexec.trans (congrArg Host.Outcome.next (opCgen_eq s)), rfl, ?_, rfl, ?_⟩
  · rw [not_word23_eq_ofNat_sub]
  · rw [not_word23_eq_ofNat_sub]

end Sys2Proof.Machine
end

section
/-! PROOFS. A bit boundary with the transients that stay visible after it: SLC's two, which it keeps, and `EMITTED`
(R94, R156, R173). -/

namespace Sys2Proof.Machine

/-! The transients of SLC -/

/-- The transients SLC writes: `BND` and `BIT` (R94). -/
def Wires.slice (w : Wires) : Bool × Bool := (w.bnd, w.bit)

theorem Wires.setCandidate_slice (w : Wires) (k : CandIdx) (c : CandWires) : (w.setCandidate k c).slice = w.slice := by
  cases k <;> rfl

theorem decodeCandidate_slice (s : State) (k : CandIdx) : (decodeCandidate s k).wires.slice = s.wires.slice := by
  rw [decodeCandidate_eq]
  exact Wires.setCandidate_slice _ _ _

theorem candidateLoop_slice (ks : List CandIdx) (s : State) :
    (ks.foldl decodeCandidate s).wires.slice = s.wires.slice := by
  induction ks generalizing s with
  | nil => rfl
  | cons k ks ih => exact (ih _).trans (decodeCandidate_slice s k)

theorem opSel_slice (s : State) : (opSel s).wires.slice = s.wires.slice := by
  unfold opSel
  cases h : firstValid s.wires candOrder <;> simp [h, Wires.slice]

theorem opCnf_slice (s : State) : (opCnf s).wires.slice = s.wires.slice := by
  unfold opCnf
  dsimp only
  split
  · rfl
  · split <;> rfl

theorem opEmit_slice (s : State) : (opEmit s).wires.slice = s.wires.slice := by
  rcases opEmit_cases s with ⟨-, -, h⟩ | ⟨-, h⟩ <;> rw [h] <;> rfl

/-- No micro-operation of a bit boundary writes `BND` or `BIT` (R173). -/
theorem sampleBoundary_slice (s : State) : (sampleBoundary s).wires.slice = s.wires.slice := by
  rw [sampleBoundary, opEmit_slice, opCnf_slice, opSel_slice, candidateLoop_slice]
  rfl

/-! The event asked for and delivered -/

/-- The transition table asks for an event exactly where `MATCH` and the raised counter do (R150, R154). -/
theorem confirmation_emits_some (s : State) (c : Code) (i : Bool) :
    s.confirmation.emits (some (c, i)) = flagEmitReq (flagMatch true c i s.lastCode s.lastInv) (s.counter + 1) := by
  have hlast : decide (s.confirmation.last = some (c, i)) = flagMatch true c i s.lastCode s.lastInv :=
    Bool.eq_iff_iff.mpr (decide_eq_true_iff.trans (confirmation_last_eq_iff s c i))
  have hcount : decide (1 ≤ s.confirmation.counter) = decide (Config.confirmMin ≤ s.counter + 1) :=
    decide_eq_decide.mpr Nat.succ_le_succ_iff.symm
  rw [Confirmation.emits, hlast, hcount]
  rfl

/-- `EMITREQ` as CNF leaves it is what the transition table asks (R154). -/
theorem opCnf_emitReq (s : State) : (opCnf s).wires.emitReq = s.confirmation.emits s.wires.decode := by
  cases hf : s.wires.found with
  | false =>
    rw [opCnf_miss s hf, Wires.decode, hf]
    rfl
  | true =>
    rw [Wires.decode, if_pos hf, confirmation_emits_some]
    cases hm : flagMatch true s.wires.dcode s.wires.dinv s.lastCode s.lastInv with
    | false =>
      rw [opCnf_different s hf hm]
      rfl
    | true => rw [opCnf_match s hf hm]

theorem opEmit_emitted (s : State) : (opEmit s).wires.emitted = (s.wires.emitReq && s.sinkEn) := by
  rcases opEmit_cases s with ⟨hreq, hen, h⟩ | ⟨hnot, h⟩
  · rw [h, hreq, hen]
    rfl
  · rw [h, Bool.and_eq_false_iff.mpr hnot]
    rfl

theorem opEmit_opCnf_emitted (s : State) :
    (opEmit (opCnf s)).wires.emitted = (s.confirmation.emits s.wires.decode && s.sinkEn) := by
  obtain ⟨c, i, n, w, hcnf⟩ := opCnf_frame s
  have hen : (opCnf s).sinkEn = s.sinkEn := by rw [hcnf]
  rw [opEmit_emitted, opCnf_emitReq, hen]

/-- CGEN, the loop and SEL write transients only. -/
theorem opSel_candidateLoop_frame (s : State) :
    s.sameButWires (opSel (candOrder.foldl decodeCandidate (opCgen s))) :=
  State.sameButWires_trans (opCgen_frame s)
    (State.sameButWires_trans (candidateLoop_frame candOrder _) (opSel_frame _))

/-- A bit boundary delivers where the transition table asks for an event of the windows' decode and a sink is bound
(R150, R156). -/
theorem sampleBoundary_emitted (s : State) :
    (sampleBoundary s).wires.emitted =
      (s.confirmation.emits (s.shifted s.wires.bit).windowDecode && s.sinkEn) := by
  unfold sampleBoundary
  generalize hv : opWshb (opWsha s) = v
  have hshift : s.shifted s.wires.bit = v := hv
  have hkept : v.confirmation = s.confirmation ∧ v.sinkEn = s.sinkEn := hv ▸ ⟨rfl, rfl⟩
  obtain ⟨hconf, hen⟩ := hkept
  have hframe := opSel_candidateLoop_frame v
  have hdecode := opSel_candidateLoop_decode v
  generalize opSel (candOrder.foldl decodeCandidate (opCgen v)) = u at hframe hdecode ⊢
  rw [hshift, ← hconf, ← hen, ← hdecode, opEmit_opCnf_emitted]
  obtain ⟨w, rfl⟩ := (State.sameButWires_iff v u).mp hframe
  rfl

/-! SAMPLE at a bit boundary -/

theorem confirmed_some (s : State) (p : Code × Bool) :
    s.confirmed (some p) = { s with
      lastCode := some p.1
      lastInv := p.2
      counter := (s.confirmation.next (some p)).counter
      events := if s.confirmation.emits (some p) && s.sinkEn then
        s.events ++ [{ sink := s.sink, ctx := s.sinkCtx, inv := p.2, code := p.1 }] else s.events } := by
  unfold State.confirmed
  cases h : s.confirmation.emits (some p) && s.sinkEn <;> simp

/-- What SLC leaves at a boundary, the sample not yet counted (R94, R95). -/
def State.slicedAt (s : State) (x : F64) (f : Front F64) (b : Bool) : State :=
  { s.withNumeric f with
    nSample := s.nSample
    wires := { s.wires with x := x, y := f.lpfY, zc := flagZc s.prevY f.lpfY, bnd := true, bit := b } }

/-- The end of a SAMPLE at a boundary: its micro-operations from WSHA on, and the ghost counters (R173). -/
theorem sampleTail_afterFront_of_some {s : State} {x : F64} {f : Front F64} {b : Bool}
    (h : Front.sample f64Ops Config.zcMode Config.nudgeDir s.front x = (f, some b)) :
    sampleTail (State.afterFront { s with wires := { s.wires with x := x } }) =
      { sampleBoundary (s.slicedAt x f b) with nSample := s.nSample + 1, nBit := s.nBit + 1 } := by
  have h' : Front.sample f64Ops Config.zcMode Config.nudgeDir
      ({ s with wires := { s.wires with x := x } } : State).front x = (f, some b) := h
  rw [State.afterFront, h']
  show sampleTail (s.slicedAt x f b) = _
  rfl

/-- Settles O18: the registers are those the sliced bit leads to, by whether the windows decode; the visible transients
are those that SLC and EMIT wrote. -/
theorem sampleAtABitBoundary : Obligations.SampleAtABitBoundary := by
  unfold Obligations.SampleAtABitBoundary
  rintro s x f b a bw d hbusy hlife henv hr rfl rfl hd
  have hexec := (execSample_eq_next_iff_inEnvelope x s _).mpr ⟨hbusy, hlife, henv, rfl⟩
  rw [sampleTail_afterFront_of_some hr] at hexec
  have hregs := execSample_registers hexec
  have hdecode : ((s.withNumeric f).shifted b).windowDecode = d := hd.symm
  have hdecode' : ((s.slicedAt x f b).shifted b).windowDecode = d := hdecode
  have hemitted := sampleBoundary_emitted (s.slicedAt x f b)
  obtain ⟨hbnd, hbit⟩ := Prod.mk.inj (sampleBoundary_slice (s.slicedAt x f b))
  rw [State.sampled_of_some hr, State.boundary, hdecode] at hregs
  rw [show (s.slicedAt x f b).wires.bit = b from rfl, hdecode'] at hemitted
  refine ⟨_, hexec.trans (congrArg Host.Outcome.next (Eq.trans hregs ?_)), hemitted, hbnd, hbit⟩
  cases d with
  | none => rw [confirmed_none]; rfl
  | some p => rw [confirmed_some]; rfl

end Sys2Proof.Machine
end

section
/-! SUPPORT. Maps of words that keep sums over GF(2). A word is the sum of its single bits, so such a map is known from
its values on the words with one bit: a law of the code becomes a check of 11, 12 or 23 words. -/

namespace Sys2Proof

/-- The map keeps sums over GF(2). -/
def XorLinear {n m : Nat} (f : BitVec n → BitVec m) : Prop := ∀ u v, f (u ^^^ v) = f u ^^^ f v

theorem XorLinear.zero {n m : Nat} {f : BitVec n → BitVec m} (hf : XorLinear f) : f 0 = 0 := by
  have h := hf 0 0
  rwa [BitVec.xor_self, BitVec.xor_self] at h

theorem XorLinear.comp {n m k : Nat} {f : BitVec n → BitVec m} {g : BitVec m → BitVec k} (hg : XorLinear g)
    (hf : XorLinear f) : XorLinear (fun w => g (f w)) := fun u v => by simp only [hf u v, hg (f u)]

theorem XorLinear.add {n m : Nat} {f g : BitVec n → BitVec m} (hf : XorLinear f) (hg : XorLinear g) :
    XorLinear (fun w => f w ^^^ g w) := fun u v => by simp only [hf u v, hg u v]; ac_rfl

theorem XorLinear.iterate {n : Nat} {f : BitVec n → BitVec n} (hf : XorLinear f) (k : Nat) : XorLinear f^[k] := by
  induction k with
  | zero => exact fun _ _ => rfl
  | succ k ih => exact ih.comp hf

theorem xorLinear_id {n : Nat} : XorLinear (fun w : BitVec n => w) := fun _ _ => rfl

theorem xorLinear_zero {n m : Nat} : XorLinear (fun _ : BitVec n => (0 : BitVec m)) := fun _ _ => BitVec.xor_self.symm

theorem xorLinear_setWidth {n m : Nat} : XorLinear (fun w : BitVec n => w.setWidth m) := fun _ _ =>
  BitVec.setWidth_xor

theorem xorLinear_extractLsb' {n : Nat} (start len : Nat) : XorLinear (fun w : BitVec n => w.extractLsb' start len) :=
  fun _ _ => BitVec.extractLsb'_xor

theorem xorLinear_shiftLeft {n : Nat} (k : Nat) : XorLinear (fun w : BitVec n => w <<< k) := fun _ _ =>
  BitVec.shiftLeft_xor_distrib _ _ _

theorem xorLinear_ushiftRight {n : Nat} (k : Nat) : XorLinear (fun w : BitVec n => w >>> k) := fun _ _ =>
  BitVec.ushiftRight_xor_distrib _ _ _

theorem getLsbD_xor_bit {n k : Nat} (hk : k < n) (w : BitVec n) (j : Nat) :
    (w ^^^ (1#n <<< k)).getLsbD j = (w.getLsbD j ^^ decide (k = j)) := by
  have hbit := BitVec.getLsbD_twoPow (w := n) k j
  rw [BitVec.twoPow, decide_eq_true hk, Bool.true_and] at hbit
  rw [BitVec.getLsbD_xor, hbit]

theorem xor_bit_xor_bit {n : Nat} (w : BitVec n) (k : Nat) : w ^^^ (1#n <<< k) ^^^ (1#n <<< k) = w := by
  rw [BitVec.xor_assoc, BitVec.xor_self, BitVec.xor_zero]

/-- The word has no bit at the place `k` or above it. -/
def ClearFrom {n : Nat} (k : Nat) (w : BitVec n) : Prop := ∀ j, k ≤ j → w.getLsbD j = false

theorem clearFrom_width {n : Nat} (w : BitVec n) : ClearFrom n w := fun _ hj => BitVec.getLsbD_of_ge w _ hj

theorem clearFrom_zero_iff {n : Nat} (w : BitVec n) : ClearFrom 0 w ↔ w = 0 := by
  refine ⟨fun h => BitVec.eq_of_getLsbD_eq fun j _ => ?_, fun h _ _ => by simp [h]⟩
  rw [h j (Nat.zero_le j)]
  simp

theorem clearFrom_iff_succ {n : Nat} (k : Nat) (w : BitVec n) :
    ClearFrom k w ↔ w.getLsbD k = false ∧ ClearFrom (k + 1) w := by
  refine ⟨fun h => ⟨h k le_rfl, fun j hj => h j (by omega)⟩, fun ⟨hbit, h⟩ j hj => ?_⟩
  rcases Nat.eq_or_lt_of_le hj with rfl | hj
  · exact hbit
  · exact h j hj

/-- A word's highest bit taken away. -/
theorem ClearFrom.xor_bit {n k : Nat} (hk : k < n) {w : BitVec n} (h : ClearFrom (k + 1) w)
    (hbit : w.getLsbD k = true) : ClearFrom k (w ^^^ (1#n <<< k)) := by
  rw [clearFrom_iff_succ]
  refine ⟨by simp [getLsbD_xor_bit hk, hbit], fun j hj => ?_⟩
  rw [getLsbD_xor_bit hk, h j hj, decide_eq_false (by omega)]
  rfl

/-- What holds of 0 and is kept when a single bit is added holds of every word. -/
theorem bitVec_xor_induction {n : Nat} {P : BitVec n → Prop} (zero : P 0)
    (bit : ∀ w, ∀ k < n, P w → P (w ^^^ (1#n <<< k))) (w : BitVec n) : P w := by
  suffices h : ∀ k ≤ n, ∀ w : BitVec n, ClearFrom k w → P w from h n le_rfl w (clearFrom_width w)
  intro k
  induction k with
  | zero => exact fun _ w hw => (clearFrom_zero_iff w).mp hw ▸ zero
  | succ k ih =>
    intro hk w hw
    cases hbit : w.getLsbD k with
    | false => exact ih (by omega) w ((clearFrom_iff_succ k w).mpr ⟨hbit, hw⟩)
    | true => exact xor_bit_xor_bit w k ▸ bit _ k hk (ih (by omega) _ (hw.xor_bit hk hbit))

/-- Two maps that keep sums and agree on the words with one bit are equal. -/
theorem XorLinear.ext {n m : Nat} {f g : BitVec n → BitVec m} (hf : XorLinear f) (hg : XorLinear g)
    (h : ∀ k < n, f (1#n <<< k) = g (1#n <<< k)) (w : BitVec n) : f w = g w := by
  induction w using bitVec_xor_induction with
  | zero => rw [hf.zero, hg.zero]
  | bit w k hk ih => rw [hf, hg, ih, h k hk]

/-- Words with no place in common: `|` adds them over GF(2). -/
theorem or_eq_xor_of_and_eq_zero {n : Nat} {u v : BitVec n} (h : u &&& v = 0) : u ||| v = u ^^^ v := by
  refine BitVec.eq_of_getLsbD_eq fun j _ => ?_
  have hj : (u.getLsbD j && v.getLsbD j) = false := by rw [← BitVec.getLsbD_and, h]; simp
  rw [BitVec.getLsbD_or, BitVec.getLsbD_xor]
  revert hj
  cases u.getLsbD j <;> cases v.getLsbD j <;> simp

/-- A bit that a word does not have: `|` adds it. -/
theorem or_bit_eq_xor {n k : Nat} {w : BitVec n} (h : w.getLsbD k = false) :
    w ||| (1#n <<< k) = w ^^^ (1#n <<< k) := by
  refine or_eq_xor_of_and_eq_zero ((BitVec.and_twoPow w k).trans ?_)
  simp [h]

end Sys2Proof
end

section
/-! SUPPORT. The syndrome as a map that keeps sums: what is left of a word by the division, the multiples of the
generator, the encoder and the rotation (R120 to R122, R130, R132). -/

namespace Sys2Proof.Machine

/-! The division -/

/-- The working value when the division is done (R121). -/
def divided (w : Word23) : Word23 := divisionPositions.foldl divisionStep w

theorem syndrome_eq (w : Word23) : syndrome w = (divided w).extractLsb' 0 11 := rfl

/-- A word added on a condition: the sum of two such additions adds it where one of the conditions holds. -/
theorem xor_of_cond (a b : Bool) (c u v : Word23) :
    (if a ^^ b then (u ^^^ v) ^^^ c else u ^^^ v) = (if a then u ^^^ c else u) ^^^ (if b then v ^^^ c else v) := by
  cases a <;> cases b
  · rfl
  · exact BitVec.xor_assoc _ _ _
  · show u ^^^ v ^^^ c = u ^^^ c ^^^ v
    ac_rfl
  · show u ^^^ v = u ^^^ c ^^^ (v ^^^ c)
    rw [BitVec.xor_comm v, BitVec.xor_assoc u, ← BitVec.xor_assoc c, BitVec.xor_self, BitVec.zero_xor]

theorem divisionStep_xorLinear (i : Nat) : XorLinear (fun w => divisionStep w i) := fun u v => by
  simp only [divisionStep, BitVec.getLsbD_xor]
  exact xor_of_cond _ _ _ u v

theorem divided_xorLinear : XorLinear divided := by
  unfold divided
  generalize divisionPositions = positions
  induction positions with
  | nil => exact xorLinear_id
  | cons i rest ih => exact ih.comp (divisionStep_xorLinear i)

/-- The syndrome of a sum is the sum of the syndromes (R122(b)). -/
theorem syndrome_xorLinear : XorLinear syndrome := fun u v => by
  rw [syndrome_eq, syndrome_eq, syndrome_eq, divided_xorLinear, BitVec.extractLsb'_xor]

/-- After the division the places 22 to 11 are clear: the mask of R121 only states it. -/
theorem divided_eq_syndrome (w : Word23) : divided w = (syndrome w).zeroExtend 23 :=
  divided_xorLinear.ext (xorLinear_setWidth.comp syndrome_xorLinear) (by decide +kernel) w

/-! Multiples of the generator -/

/-- The generator added to a word, shifted to each place of a list that `q` has (R120). -/
def addMultiple (q : Data12) (places : List Nat) (w : Word23) : Word23 :=
  places.foldl (fun r i => if q.getLsbD i then r ^^^ (Config.generator <<< i) else r) w

theorem multipleOfG_eq (q : Data12) : multipleOfG q = addMultiple q (List.range 12) 0#23 := rfl

theorem addMultiple_xor (p q : Data12) (places : List Nat) (u v : Word23) :
    addMultiple (p ^^^ q) places (u ^^^ v) = addMultiple p places u ^^^ addMultiple q places v := by
  induction places generalizing u v with
  | nil => rfl
  | cons i rest ih =>
    simp only [addMultiple, List.foldl_cons] at ih ⊢
    rw [← ih, ← xor_of_cond, BitVec.getLsbD_xor]

theorem multipleOfG_xorLinear : XorLinear multipleOfG := fun p q => by
  rw [multipleOfG_eq, multipleOfG_eq, multipleOfG_eq, ← addMultiple_xor, BitVec.xor_self]

theorem isCodeword_zero : IsCodeword 0 := ⟨0, multipleOfG_xorLinear.zero.symm⟩

theorem IsCodeword.xor {u v : Word23} (hu : IsCodeword u) (hv : IsCodeword v) : IsCodeword (u ^^^ v) := by
  obtain ⟨p, rfl⟩ := hu
  obtain ⟨q, rfl⟩ := hv
  exact ⟨p ^^^ q, (multipleOfG_xorLinear p q).symm⟩

/-- The generator shifted is a multiple of it (R120). -/
theorem isCodeword_generator {k : Nat} (hk : k < 12) : IsCodeword (Config.generator <<< k) := by
  have hsingle : ∀ k < 12, Config.generator <<< k = multipleOfG (1#12 <<< k) := by decide +kernel
  exact ⟨_, hsingle k hk⟩

/-- A step of the division subtracts a multiple of the generator. -/
theorem isCodeword_xor_divisionStep {i : Nat} (hi : i ≤ 22) (w : Word23) : IsCodeword (w ^^^ divisionStep w i) := by
  unfold divisionStep
  split
  · rw [← BitVec.xor_assoc, BitVec.xor_self, BitVec.zero_xor]
    exact isCodeword_generator (by omega)
  · rw [BitVec.xor_self]
    exact isCodeword_zero

/-- So does any number of steps. -/
theorem isCodeword_xor_foldl_divisionStep {positions : List Nat} (hplaces : ∀ i ∈ positions, i ≤ 22) (w : Word23) :
    IsCodeword (w ^^^ positions.foldl divisionStep w) := by
  induction positions generalizing w with
  | nil => exact (BitVec.xor_self (x := w)).symm ▸ isCodeword_zero
  | cons i rest ih =>
    have hfirst := isCodeword_xor_divisionStep (hplaces i (.head _)) w
    have hrest := ih (fun j hj => hplaces j (.tail _ hj)) (divisionStep w i)
    have hsum := hfirst.xor hrest
    rwa [BitVec.xor_assoc, ← BitVec.xor_assoc (divisionStep w i), BitVec.xor_self, BitVec.zero_xor] at hsum

theorem isCodeword_xor_divided (w : Word23) : IsCodeword (w ^^^ divided w) :=
  isCodeword_xor_foldl_divisionStep (by decide) w

/-- The syndrome is the remainder by the generator (R122(a)). -/
theorem exists_eq_multipleOfG_xor_syndrome (w : Word23) :
    ∃ q : Data12, w = multipleOfG q ^^^ (syndrome w).zeroExtend 23 := by
  obtain ⟨q, hq⟩ := isCodeword_xor_divided w
  refine ⟨q, ?_⟩
  rw [← divided_eq_syndrome, ← hq, BitVec.xor_assoc, BitVec.xor_self, BitVec.xor_zero]

theorem syndrome_multipleOfG (q : Data12) : syndrome (multipleOfG q) = 0 :=
  (syndrome_xorLinear.comp multipleOfG_xorLinear).ext xorLinear_zero (by decide +kernel) q

/-- The syndrome is zero exactly for codewords (R122(a)). -/
theorem syndrome_eq_zero_iff (w : Word23) : syndrome w = 0 ↔ IsCodeword w := by
  constructor
  · intro h
    obtain ⟨q, hq⟩ := exists_eq_multipleOfG_xor_syndrome w
    rw [h] at hq
    exact ⟨q, hq.trans BitVec.xor_zero⟩
  · rintro ⟨q, rfl⟩
    exact syndrome_multipleOfG q

/-- The word of 23 ones is a codeword, so a word and its complement have one syndrome (R122(d)). -/
theorem syndrome_allOnes : syndrome 0x7FFFFF#23 = 0 := by decide +kernel

theorem syndrome_not (w : Word23) : syndrome (~~~w) = syndrome w := by
  have hones : syndrome (BitVec.allOnes 23) = 0#11 := syndrome_allOnes
  rw [← BitVec.xor_allOnes, syndrome_xorLinear, hones, BitVec.xor_zero]

/-- Two words with one syndrome differ by a codeword. -/
theorem syndrome_eq_iff (u v : Word23) : syndrome u = syndrome v ↔ IsCodeword (u ^^^ v) := by
  rw [← syndrome_eq_zero_iff, syndrome_xorLinear]
  exact BitVec.xor_eq_zero_iff.symm

/-! The encoder -/

/-- The message and its parity bits share no place, so that `|` adds them (R130). -/
theorem enc_eq_xor (d : Data12) :
    enc d = (d.setWidth 23 <<< 11) ^^^ (syndrome (d.setWidth 23 <<< 11)).setWidth 23 := by
  refine or_eq_xor_of_and_eq_zero (BitVec.eq_of_getLsbD_eq fun j _ => ?_)
  rcases Nat.lt_or_ge j 11 with hj | hj
  · simp [hj]
  · simp [BitVec.getLsbD_of_ge _ j hj]

theorem enc_xorLinear : XorLinear enc := by
  have hplaced : XorLinear (fun d : Data12 => d.setWidth 23 <<< 11) := (xorLinear_shiftLeft 11).comp xorLinear_setWidth
  intro c d
  rw [enc_eq_xor, enc_eq_xor, enc_eq_xor]
  exact hplaced.add (xorLinear_setWidth.comp (syndrome_xorLinear.comp hplaced)) c d

theorem dataField_xorLinear : XorLinear dataField := xorLinear_extractLsb' 11 12

theorem dataField_enc (d : Data12) : dataField (enc d) = d :=
  (dataField_xorLinear.comp enc_xorLinear).ext xorLinear_id (by decide +kernel) d

theorem syndrome_enc (d : Data12) : syndrome (enc d) = 0 :=
  (syndrome_xorLinear.comp enc_xorLinear).ext xorLinear_zero (by decide +kernel) d

/-- A word differs from the codeword of its data bits by its syndrome in the parity places (R130). -/
theorem eq_enc_xor_syndrome (w : Word23) : w = enc (dataField w) ^^^ (syndrome w).setWidth 23 :=
  xorLinear_id.ext ((enc_xorLinear.comp dataField_xorLinear).add (xorLinear_setWidth.comp syndrome_xorLinear))
    (by decide +kernel) w

theorem eq_enc_of_syndrome_eq_zero {w : Word23} (h : syndrome w = 0) : w = enc (dataField w) := by
  have hw := eq_enc_xor_syndrome w
  rw [h] at hw
  exact hw.trans BitVec.xor_zero

/-! The rotation -/

/-- The 22 bits moved up and the one moved down share no place, so that `|` adds them (R132). -/
theorem rotated_eq_xor (w : Word23) : rotated w = (w <<< 1) ^^^ (w >>> 22) := by
  refine or_eq_xor_of_and_eq_zero (BitVec.eq_of_getLsbD_eq fun j _ => ?_)
  cases j with
  | zero => simp
  | succ j => simp [BitVec.getLsbD_of_ge w (22 + (j + 1)) (by omega)]

theorem rotated_xorLinear : XorLinear rotated := by
  intro u v
  rw [rotated_eq_xor, rotated_eq_xor, rotated_eq_xor]
  exact (xorLinear_shiftLeft 1).add (xorLinear_ushiftRight 22) u v

/-- The code is cyclic (R132). -/
theorem IsCodeword.rotated {w : Word23} (h : IsCodeword w) : IsCodeword (rotated w) := by
  obtain ⟨q, rfl⟩ := h
  have hsyndrome : syndrome (Machine.rotated (multipleOfG q)) = 0 :=
    (syndrome_xorLinear.comp (rotated_xorLinear.comp multipleOfG_xorLinear)).ext xorLinear_zero (by decide +kernel) q
  exact (syndrome_eq_zero_iff _).mp hsyndrome

end Sys2Proof.Machine
end

section
/-! SUPPORT. The weight of a word, the patterns of one weight (R8, R123), and the least distance of the code (R132). -/

namespace Sys2Proof.Machine

/-! The weight -/

/-- How many of the `n` lowest places of a word hold a bit. -/
def weightBelow (n : Nat) (w : Word23) : Nat := (List.range n).countP (fun i => w.getLsbD i)

theorem weight_eq_weightBelow (w : Word23) : weight w = weightBelow 23 w := rfl

theorem weightBelow_succ (n : Nat) (w : Word23) :
    weightBelow (n + 1) w = weightBelow n w + if w.getLsbD n then 1 else 0 := by
  rw [weightBelow, List.range_succ, List.countP_append, List.countP_singleton]
  rfl

theorem weightBelow_congr {n : Nat} {u v : Word23} (h : ∀ i < n, u.getLsbD i = v.getLsbD i) :
    weightBelow n u = weightBelow n v :=
  List.countP_congr fun i hi => by rw [h i (List.mem_range.mp hi)]

/-- The `n` lowest places, and the next `m`. -/
theorem weightBelow_add (n m : Nat) (w : Word23) :
    weightBelow (n + m) w = weightBelow n w + weightBelow m (w >>> n) := by
  rw [weightBelow, List.range_add, List.countP_append, List.countP_map]
  refine congrArg (weightBelow n w + ·) (List.countP_congr fun i _ => ?_)
  rw [BitVec.getLsbD_ushiftRight]
  rfl

theorem weightBelow_one (w : Word23) : weightBelow 1 w = if w.getLsbD 0 then 1 else 0 :=
  (weightBelow_succ 0 w).trans (Nat.zero_add _)

theorem weightBelow_eq_zero_iff (n : Nat) (w : Word23) : weightBelow n w = 0 ↔ ∀ i < n, w.getLsbD i = false := by
  simp only [weightBelow, List.countP_eq_zero, List.mem_range, Bool.not_eq_true]

theorem weightBelow_xor (n : Nat) (u v : Word23) :
    weightBelow n (u ^^^ v) + 2 * weightBelow n (u &&& v) = weightBelow n u + weightBelow n v := by
  induction n with
  | zero => rfl
  | succ n ih =>
    simp only [weightBelow_succ, BitVec.getLsbD_xor, BitVec.getLsbD_and]
    cases u.getLsbD n <;> cases v.getLsbD n <;> simp <;> omega

theorem weight_xor_le (u v : Word23) : weight (u ^^^ v) ≤ weight u + weight v := by
  have h := weightBelow_xor 23 u v
  simp only [weight_eq_weightBelow]
  omega

theorem weightBelow_eq_zero_and_clearFrom_iff (n : Nat) (w : Word23) :
    weightBelow n w = 0 ∧ ClearFrom n w ↔ w = 0 := by
  rw [weightBelow_eq_zero_iff, ← clearFrom_zero_iff]
  refine ⟨fun ⟨hlow, hclear⟩ i _ => ?_, fun h => ⟨fun i _ => h i (Nat.zero_le i), fun i _ => h i (Nat.zero_le i)⟩⟩
  rcases Nat.lt_or_ge i n with hi | hi
  · exact hlow i hi
  · exact hclear i hi

theorem weight_eq_zero_iff (w : Word23) : weight w = 0 ↔ w = 0 :=
  (and_iff_left (clearFrom_width w)).symm.trans (weightBelow_eq_zero_and_clearFrom_iff 23 w)

theorem rotated_getLsbD_zero (w : Word23) : (rotated w).getLsbD 0 = w.getLsbD 22 := by
  simp [rotated]

theorem rotated_getLsbD_succ (w : Word23) {i : Nat} (hi : i < 22) : (rotated w).getLsbD (i + 1) = w.getLsbD i := by
  have hhigh : w.getLsbD (22 + (i + 1)) = false := BitVec.getLsbD_of_ge w _ (by omega)
  have hlow : i + 1 < 23 := by omega
  rw [rotated, BitVec.getLsbD_or, BitVec.getLsbD_shiftLeft, BitVec.getLsbD_ushiftRight, hhigh, Bool.or_false,
    decide_eq_true hlow]
  rfl

theorem weight_rotated (w : Word23) : weight (rotated w) = weight w := by
  calc weightBelow 23 (rotated w)
      = weightBelow 1 (rotated w) + weightBelow 22 (rotated w >>> 1) := weightBelow_add 1 22 _
    _ = (if w.getLsbD 22 then 1 else 0) + weightBelow 22 w := by
        rw [weightBelow_one, rotated_getLsbD_zero]
        refine congrArg (_ + ·) (weightBelow_congr fun i hi => ?_)
        rw [BitVec.getLsbD_ushiftRight, Nat.add_comm, rotated_getLsbD_succ w hi]
    _ = weightBelow 23 w := by rw [weightBelow_succ 22, Nat.add_comm]

/-! The patterns of one weight -/

theorem patterns_zero (n : Nat) : patterns n 0 = [0] := by
  cases n <;> rfl

theorem patterns_length (n k : Nat) : (patterns n k).length = n.choose k := by
  induction n generalizing k with
  | zero => cases k <;> rfl
  | succ n ih =>
    cases k with
    | zero => rfl
    | succ k => rw [patterns, List.length_append, List.length_map, ih, ih, Nat.choose_succ_succ, Nat.add_comm]

/-- A bit added at the place `n` is none of those below it. -/
theorem weightBelow_xor_bit {n : Nat} (hn : n < 23) (w : Word23) :
    weightBelow n (w ^^^ (1#23 <<< n)) = weightBelow n w :=
  weightBelow_congr fun i hi => by
    rw [getLsbD_xor_bit hn, decide_eq_false (Nat.ne_of_gt hi), Bool.xor_false]

theorem mem_patterns_zero_iff (n : Nat) (w : Word23) : w ∈ patterns n 0 ↔ weightBelow n w = 0 ∧ ClearFrom n w := by
  rw [patterns_zero, List.mem_singleton, weightBelow_eq_zero_and_clearFrom_iff]

/-- The patterns are the words with `k` bits among the `n` lowest places and none above (R123). -/
theorem mem_patterns_iff {n : Nat} (hn : n ≤ 23) (k : Nat) (w : Word23) :
    w ∈ patterns n k ↔ weightBelow n w = k ∧ ClearFrom n w := by
  induction n generalizing k w with
  | zero =>
    cases k with
    | zero => exact mem_patterns_zero_iff 0 w
    | succ k => exact iff_of_false (fun h => nomatch h) (fun h => nomatch h.1)
  | succ n ih =>
    cases k with
    | zero => exact mem_patterns_zero_iff (n + 1) w
    | succ k =>
      rw [patterns, List.mem_append, List.mem_map, weightBelow_succ]
      constructor
      · rintro (hw | ⟨p, hp, rfl⟩)
        · obtain ⟨hcount, hclear⟩ := (ih (by omega) _ _).mp hw
          obtain ⟨hbit, hclear⟩ := (clearFrom_iff_succ n w).mp hclear
          exact ⟨by simp [hcount, hbit], hclear⟩
        · obtain ⟨hcount, hclear⟩ := (ih (by omega) _ _).mp hp
          obtain ⟨hbit, hclear⟩ := (clearFrom_iff_succ n p).mp hclear
          rw [or_bit_eq_xor hbit, weightBelow_xor_bit hn, hcount]
          refine ⟨by simp [getLsbD_xor_bit hn, hbit], fun i hi => ?_⟩
          rw [getLsbD_xor_bit hn, hclear i hi, decide_eq_false (by omega)]
          rfl
      · rintro ⟨hcount, hclear⟩
        cases hbit : w.getLsbD n with
        | false =>
          have hcount : weightBelow n w = k + 1 := by simpa [hbit] using hcount
          exact .inl ((ih (by omega) _ _).mpr ⟨hcount, (clearFrom_iff_succ n w).mpr ⟨hbit, hclear⟩⟩)
        | true =>
          have hcount : weightBelow n w = k := by simpa [hbit] using hcount
          refine .inr ⟨w ^^^ (1#23 <<< n), (ih (by omega) _ _).mpr ⟨?_, hclear.xor_bit hn hbit⟩, ?_⟩
          · rw [weightBelow_xor_bit hn, hcount]
          · rw [or_bit_eq_xor (by simp [getLsbD_xor_bit hn, hbit]), xor_bit_xor_bit]

/-- Every pattern stands once (R123). -/
theorem patterns_nodup {n : Nat} (hn : n ≤ 23) (k : Nat) : (patterns n k).Nodup := by
  induction n generalizing k with
  | zero => cases k <;> simp [patterns]
  | succ n ih =>
    cases k with
    | zero => simp [patterns]
    | succ k =>
      have hclear (j : Nat) (p : Word23) (hp : p ∈ patterns n j) : p.getLsbD n = false :=
        have ⟨_, h⟩ := (mem_patterns_iff (by omega) j p).mp hp
        h n le_rfl
      rw [patterns, List.nodup_append']
      refine ⟨ih (by omega) _, (ih (by omega) k).map_on fun p hp q hq h => ?_, fun w hw hw' => ?_⟩
      · rw [or_bit_eq_xor (hclear k p hp), or_bit_eq_xor (hclear k q hq)] at h
        exact (BitVec.xor_left_inj _).mp h
      · obtain ⟨p, hp, rfl⟩ := List.mem_map.mp hw'
        have hbit := hclear (k + 1) _ hw
        rw [or_bit_eq_xor (hclear k p hp), getLsbD_xor_bit hn, hclear k p hp] at hbit
        simp at hbit

/-- The patterns of weight at most `t` (R123). -/
def patternsUpTo (n t : Nat) : List Word23 := (List.range (t + 1)).flatMap (patterns n)

theorem mem_patternsUpTo_iff {n : Nat} (hn : n ≤ 23) (t : Nat) (w : Word23) :
    w ∈ patternsUpTo n t ↔ weightBelow n w ≤ t ∧ ClearFrom n w := by
  rw [patternsUpTo, List.mem_flatMap]
  constructor
  · rintro ⟨k, hk, hw⟩
    obtain ⟨rfl, hclear⟩ := (mem_patterns_iff hn k w).mp hw
    exact ⟨Nat.lt_succ_iff.mp (List.mem_range.mp hk), hclear⟩
  · rintro ⟨hcount, hclear⟩
    exact ⟨_, List.mem_range.mpr (Nat.lt_succ_iff.mpr hcount), (mem_patterns_iff hn _ w).mpr ⟨rfl, hclear⟩⟩

theorem mem_patternsUpTo_iff_weight (t : Nat) (w : Word23) : w ∈ patternsUpTo 23 t ↔ weight w ≤ t :=
  (mem_patternsUpTo_iff le_rfl t w).trans (and_iff_left (clearFrom_width w))

theorem patternsUpTo_nodup {n : Nat} (hn : n ≤ 23) (t : Nat) : (patternsUpTo n t).Nodup := by
  rw [patternsUpTo, List.nodup_flatMap]
  refine ⟨fun k _ => patterns_nodup hn k, List.nodup_range.imp fun {j k} hne w hj hk => hne ?_⟩
  obtain ⟨hcountj, -⟩ := (mem_patterns_iff hn j w).mp hj
  obtain ⟨hcountk, -⟩ := (mem_patterns_iff hn k w).mp hk
  exact hcountj.symm.trans hcountk

/-! The least distance -/

theorem dataField_eq_setWidth (w : Word23) : dataField w = (w >>> 11).setWidth 12 := by
  refine BitVec.eq_of_getLsbD_eq fun i hi => ?_
  simp [dataField, hi]

/-- The messages of one, two or three bits: their codewords have weight at least 7. -/
theorem seven_le_weight_enc_of_mem {p : Word23} (h : p ∈ patternsUpTo 12 3) :
    p = 0 ∨ 7 ≤ weight (enc (p.setWidth 12)) := by
  have hall : (patternsUpTo 12 3).all (fun p => p == 0 || 7 ≤ weight (enc (p.setWidth 12))) := by
    decide +kernel
  simpa [or_iff_not_imp_left] using List.all_eq_true.mp hall p h

/-- A codeword with at most three data bits is 0 or has weight at least 7. -/
theorem seven_le_weight_of_data_le_three {w : Word23} (hw : syndrome w = 0)
    (hdata : weightBelow 12 (w >>> 11) ≤ 3) : w = 0 ∨ 7 ≤ weight w := by
  have henc : w = enc ((w >>> 11).setWidth 12) := dataField_eq_setWidth w ▸ eq_enc_of_syndrome_eq_zero hw
  have hmem : w >>> 11 ∈ patternsUpTo 12 3 := by
    refine (mem_patternsUpTo_iff (by decide) 3 _).mpr ⟨hdata, fun i hi => ?_⟩
    rw [BitVec.getLsbD_ushiftRight, BitVec.getLsbD_of_ge _ _ (by omega)]
  rcases seven_le_weight_enc_of_mem hmem with hzero | hweight
  · left
    rw [henc, hzero]
    exact enc_xorLinear.zero
  · rw [← henc] at hweight
    exact .inr hweight

theorem IsCodeword.iterate_rotated {w : Word23} (h : IsCodeword w) (k : Nat) : IsCodeword (Machine.rotated^[k] w) := by
  induction k generalizing w with
  | zero => exact h
  | succ k ih => exact ih h.rotated

theorem weight_iterate_rotated (k : Nat) (w : Word23) : weight (rotated^[k] w) = weight w := by
  induction k generalizing w with
  | zero => rfl
  | succ k ih => exact (ih _).trans (weight_rotated w)

/-- Twelve rotations take the eleven parity bits to the eleven highest places. -/
theorem iterate_rotated_twelve (w : Word23) : rotated^[12] w >>> 11 >>> 1 = w <<< 12 >>> 12 :=
  ((xorLinear_ushiftRight 1).comp ((xorLinear_ushiftRight 11).comp (rotated_xorLinear.iterate 12))).ext
    ((xorLinear_ushiftRight 12).comp (xorLinear_shiftLeft 12)) (by decide +kernel) w

theorem weightBelow_iterate_rotated_twelve_le (w : Word23) :
    weightBelow 12 (rotated^[12] w >>> 11) ≤ weightBelow 11 w + 1 := by
  have hparity : weightBelow 11 (w <<< 12 >>> 12) = weightBelow 11 w := weightBelow_congr fun i hi => by
    rw [BitVec.getLsbD_ushiftRight, BitVec.getLsbD_shiftLeft, decide_eq_true (by omega), decide_eq_false (by omega),
      Nat.add_sub_cancel_left]
    rfl
  have hlowest : weightBelow 1 (rotated^[12] w >>> 11) ≤ 1 := by
    rw [weightBelow_one]
    split <;> omega
  have hsplit : weightBelow 12 (rotated^[12] w >>> 11) = weightBelow 1 (rotated^[12] w >>> 11) +
      weightBelow 11 (rotated^[12] w >>> 11 >>> 1) := weightBelow_add 1 11 _
  rw [iterate_rotated_twelve, hparity] at hsplit
  omega

/-- Every codeword but 0 has weight at least 7 (R132). One of weight at most 6 has at most three bits on the twelve data
places or at most two on the eleven parity places, and then its rotation by twelve has at most three on the data
places; but a message of so few bits is 0 or has a codeword of weight at least 7. -/
theorem IsCodeword.seven_le_weight {w : Word23} (hw : IsCodeword w) (hne : w ≠ 0) : 7 ≤ weight w := by
  have hweight : weight w = weightBelow 11 w + weightBelow 12 (w >>> 11) := weightBelow_add 11 12 w
  by_contra hlt
  by_cases hdata : weightBelow 12 (w >>> 11) ≤ 3
  · rcases seven_le_weight_of_data_le_three ((syndrome_eq_zero_iff w).mpr hw) hdata with hzero | hseven
    · exact hne hzero
    · exact hlt hseven
  · have hrotated := weight_iterate_rotated 12 w
    have hle := weightBelow_iterate_rotated_twelve_le w
    rcases seven_le_weight_of_data_le_three ((syndrome_eq_zero_iff _).mpr (hw.iterate_rotated 12)) (by omega)
      with hzero | hseven
    · rw [hzero, (weight_eq_zero_iff 0).mpr rfl] at hrotated
      exact hne ((weight_eq_zero_iff w).mp hrotated.symm)
    · omega

/-- Two different codewords differ in at least 7 places (R132). -/
theorem seven_le_weight_xor {u v : Word23} (hu : IsCodeword u) (hv : IsCodeword v) (hne : u ≠ v) :
    7 ≤ weight (u ^^^ v) :=
  (hu.xor hv).seven_le_weight fun h => hne (BitVec.xor_eq_zero_iff.mp h)

/-- No two patterns of weight at most 3 share a syndrome (R124). -/
theorem eq_of_syndrome_eq {e f : Word23} (he : weight e ≤ 3) (hf : weight f ≤ 3) (h : syndrome e = syndrome f) :
    e = f := by
  by_contra hne
  have hseven := ((syndrome_eq_iff e f).mp h).seven_le_weight fun h => hne (BitVec.xor_eq_zero_iff.mp h)
  have hsix := weight_xor_le e f
  omega

end Sys2Proof.Machine
end

section
/-! SUPPORT. The table TBLD builds: its entry for a syndrome is the one pattern of weight at most 3 that has it (R123,
R124). -/

namespace Sys2Proof.Machine

/-! What a run of stored patterns leaves -/

theorem storePattern_read_of_free {m : Memory} {e : Word23} (hm : m.wf = true)
    (hfree : (m.read (syndrome e)).valid = false) : (storePattern m e).read (syndrome e) = ⟨true, e⟩ := by
  rw [storePattern, if_neg (by simp [hfree])]
  exact Memory.read_write_same m _ _ hm

theorem storePattern_read_other (m : Memory) {e : Word23} {s : Syndrome} (h : s ≠ syndrome e) :
    (storePattern m e).read s = m.read s := by
  unfold storePattern
  split
  · rfl
  · exact Memory.read_write_other m _ s _ h

/-- A pattern that alone has its syndrome is stored, where its entry is free. -/
theorem foldl_storePattern_read_of_mem {m : Memory} {e : Word23} {es : List Word23} (hm : m.wf = true)
    (hfree : (m.read (syndrome e)).valid = false) (he : e ∈ es)
    (honly : ∀ f ∈ es, syndrome f = syndrome e → f = e) :
    (es.foldl storePattern m).read (syndrome e) = ⟨true, e⟩ := by
  induction es generalizing m with
  | nil => cases he
  | cons f rest ih =>
    rw [List.foldl_cons]
    rcases eq_or_ne f e with rfl | hne
    · have hstored := storePattern_read_of_free hm hfree
      rw [foldl_storePattern_read_of_valid (by rw [hstored]), hstored]
    · have hother : (storePattern m f).read (syndrome e) = m.read (syndrome e) :=
        storePattern_read_other m fun h => hne (honly f (.head _) h.symm)
      exact ih (storePattern_wf m f hm) (by rw [hother, hfree]) ((List.mem_cons.mp he).resolve_left hne.symm)
        fun g hg => honly g (.tail _ hg)

/-! The entries -/

/-- Steps 2 to 5 of R123 are one run over the patterns of weight 0, 1, 2 and 3. -/
theorem builtTable_eq_foldl : builtTable = (patternsUpTo 23 3).foldl storePattern Memory.empty := by
  have hstart : tableStart = (patterns 23 0).foldl storePattern Memory.empty := by
    rw [patterns_zero, List.foldl_cons, List.foldl_nil, storePattern, syndrome_xorLinear.zero]
    rfl
  have hlist : patternsUpTo 23 3 = patterns 23 0 ++ (patterns 23 1 ++ patterns 23 2 ++ patterns 23 3) := by
    simp only [patternsUpTo, List.range_succ, List.range_zero, List.nil_append, List.flatMap_append,
      List.flatMap_singleton, List.append_assoc]
  rw [builtTable, hstart, hlist, List.foldl_append (l := patterns 23 0)]

/-- A pattern of weight at most 3 stands in the entry of its syndrome (R124). -/
theorem builtTable_read_syndrome {e : Word23} (he : weight e ≤ 3) : builtTable.read (syndrome e) = ⟨true, e⟩ := by
  rw [builtTable_eq_foldl]
  refine foldl_storePattern_read_of_mem Memory.wf_empty rfl ((mem_patternsUpTo_iff_weight 3 e).mpr he) fun f hf h => ?_
  exact eq_of_syndrome_eq ((mem_patternsUpTo_iff_weight 3 f).mp hf) he h

theorem patternsUpTo_three_length : (patternsUpTo 23 3).length = 2048 := by
  simp only [patternsUpTo, List.length_flatMap, patterns_length]
  decide

/-- Every syndrome is that of a pattern of weight at most 3: there are 2048 of each, and no two patterns share one
(R124). -/
theorem exists_pattern_of_syndrome (s : Syndrome) : ∃ e, weight e ≤ 3 ∧ syndrome e = s := by
  have hnodup : ((patternsUpTo 23 3).map syndrome).Nodup := by
    refine (patternsUpTo_nodup le_rfl 3).map_on fun e he f hf h => ?_
    exact eq_of_syndrome_eq ((mem_patternsUpTo_iff_weight 3 e).mp he) ((mem_patternsUpTo_iff_weight 3 f).mp hf) h
  have hcard : ((patternsUpTo 23 3).map syndrome).toFinset.card = Fintype.card Syndrome := by
    rw [List.toFinset_card_of_nodup hnodup, List.length_map, patternsUpTo_three_length,
      Fintype.card_congr BitVec.equivFin.toEquiv, Fintype.card_fin]
    norm_num
  have hall := (Finset.card_eq_iff_eq_univ _).mp hcard
  have hs : s ∈ ((patternsUpTo 23 3).map syndrome).toFinset := hall ▸ Finset.mem_univ s
  obtain ⟨e, he, hes⟩ := List.mem_map.mp (List.mem_toFinset.mp hs)
  exact ⟨e, (mem_patternsUpTo_iff_weight 3 e).mp he, hes⟩

/-- The entry of a syndrome (R124). -/
theorem builtTable_read_spec (s : Syndrome) :
    (builtTable.read s).valid = true ∧ weight (builtTable.read s).pattern ≤ 3 ∧
      syndrome (builtTable.read s).pattern = s := by
  obtain ⟨e, he, rfl⟩ := exists_pattern_of_syndrome s
  rw [builtTable_read_syndrome he]
  exact ⟨rfl, he, rfl⟩

/-- The table's patterns, each once, are the words of weight at most 3. -/
theorem tablePatterns_perm :
    ((List.range 2048).map (fun s => (builtTable.read (BitVec.ofNat 11 s)).pattern)).Perm (patternsUpTo 23 3) := by
  have hsyndrome (s : Nat) (hs : s ∈ List.range 2048) :
      (syndrome (builtTable.read (BitVec.ofNat 11 s)).pattern).toNat = s := by
    obtain ⟨-, -, h⟩ := builtTable_read_spec (BitVec.ofNat 11 s)
    rw [h, BitVec.toNat_ofNat, Nat.mod_eq_of_lt (List.mem_range.mp hs)]
  refine (List.perm_ext_iff_of_nodup (List.nodup_range.map_on fun s hs t ht h => ?_) (patternsUpTo_nodup le_rfl 3)).mpr
    fun e => ?_
  · rw [← hsyndrome s hs, h, hsyndrome t ht]
  · rw [List.mem_map, mem_patternsUpTo_iff_weight]
    constructor
    · rintro ⟨s, -, rfl⟩
      obtain ⟨-, hweight, -⟩ := builtTable_read_spec (BitVec.ofNat 11 s)
      exact hweight
    · intro he
      refine ⟨(syndrome e).toNat, List.mem_range.mpr (syndrome e).isLt, ?_⟩
      rw [BitVec.ofNat_toNat, BitVec.setWidth_eq, builtTable_read_syndrome he]

theorem countP_weight_patterns (k w : Nat) :
    (patterns 23 k).countP (fun e => weight e == w) = if k = w then Nat.choose 23 k else 0 := by
  have hweight (e : Word23) (he : e ∈ patterns 23 k) : weight e = k := ((mem_patterns_iff le_rfl k e).mp he).1
  split
  · next h =>
    rw [← patterns_length, List.countP_eq_length]
    exact fun e he => beq_iff_eq.mpr ((hweight e he).trans h)
  · next h =>
    rw [List.countP_eq_zero]
    exact fun e he => fun hw => h ((hweight e he).symm.trans (beq_iff_eq.mp hw))

/-- How many entries hold a pattern of weight 0, 1, 2 and 3 (R124). -/
theorem builtTable_census :
    [0, 1, 2, 3].map (fun w => (List.range 2048).countP (fun s =>
      weight (builtTable.read (BitVec.ofNat 11 s)).pattern == w)) = [1, 23, 253, 1771] := by
  have hcount (w : Nat) : (List.range 2048).countP (fun s =>
      weight (builtTable.read (BitVec.ofNat 11 s)).pattern == w) =
        ((List.range 4).map (fun k => if k = w then Nat.choose 23 k else 0)).sum := by
    have hperm := tablePatterns_perm.countP_eq (fun e => weight e == w)
    rw [List.countP_map, patternsUpTo, List.countP_flatMap] at hperm
    exact hperm.trans (congrArg List.sum (List.map_congr_left fun k _ => countP_weight_patterns k w))
  rw [List.map_congr_left fun w _ => hcount w]
  decide

end Sys2Proof.Machine
end

section
/-! PROOFS. The Golay code and the micro-operations of one candidate: the syndrome, the table, the correction, the
complement, the least distance and the encoder (R120 to R132, R140 to R142). -/

namespace Sys2Proof.Machine

/-! The syndrome -/

/-- Settles O30: SYN writes the syndrome of the candidate in turn, which is the remainder. -/
theorem synIsTheRemainderByTheGenerator : Obligations.SynIsTheRemainderByTheGenerator := by
  unfold Obligations.SynIsTheRemainderByTheGenerator
  intro s
  obtain ⟨q, hq⟩ := exists_eq_multipleOfG_xor_syndrome s.wires.turn.cand
  have hsyn : opSyn s = s.mapTurn (fun c => { c with syndrome := syndrome s.wires.turn.cand }) :=
    State.mapTurn_congr s _ _ rfl
  exact ⟨syndrome s.wires.turn.cand, q, congrArg Host.Outcome.next hsyn, hq⟩

/-- Settles O38: the remainder gives the kernel, and the sums the complement; the 23 values are computed. -/
theorem syndromeProperties : Obligations.SyndromeProperties := by
  unfold Obligations.SyndromeProperties
  exact ⟨exists_eq_multipleOfG_xor_syndrome, syndrome_eq_zero_iff, syndrome_xorLinear, by decide +kernel,
    syndrome_allOnes, syndrome_not⟩

/-! The table and the correction -/

/-- Settles O39: each entry holds a pattern of weight at most 3, and no other such pattern has its syndrome. -/
theorem tableHoldsTheUniquePatternOfEachSyndrome : Obligations.TableHoldsTheUniquePatternOfEachSyndrome := by
  unfold Obligations.TableHoldsTheUniquePatternOfEachSyndrome
  refine ⟨fun s => ?_, by rw [builtTable_read_zero], builtTable_census⟩
  obtain ⟨hvalid, hweight, hsyndrome⟩ := builtTable_read_spec s
  exact ⟨hvalid, hweight, hsyndrome, fun e he h => eq_of_syndrome_eq he hweight (h.trans hsyndrome.symm)⟩

/-- A codeword's syndrome is that of the error added to it (R131). -/
theorem syndrome_codeword_xor {c : Word23} (hc : IsCodeword c) (e : Word23) : syndrome (c ^^^ e) = syndrome e := by
  rw [syndrome_xorLinear, (syndrome_eq_zero_iff c).mpr hc]
  exact BitVec.zero_xor

/-- Settles O40: the syndrome of a codeword with errors is that of the errors, whose entry holds them. -/
theorem upToThreeErrorsAreCorrected : Obligations.UpToThreeErrorsAreCorrected := by
  unfold Obligations.UpToThreeErrorsAreCorrected
  refine ⟨syndrome_enc, fun c e hc he => ?_, fun s => (builtTable_read_spec s).1, builtTable_census⟩
  rw [syndrome_codeword_xor hc, builtTable_read_syndrome he, BitVec.xor_assoc, BitVec.xor_self, BitVec.xor_zero]
  exact ⟨rfl, rfl⟩

/-- The error found has the syndrome of the word, so the corrected word has syndrome 0 (R126). -/
theorem isCodeword_corrected (w : Word23) : IsCodeword (w ^^^ (builtTable.read (syndrome w)).pattern) := by
  obtain ⟨-, -, hsyndrome⟩ := builtTable_read_spec (syndrome w)
  exact (syndrome_eq_iff _ _).mp hsyndrome.symm

/-- Settles O41: the corrected word is near, and two codewords that near would differ in at most 6 places. -/
theorem everyWordDecodesToTheNearestCodeword : Obligations.EveryWordDecodesToTheNearestCodeword := by
  unfold Obligations.EveryWordDecodesToTheNearestCodeword
  intro w
  obtain ⟨hvalid, hweight, hsyndrome⟩ := builtTable_read_spec (syndrome w)
  refine ⟨hvalid, isCodeword_corrected w, hweight, fun c hc hnear => ?_⟩
  have herror : w ^^^ c = (builtTable.read (syndrome w)).pattern := by
    refine eq_of_syndrome_eq hnear hweight ?_
    rw [hsyndrome, BitVec.xor_comm, syndrome_codeword_xor hc]
  rw [← herror, ← BitVec.xor_assoc, BitVec.xor_self, BitVec.zero_xor]

/-! The complement -/

theorem dataField_not (w : Word23) : dataField (~~~w) = ~~~(dataField w) := by
  refine BitVec.eq_of_getLsbD_eq fun i hi => ?_
  have hplace : 11 + i < 23 := by omega
  simp [dataField, hi, hplace]

theorem zero3Field_not (d : Data12) : zero3Field (~~~d) = ~~~(zero3Field d) := by
  refine BitVec.eq_of_getLsbD_eq fun i hi => ?_
  have hplace : 9 + i < 12 := by omega
  simp [zero3Field, hi, hplace]

/-- One table entry serves a word and its complement, which are corrected to complements (R129). -/
theorem corrected_not (table : Memory) (w : Word23) :
    (~~~w) ^^^ (table.read (syndrome (~~~w))).pattern = ~~~(w ^^^ (table.read (syndrome w)).pattern) := by
  rw [syndrome_not, BitVec.not_xor_left]

/-- A word that decodes has its top three data bits clear once corrected (R140). -/
theorem codeOf_eq_none {table : Memory} {rom : RomBits} {w : Word23}
    (h : zero3Field (dataField (w ^^^ (table.read (syndrome w)).pattern)) ≠ 0) : codeOf table rom w = none := by
  simp only [codeOf, beq_eq_false_iff_ne.mpr h, Bool.and_false, Bool.false_and, Bool.false_eq_true, if_false]

/-- The top three data bits of complements are not both clear (R146). -/
theorem codeOf_eq_none_or_not (table : Memory) (rom : RomBits) (w : Word23) :
    codeOf table rom w = none ∨ codeOf table rom (~~~w) = none := by
  by_cases h : zero3Field (dataField (w ^^^ (table.read (syndrome w)).pattern)) = 0
  · refine .inr (codeOf_eq_none ?_)
    rw [corrected_not, dataField_not, zero3Field_not, h]
    decide
  · exact .inl (codeOf_eq_none h)

/-- Settles O42: the complement carries through the correction to the data bits. -/
theorem aWordAndItsComplementAreNeverBothValid : Obligations.AWordAndItsComplementAreNeverBothValid := by
  unfold Obligations.AWordAndItsComplementAreNeverBothValid
  refine ⟨fun w => ⟨syndrome_not w, corrected_not builtTable w, ?_⟩, codeOf_eq_none_or_not builtTable⟩
  rw [corrected_not, dataField_not]

/-! The code -/

/-- Settles O43: the generator itself is a codeword of weight 7. -/
theorem theCodeIsCyclicWithDistanceSeven : Obligations.TheCodeIsCyclicWithDistanceSeven := by
  unfold Obligations.TheCodeIsCyclicWithDistanceSeven
  exact ⟨fun w hw => hw.rotated, fun w hw hne => hw.seven_le_weight hne, fun u v => seven_le_weight_xor,
    0xC75#23, 0, ⟨1, by decide⟩, isCodeword_zero, by decide, by decide⟩

/-- Settles O44: a word of syndrome 0 is the codeword of its data bits; the rule's codewords are computed. -/
theorem theEncoderIsSystematic : Obligations.TheEncoderIsSystematic := by
  unfold Obligations.TheEncoderIsSystematic
  exact ⟨fun d => ⟨dataField_enc d, syndrome_enc d⟩, fun w => eq_enc_of_syndrome_eq_zero, by decide +kernel⟩

/-! The fields of a candidate -/

/-- The data bits as a number (R127). -/
theorem dataField_eq_ofNat (w : Word23) : dataField w = BitVec.ofNat 12 (w.toNat / 2 ^ 11) := by
  rw [dataField, BitVec.extractLsb', Nat.shiftRight_eq_div_pow]

/-- The top three data bits are clear exactly in the numbers below 512 (R140). -/
theorem flagT3ok_eq_decide (d : Data12) : flagT3ok d = decide (d.toNat < 512) := by
  have hfield : (zero3Field d).toNat = d.toNat / 2 ^ 9 := by
    rw [zero3Field, BitVec.extractLsb'_toNat, Nat.shiftRight_eq_div_pow]
    omega
  rw [flagT3ok, Bool.eq_iff_iff, beq_iff_eq, decide_eq_true_iff, ← BitVec.toNat_inj, hfield]
  simp

/-- The code is the number of the data bits below 512 (R140). -/
theorem codeField_eq_ofNat (d : Data12) : codeField d = BitVec.ofNat 9 (d.toNat % 512) := by
  apply BitVec.eq_of_toNat_eq
  rw [codeField, BitVec.extractLsb'_toNat, BitVec.toNat_ofNat, Nat.shiftRight_zero]
  omega

/-- Settles O31: each operation writes its fields of the candidate in turn, here as numbers. -/
theorem candidateOperationsWriteTheirTransients : Obligations.CandidateOperationsWriteTheirTransients := by
  unfold Obligations.CandidateOperationsWriteTheirTransients
  intro s
  simp only [← dataField_eq_ofNat, ← flagT3ok_eq_decide, ← codeField_eq_ofNat]
  exact ⟨rfl, rfl, rfl, rfl, rfl⟩

end Sys2Proof.Machine
end

section
/-! PROOFS. The selection: SEL takes the valid candidate of the least number, or reports a miss (R144, R145). -/

namespace Sys2Proof.Machine

/-! The order of the candidates -/

theorem mem_candOrder (k : CandIdx) : k ∈ candOrder := by
  cases k <;> decide

theorem candOrder_pairwise_candNumber_lt :
    candOrder.Pairwise (fun j k => (candNumber j).toNat < (candNumber k).toNat) := by
  decide

/-- Candidates of lower number come earlier in the order of SEL (R66, R145). -/
theorem mem_prefix_of_candNumber_lt {pre post : List CandIdx} {j k : CandIdx} (horder : candOrder = pre ++ k :: post)
    (hlt : (candNumber j).toNat < (candNumber k).toNat) : j ∈ pre := by
  have hsorted := candOrder_pairwise_candNumber_lt
  rw [horder, List.pairwise_append, List.pairwise_cons] at hsorted
  obtain ⟨-, ⟨hpost, -⟩, -⟩ := hsorted
  have hmem := mem_candOrder j
  rw [horder, List.mem_append, List.mem_cons] at hmem
  rcases hmem with hpre | rfl | hj
  · exact hpre
  · exact absurd hlt (lt_irrefl _)
  · exact absurd (hpost j hj) hlt.asymm

/-! The first valid candidate -/

/-- Validity is the three checks of R144 together. -/
theorem CandWires.valid_iff (c : CandWires) : c.valid = true ↔ c.eok = true ∧ c.t3ok = true ∧ c.inrom = true := by
  rw [CandWires.valid, Bool.and_eq_true, Bool.and_eq_true, and_assoc]

/-- The candidate found is the valid one of least number. -/
theorem exists_least_of_firstValid_candOrder {w : Wires} {c : CandWires} (h : firstValid w candOrder = some c) :
    ∃ k, c = w.candidate k ∧ (w.candidate k).valid = true ∧
      ∀ j, (candNumber j).toNat < (candNumber k).toNat → (w.candidate j).valid = false := by
  obtain ⟨pre, k, post, horder, hpre, hvalid, hc⟩ := (firstValid_eq_some_iff w candOrder c).mp h
  exact ⟨k, hc, hvalid, fun j hlt => hpre j (mem_prefix_of_candNumber_lt horder hlt)⟩

/-! SEL -/

theorem exec_sel (s : State) : exec .sel s = .next (opSel s) := rfl

/-- A decode (R145). -/
theorem opSel_of_some {s : State} {c : CandWires} (h : firstValid s.wires candOrder = some c) :
    opSel s = { s with wires := { s.wires with found := true, dcode := c.code, dinv := c.cinv } } := by
  rw [opSel, State.mapWires, h]

/-- A miss (R145). -/
theorem opSel_of_none {s : State} (h : firstValid s.wires candOrder = none) :
    opSel s = { s with wires := { s.wires with found := false } } := by
  rw [opSel, State.mapWires, h]

/-- Settles O32: SEL follows the search along the order, which is that of the candidates' numbers. -/
theorem selTakesTheFirstValidCandidate : Obligations.SelTakesTheFirstValidCandidate := by
  unfold Obligations.SelTakesTheFirstValidCandidate
  intro s
  rw [exec_sel]
  cases hfirst : firstValid s.wires candOrder with
  | some c =>
    obtain ⟨k, rfl, hvalid, hbefore⟩ := exists_least_of_firstValid_candOrder hfirst
    obtain ⟨heok, ht3ok, hinrom⟩ := (CandWires.valid_iff _).mp hvalid
    exact ⟨_, congrArg Host.Outcome.next (opSel_of_some hfirst), .inl ⟨k, heok, ht3ok, hinrom, hbefore, rfl⟩⟩
  | none =>
    have hnone := (firstValid_eq_none_iff s.wires candOrder).mp hfirst
    exact ⟨_, congrArg Host.Outcome.next (opSel_of_none hfirst), .inr ⟨fun k => hnone k (mem_candOrder k), rfl⟩⟩

end Sys2Proof.Machine
end

section
/-! PROOFS. The confirmation layer: what CNF makes of a miss, of a different decode and of an equal one (R151 to R155),
what EMIT delivers (R156), and the transition table along a run of decodes (R150, R159). -/

namespace Sys2Proof.Machine

/-! CNF -/

theorem exec_cnf (s : State) : exec .cnf s = .next (opCnf s) := rfl

/-- For a valid decode `MATCH` compares the code and the polarity with those of the last pair (R150). -/
theorem flagMatch_true_iff (dcode : Code) (dinv : Bool) (lastCode : Option Code) (lastInv : Bool) :
    flagMatch true dcode dinv lastCode lastInv = true ↔ lastCode = some dcode ∧ lastInv = dinv := by
  rw [flagMatch, Bool.true_and, Bool.and_eq_true, beq_iff_eq, beq_iff_eq, eq_comm (a := dinv)]

/-- A decode asks for an event from the count of 2 on (R154). -/
theorem flagEmitReq_true (n : Nat) : flagEmitReq true n = decide (2 ≤ n) := rfl

/-- Settles O33: a count that goes down no further than 0 is the truncated difference. -/
theorem cnfOnAMissDecaysTheCounter : Obligations.CnfOnAMissDecaysTheCounter := by
  unfold Obligations.CnfOnAMissDecaysTheCounter
  intro s hmiss
  rw [exec_cnf, opCnf_miss s hmiss, max_eq_left (Nat.zero_le _)]

/-- Settles O34: a decode that differs in the code or the polarity is no match. -/
theorem cnfOnADifferentDecodeReplacesThePair : Obligations.CnfOnADifferentDecodeReplacesThePair := by
  unfold Obligations.CnfOnADifferentDecodeReplacesThePair
  intro s hfound hdiffers
  have hm : flagMatch true s.wires.dcode s.wires.dinv s.lastCode s.lastInv = false := by
    rw [← Bool.not_eq_true, flagMatch_true_iff]
    exact not_and_or.mpr hdiffers
  rw [exec_cnf, opCnf_different s hfound hm]

/-- A decode equal to the last pair counts up (R153) and asks for an event from the count of 2 on (R154, R155). -/
theorem opCnf_equal {s : State} (hfound : s.wires.found = true) (hcode : s.lastCode = some s.wires.dcode)
    (hinv : s.lastInv = s.wires.dinv) :
    opCnf s = { s with
      counter := s.counter + 1
      wires := { s.wires with matched := true, emitReq := decide (2 ≤ s.counter + 1) } } := by
  rw [opCnf_match s hfound ((flagMatch_true_iff _ _ _ _).mpr ⟨hcode, hinv⟩), flagEmitReq_true]

/-- CNF asks for an event exactly on a decode equal to the last pair that brings the count to 2 or more (R154). -/
theorem opCnf_emitReq_iff (s : State) :
    (opCnf s).wires.emitReq = true ↔
      s.wires.found = true ∧ s.lastCode = some s.wires.dcode ∧ s.lastInv = s.wires.dinv ∧ 2 ≤ (opCnf s).counter := by
  cases hf : s.wires.found with
  | false => simp [opCnf_miss s hf]
  | true =>
    rw [← and_assoc (a := s.lastCode = _), ← flagMatch_true_iff]
    cases hm : flagMatch true s.wires.dcode s.wires.dinv s.lastCode s.lastInv with
    | false => simp [opCnf_different s hf hm]
    | true => simp [opCnf_match s hf hm, flagEmitReq_true]

/-- Settles O35: the equal decode, its case at a count of 0, and the exact condition of the request. -/
theorem cnfOnAMatchCountsUpAndAsksForAnEvent : Obligations.CnfOnAMatchCountsUpAndAsksForAnEvent := by
  unfold Obligations.CnfOnAMatchCountsUpAndAsksForAnEvent
  refine ⟨fun s hfound hcode hinv => ?_, fun s hfound hcode hinv hzero => ?_, fun s t h => ?_⟩
  · rw [exec_cnf, opCnf_equal hfound hcode hinv]
  · rw [exec_cnf, opCnf_equal hfound hcode hinv, hzero]
    rfl
  · obtain rfl := (next_eq_next _ _).mp ((exec_cnf s).symm.trans h)
    exact opCnf_emitReq_iff s

/-! EMIT -/

theorem exec_emit (s : State) : exec .emit s = .next (opEmit s) := rfl

/-- Settles O36, by the two cases of EMIT, which exclude each other. -/
theorem emitDeliversToTheBoundSink : Obligations.EmitDeliversToTheBoundSink := by
  unfold Obligations.EmitDeliversToTheBoundSink
  refine ⟨fun s hreq hen => ?_, fun s hnot => ?_⟩
  · rcases opEmit_cases s with ⟨-, -, hdelivered⟩ | ⟨hnot, -⟩
    · rw [exec_emit, hdelivered]
      rfl
    · simp [hreq, hen] at hnot
  · rcases opEmit_cases s with ⟨hreq, hen, -⟩ | ⟨-, hsilent⟩
    · simp [hreq, hen] at hnot
    · rw [exec_emit, hsilent]
      rfl

/-! The transition table along a run of decodes -/

namespace Confirmation

/-- An event asked for is of the last pair, at a count of at least 1 (R154). -/
theorem emits_some_iff (c : Confirmation) (p : Code × Bool) :
    c.emits (some p) = true ↔ c.last = some p ∧ 1 ≤ c.counter := by
  simp [emits]

/-- A decode is the last pair after it, whether it was before or not (R152, R153). -/
theorem next_some_last (c : Confirmation) (p : Code × Bool) : (c.next (some p)).last = some p := by
  unfold next
  dsimp only
  split
  · assumption
  · rfl

theorem next_some_of_last {c : Confirmation} {p : Code × Bool} (h : c.last = some p) :
    c.next (some p) = ⟨some p, c.counter + 1⟩ := by
  simp [next, h]

theorem after_concat (c : Confirmation) (ds : List (Option (Code × Bool))) (d : Option (Code × Bool)) :
    c.after (ds ++ [d]) = (c.after ds).next d :=
  List.foldl_concat ..

/-- Misses alone keep the pair and take the count down, no further than 0 (R151). -/
theorem after_replicate_none (c : Confirmation) (m : Nat) :
    c.after (List.replicate m none) = ⟨c.last, c.counter - m⟩ := by
  induction m with
  | zero => rfl
  | succ m ih =>
    rw [List.replicate_succ', after_concat, ih]
    rfl

/-- From no decode seen, the last pair is that of some decode of the run, and only misses come after the latest one. -/
theorem exists_latest_decode_of_after_last {ds : List (Option (Code × Bool))} {p : Code × Bool}
    (h : ((⟨none, 0⟩ : Confirmation).after ds).last = some p) :
    ∃ earlier later, ds = earlier ++ some p :: later ∧ ∀ d ∈ later, d = none := by
  induction ds using List.reverseRecOn with
  | nil => cases h
  | append_singleton ds d ih =>
    rw [after_concat] at h
    cases d with
    | none =>
      obtain ⟨earlier, later, rfl, hlater⟩ := ih h
      refine ⟨earlier, later ++ [none], by rw [List.append_assoc, List.cons_append], fun d hd => ?_⟩
      exact (List.mem_append.mp hd).elim (hlater d) List.eq_of_mem_singleton
    | some q =>
      rw [next_some_last] at h
      exact ⟨ds, [], by rw [h], fun d hd => nomatch hd⟩

end Confirmation

/-- Settles O46: an event asked for is of the last pair, whose latest decode only misses follow; and the misses before
a decode of the last pair each take one from the count. -/
theorem anEventNeedsAnEarlierDecodeOfItsPair : Obligations.AnEventNeedsAnEarlierDecodeOfItsPair := by
  unfold Obligations.AnEventNeedsAnEarlierDecodeOfItsPair
  refine ⟨fun decodes p hemits => ?_, fun c p m hlast => ?_⟩
  · obtain ⟨hlast, -⟩ := (Confirmation.emits_some_iff _ _).mp hemits
    obtain ⟨earlier, later, hsplit, hlater⟩ := Confirmation.exists_latest_decode_of_after_last hlast
    exact ⟨earlier, later, hsplit, fun d hd => .inl (hlater d hd)⟩
  · have hmisses := Confirmation.after_replicate_none c m
    have hdecode : c.after (List.replicate m none ++ [some p]) = ⟨some p, c.counter - m + 1⟩ := by
      rw [Confirmation.after_concat, hmisses]
      exact Confirmation.next_some_of_last hlast
    rw [hdecode, Confirmation.emits_some_iff, hmisses, max_eq_left (Nat.zero_le _)]
    exact ⟨rfl, rfl, (and_iff_right hlast).trans Nat.succ_le_succ_iff.symm⟩

end Sys2Proof.Machine
end

section
/-! PROOFS. SAMPLE under another binding: the micro-operations before EMIT neither read nor write it, and EMIT writes
the record of events and `EMITTED` alone (R30, R156). -/

namespace Sys2Proof.Machine

/-- A state with another binding (R30). -/
def State.withBinding (s : State) (en : Bool) (sink ctx : Nat) : State :=
  { s with sinkEn := en, sink := sink, sinkCtx := ctx }

/-- A state with another record of events and another `EMITTED`: what EMIT writes (R156). -/
def State.withDelivery (s : State) (es : List Event) (emitted : Bool) : State :=
  { s with events := es, wires := { s.wires with emitted := emitted } }

/-! The micro-operations of a bit boundary -/

theorem decodeCandidate_withBinding (s : State) (k : CandIdx) (en : Bool) (sink ctx : Nat) :
    decodeCandidate (s.withBinding en sink ctx) k = (decodeCandidate s k).withBinding en sink ctx := by
  rw [decodeCandidate_eq, decodeCandidate_eq]
  rfl

theorem candidateLoop_withBinding (ks : List CandIdx) (s : State) (en : Bool) (sink ctx : Nat) :
    ks.foldl decodeCandidate (s.withBinding en sink ctx) =
      (ks.foldl decodeCandidate s).withBinding en sink ctx :=
  List.foldl_hom (State.withBinding · en sink ctx) fun t k => decodeCandidate_withBinding t k en sink ctx

/-- With no sink bound the confirmation state is updated as with one (R156). -/
theorem opCnf_withBinding (s : State) (en : Bool) (sink ctx : Nat) :
    opCnf (s.withBinding en sink ctx) = (opCnf s).withBinding en sink ctx := by
  have hwires : (s.withBinding en sink ctx).wires = s.wires := rfl
  have hcode : (s.withBinding en sink ctx).lastCode = s.lastCode := rfl
  have hinv : (s.withBinding en sink ctx).lastInv = s.lastInv := rfl
  simp only [opCnf, hwires, hcode, hinv]
  split
  · rfl
  · split <;> rfl

theorem opEmit_frame (s : State) : ∃ es emitted, opEmit s = s.withDelivery es emitted := by
  rcases opEmit_cases s with ⟨-, -, h⟩ | ⟨-, h⟩
  · exact ⟨_, true, h⟩
  · exact ⟨s.events, false, h⟩

/-- Under another binding EMIT leaves another record of events and another `EMITTED`, and nothing else. -/
theorem opEmit_withBinding (s : State) (en : Bool) (sink ctx : Nat) :
    ∃ es emitted, opEmit (s.withBinding en sink ctx) =
      ((opEmit s).withBinding en sink ctx).withDelivery es emitted := by
  obtain ⟨es, emitted, h⟩ := opEmit_frame s
  obtain ⟨es', emitted', h'⟩ := opEmit_frame (s.withBinding en sink ctx)
  refine ⟨es', emitted', ?_⟩
  rw [h, h']
  rfl

theorem sampleBoundary_withBinding (s : State) (en : Bool) (sink ctx : Nat) :
    ∃ es emitted, sampleBoundary (s.withBinding en sink ctx) =
      ((sampleBoundary s).withBinding en sink ctx).withDelivery es emitted := by
  have hcgen : opCgen (opWshb (opWsha (s.withBinding en sink ctx))) =
      (opCgen (opWshb (opWsha s))).withBinding en sink ctx := rfl
  have hsel (t : State) : opSel (t.withBinding en sink ctx) = (opSel t).withBinding en sink ctx := rfl
  rw [sampleBoundary, hcgen, candidateLoop_withBinding, hsel, opCnf_withBinding]
  exact opEmit_withBinding _ en sink ctx

/-! SAMPLE -/

/-- The numeric part neither reads nor writes the binding (R95). -/
theorem State.afterFront_withBinding (s : State) (en : Bool) (sink ctx : Nat) :
    (s.withBinding en sink ctx).afterFront = s.afterFront.withBinding en sink ctx := rfl

theorem sampleTail_withBinding (s : State) (en : Bool) (sink ctx : Nat) :
    ∃ es emitted, sampleTail (s.withBinding en sink ctx) =
      ((sampleTail s).withBinding en sink ctx).withDelivery es emitted := by
  have hbnd : (s.withBinding en sink ctx).wires.bnd = s.wires.bnd := rfl
  rw [sampleTail, sampleTail, hbnd]
  cases s.wires.bnd with
  | true =>
    obtain ⟨es, emitted, h⟩ := sampleBoundary_withBinding s en sink ctx
    refine ⟨es, emitted, ?_⟩
    rw [if_pos rfl, if_pos rfl, h]
    rfl
  | false => exact ⟨s.events, false, rfl⟩

/-- A SAMPLE completes on a condition that the binding has no part in, and under another binding its end differs in the
binding and the delivery alone. -/
theorem execSample_withBinding {x : F64} {s t : State} (h : execSample x s = .next t) (en : Bool) (sink ctx : Nat) :
    ∃ es emitted, execSample x (s.withBinding en sink ctx) =
      .next ((t.withBinding en sink ctx).withDelivery es emitted) := by
  obtain ⟨hbusy, hlife, henv, rfl⟩ := (execSample_eq_next_iff_inEnvelope x s t).mp h
  let u : State := { s with wires := { s.wires with x := x } }
  obtain ⟨es, emitted, htail⟩ := sampleTail_withBinding u.afterFront en sink ctx
  rw [← State.afterFront_withBinding] at htail
  exact ⟨es, emitted, (execSample_eq_next_iff_inEnvelope _ _ _).mpr ⟨hbusy, hlife, henv, htail.symm⟩⟩

/-- Settles O20: what the delivery leaves is read off the state after the other run. -/
theorem sampleDoesNotDependOnTheSink : Obligations.SampleDoesNotDependOnTheSink := by
  unfold Obligations.SampleDoesNotDependOnTheSink
  intro s t x en sink ctx h
  obtain ⟨es, emitted, h'⟩ := execSample_withBinding h en sink ctx
  exact ⟨_, h', rfl⟩

end Sys2Proof.Machine
end

section
/-! PROOFS. The numeric part in exact real arithmetic under a signal times a positive constant (R179): the registers
that hold a sample, or a sum of samples, scale with it, and the rest sees only on which side of zero they lie. -/

namespace Sys2Proof.Machine

theorem filtered_exact_mul (c alpha x y : ℝ) :
    filtered (exactOps ℝ) alpha (c * x) (c * y) = c * filtered (exactOps ℝ) alpha x y := by
  rw [filtered_exact, filtered_exact]
  ring

theorem accumulated_exact_mul (c acc y : ℝ) :
    accumulated (exactOps ℝ) (c * acc) (c * y) = c * accumulated (exactOps ℝ) acc y := by
  rw [accumulated_exact, accumulated_exact, mul_add]

theorem exact_lt_zero_mul {c : ℝ} (hc : 0 < c) (x : ℝ) :
    (exactOps ℝ).lt (c * x) (exactOps ℝ).zero = (exactOps ℝ).lt x (exactOps ℝ).zero :=
  decide_eq_decide.mpr (smul_neg_iff_of_pos_left hc)

theorem exact_zero_lt_mul {c : ℝ} (hc : 0 < c) (x : ℝ) :
    (exactOps ℝ).lt (exactOps ℝ).zero (c * x) = (exactOps ℝ).lt (exactOps ℝ).zero x :=
  decide_eq_decide.mpr (mul_pos_iff_of_pos_left hc)

/-- Every `ZC_MODE` compares the two filtered values with zero alone (R91, R99). -/
theorem signChange_exact_mul (mode : ZcMode) {c : ℝ} (hc : 0 < c) (prev y : ℝ) :
    signChange (exactOps ℝ) mode (c * prev) (c * y) = signChange (exactOps ℝ) mode prev y := by
  cases mode with
  | strict => simp only [signChange, exact_lt_zero_mul hc, exact_zero_lt_mul hc]
  | neg => simp only [signChange, exact_lt_zero_mul hc]
  | pos => simp only [signChange, exact_zero_lt_mul hc]

theorem phaseAfterZcn_exact_mul (mode : ZcMode) (dir : NudgeDir) {c : ℝ} (hc : 0 < c) (spb prev y phase : ℝ) :
    phaseAfterZcn (exactOps ℝ) mode dir spb (c * prev) (c * y) phase =
      phaseAfterZcn (exactOps ℝ) mode dir spb prev y phase := by
  rw [phaseAfterZcn, phaseAfterZcn, signChange_exact_mul mode hc]

theorem slicedBit_exact_mul {c : ℝ} (hc : 0 < c) (acc : ℝ) :
    slicedBit (exactOps ℝ) (c * acc) = slicedBit (exactOps ℝ) acc := exact_zero_lt_mul hc acc

/-- The registers of type NUM under the scaled signal: those that hold a sample, or a sum of samples, scaled. -/
def Front.scaled (c : ℝ) (f : Front ℝ) : Front ℝ :=
  { f with lpfY := c * f.lpfY, prevY := c * f.prevY, bitAcc := c * f.bitAcc }

/-- One scaled sample: the registers scaled, and the same boundary and bit. -/
theorem Front.sample_scaled (mode : ZcMode) (dir : NudgeDir) {c : ℝ} (hc : 0 < c) (f : Front ℝ) (x : ℝ) :
    Front.sample (exactOps ℝ) mode dir (f.scaled c) (c * x) =
      ((Front.sample (exactOps ℝ) mode dir f x).1.scaled c, (Front.sample (exactOps ℝ) mode dir f x).2) := by
  have hzero : c * (exactOps ℝ).zero = (exactOps ℝ).zero := mul_zero c
  simp only [Front.sample, Front.scaled, filtered_exact_mul, phaseAfterZcn_exact_mul mode dir hc,
    accumulated_exact_mul, slicedBit_exact_mul hc]
  split
  · simp only [hzero]
  · rfl

theorem Front.stream_scaled (mode : ZcMode) (dir : NudgeDir) {c : ℝ} (hc : 0 < c) (xs : List ℝ) (f : Front ℝ) :
    Front.stream (exactOps ℝ) mode dir (f.scaled c) (xs.map (fun x => c * x)) =
      ((Front.stream (exactOps ℝ) mode dir f xs).1.scaled c, (Front.stream (exactOps ℝ) mode dir f xs).2) := by
  induction xs generalizing f with
  | nil => rfl
  | cons x xs ih => simp only [List.map_cons, Front.stream, Front.sample_scaled mode dir hc, ih]

/-- Settles O59, by induction on the stream from one scaled sample. -/
theorem realScaledStreamSlicesTheSameBits : Obligations.RealScaledStreamSlicesTheSameBits := by
  unfold Obligations.RealScaledStreamSlicesTheSameBits
  intro mode dir f xs c hc r g
  have hg : g = (r.1.scaled c, r.2) := Front.stream_scaled mode dir hc xs f
  rw [hg]
  exact ⟨rfl, rfl, fun x y => ⟨filtered_exact_mul c f.alpha x y, signChange_exact_mul mode hc x y⟩⟩

end Sys2Proof.Machine
end

section
/-! PROOFS. What CREATE, BIND and DESTROY write, and where the host operations are refused (R170 to R176, R214). -/

namespace Sys2Proof.Machine

/-! CREATE -/

theorem exec_create_of_allocOk {s : State} {fs : BitVec 32} (hbusy : s.busy = false) (hlife : s.life = .absent)
    (hrate : 269 ≤ fs.toNat) (halloc : s.allocOk = true) : exec (.create fs) s = .next (createInstance fs s) :=
  (execCreate_eq_next_iff fs s _).mpr ⟨hbusy, hlife, hrate, .inl ⟨halloc, rfl⟩⟩

theorem exec_create_of_not_allocOk {s : State} {fs : BitVec 32} (hbusy : s.busy = false) (hlife : s.life = .absent)
    (hrate : 269 ≤ fs.toNat) (halloc : s.allocOk = false) : exec (.create fs) s = .next s.creationFailure :=
  (execCreate_eq_next_iff fs s _).mpr ⟨hbusy, hlife, hrate, .inr ⟨halloc, rfl⟩⟩

/-- Settles O10: the failure leaves `LIFE` at ABSENT, so a later CREATE passes the same checks. -/
theorem createFailureLeavesNoInstance : Obligations.CreateFailureLeavesNoInstance := by
  unfold Obligations.CreateFailureLeavesNoInstance
  intro s fs hbusy hlife hrate halloc
  exact ⟨exec_create_of_not_allocOk hbusy hlife hrate halloc, _, exec_create_of_allocOk hbusy hlife hrate rfl, rfl⟩

theorem execCreate_of_rate_eq_zero {s : State} {fs : BitVec 32} (hbusy : s.busy = false) (hlife : s.life = .absent)
    (hrate : fs.toNat = 0) : execCreate fs s = .refused .zeroSampleRate := by
  rw [execCreate, guardHostOp_of_legal _ _ _ _ hbusy hlife, if_pos hrate]

theorem execCreate_of_rate_lt {s : State} {fs : BitVec 32} (hbusy : s.busy = false) (hlife : s.life = .absent)
    (hpos : fs.toNat ≠ 0) (hrate : fs.toNat < Config.minSampleRate) :
    execCreate fs s = .refused .sampleRateOutsideEnvelope := by
  rw [execCreate, guardHostOp_of_legal _ _ _ _ hbusy hlife, if_neg hpos, if_pos hrate]

theorem execCreate_of_wrongLife {s : State} {fs : BitVec 32} (hbusy : s.busy = false) (hlife : s.life ≠ .absent) :
    execCreate fs s = .refused (.wrongLifecycle .create) := by
  rw [execCreate, guardHostOp_of_wrongLife hbusy hlife]

/-- Settles O11: one stop of CREATE for each clause. -/
theorem createIsRefusedOutsideTheEnvelope : Obligations.CreateIsRefusedOutsideTheEnvelope := by
  unfold Obligations.CreateIsRefusedOutsideTheEnvelope
  refine ⟨?_, ?_, ?_⟩
  · exact fun s fs hbusy hlife hzero => execCreate_of_rate_eq_zero hbusy hlife hzero
  · intro s fs hbusy hlife hpos hlow
    exact execCreate_of_rate_lt hbusy hlife (Nat.pos_iff_ne_zero.mp hpos) (Nat.lt_succ_of_le hlow)
  · intro s fs hbusy hlife
    exact execCreate_of_wrongLife hbusy (by rw [hlife]; decide)

/-- Settles O12: CREATE writes every field but those the two states agree on. -/
theorem createForgetsTheEarlierInstance : Obligations.CreateForgetsTheEarlierInstance := by
  unfold Obligations.CreateForgetsTheEarlierInstance
  intro s u fs hbusy hbusy' hlife hlife' halloc halloc' hrate hrom hwires hevents hinbox hidx
  rw [exec_create_of_allocOk hbusy hlife hrate halloc, exec_create_of_allocOk hbusy' hlife' hrate halloc']
  simp only [createInstance_eq, hbusy, hbusy', halloc, halloc', hrom, hwires, hevents, hinbox, hidx]

/-! BIND and DESTROY -/

theorem exec_bind_attach {s : State} (hbusy : s.busy = false) (hlife : s.life = .ready) (sink ctx : Nat) :
    exec (.bind true sink ctx) s = .next { s with sinkEn := true, sink := sink, sinkCtx := ctx } :=
  (execBind_eq_next_iff true sink ctx s _).mpr ⟨hbusy, hlife, .inl ⟨rfl, rfl⟩⟩

theorem exec_bind_detach {s : State} (hbusy : s.busy = false) (hlife : s.life = .ready) (sink ctx : Nat) :
    exec (.bind false sink ctx) s = .next { s with sinkEn := false } :=
  (execBind_eq_next_iff false sink ctx s _).mpr ⟨hbusy, hlife, .inr ⟨rfl, rfl⟩⟩

/-- Settles O13: the second of two bindings writes each field that the first one wrote. -/
theorem bindWritesTheBindingAlone : Obligations.BindWritesTheBindingAlone := by
  unfold Obligations.BindWritesTheBindingAlone
  refine ⟨fun _ sink ctx hbusy hlife => exec_bind_attach hbusy hlife sink ctx,
    fun _ sink ctx hbusy hlife => exec_bind_detach hbusy hlife sink ctx, fun s sink ctx sink' ctx' hbusy hlife => ?_⟩
  rw [execAll, exec_bind_attach hbusy hlife, andThen_next, execAll_singleton, exec_bind_attach hbusy hlife]
  exact exec_bind_attach hbusy hlife sink' ctx'

/-- Settles O15: the lifecycle is the one field DESTROY writes. -/
theorem destroyEndsTheInstance : Obligations.DestroyEndsTheInstance := by
  unfold Obligations.DestroyEndsTheInstance
  exact fun s hbusy hlife => (execDestroy_eq_next_iff s _).mpr ⟨hbusy, hlife, rfl⟩

/-! Refusals -/

theorem guardHostOp_of_busy {op : HostOp} {need : Life} {s : State} {act : State → Result} (hb : s.busy = true) :
    guardHostOp op need s act = .refused (.reentrant op) := by
  rw [guardHostOp, if_pos hb]

theorem execCreate_of_busy {fs : BitVec 32} {s : State} (hb : s.busy = true) :
    execCreate fs s = .refused (.reentrant .create) := by
  rw [execCreate, guardHostOp_of_busy hb]

theorem execBind_of_busy {en : Bool} {sink ctx : Nat} {s : State} (hb : s.busy = true) :
    execBind en sink ctx s = .refused (.reentrant .bind) := by
  rw [execBind, guardHostOp_of_busy hb]

theorem execSample_of_busy {x : F64} {s : State} (hb : s.busy = true) :
    execSample x s = .refused (.reentrant .sample) := by
  rw [execSample, guardHostOp_of_busy hb]

theorem execDestroy_of_busy {s : State} (hb : s.busy = true) : execDestroy s = .refused (.reentrant .destroy) := by
  rw [execDestroy, guardHostOp_of_busy hb]

/-- Settles O14: every host operation passes the one guard, which looks at the caller before the lifecycle. -/
theorem hostOperationsOutOfOrderAreRefused : Obligations.HostOperationsOutOfOrderAreRefused := by
  unfold Obligations.HostOperationsOutOfOrderAreRefused
  constructor
  · intro s en sink ctx x hbusy hlife
    have hready : s.life ≠ .ready := by rw [hlife]; decide
    exact ⟨execBind_of_wrongLife hbusy hready, execSample_of_wrongLife hbusy hready,
      execDestroy_of_wrongLife hbusy hready⟩
  · intro s fs en sink ctx x hbusy
    exact ⟨execCreate_of_busy hbusy, execBind_of_busy hbusy, execSample_of_busy hbusy, execDestroy_of_busy hbusy⟩

end Sys2Proof.Machine
end

section
/-! PROOFS. Where the numeric micro-operations and SAMPLE stop: a result, or a sample, that is not finite (R192,
R200). -/

namespace Sys2Proof.Machine

/-! The numeric micro-operations -/

theorem opLpf_of_overflow {s : State} (h : (filtered f64Ops s.alpha s.wires.x s.lpfY).isFinite = false) :
    opLpf s = .refused .intermediateOverflow := by
  rw [opLpf, guardFinite_of_not_finite _ _ h]

/-- ZCN computes a new phase at a crossing alone, so there alone it can overflow (R91). -/
theorem opZcn_of_overflow {s : State} (hzc : flagZc s.prevY s.wires.y = true)
    (h : (nudgedPhase f64Ops Config.nudgeDir s.spb s.bitPhase).isFinite = false) :
    opZcn s = .refused .intermediateOverflow := by
  rw [opZcn, if_pos hzc, guardFinite_of_not_finite _ _ h]

theorem opAcc_of_overflow {s : State} (h : (accumulated f64Ops s.bitAcc s.wires.y).isFinite = false) :
    opAcc s = .refused .intermediateOverflow := by
  rw [opAcc, guardFinite_of_not_finite _ _ h]

theorem opPhi_of_overflow {s : State} (h : (advancedPhase f64Ops s.bitPhase).isFinite = false) :
    opPhi s = .refused .intermediateOverflow := by
  rw [opPhi, guardFinite_of_not_finite _ _ h]

/-- SLC wraps the phase at a boundary alone, so there alone it can overflow (R94). -/
theorem opSlc_of_overflow {s : State} (hbnd : flagBnd s.spb s.bitPhase = true)
    (h : (wrappedPhase f64Ops s.spb s.bitPhase).isFinite = false) : opSlc s = .refused .intermediateOverflow := by
  rw [opSlc, if_pos hbnd, guardFinite_of_not_finite _ _ h]

/-- Settles O27: one stop for each of the five micro-operations that test their result. -/
theorem numericMicroOperationsRefuseOverflow : Obligations.NumericMicroOperationsRefuseOverflow := by
  unfold Obligations.NumericMicroOperationsRefuseOverflow
  refine ⟨?lpf, ?zcn, ?acc, ?phi, ?slc⟩
  case lpf => exact fun s h => opLpf_of_overflow h
  case zcn => exact fun s hzc h => opZcn_of_overflow hzc h
  case acc => exact fun s h => opAcc_of_overflow (by rwa [accumulated_f64])
  case phi => exact fun s h => opPhi_of_overflow (by rwa [advancedPhase_f64])
  case slc => exact fun s hbnd h => opSlc_of_overflow (by rwa [flagBnd_f64]) (by rwa [wrappedPhase_f64])

/-! SAMPLE -/

theorem execSample_of_not_finite {x : F64} {s : State} (hbusy : s.busy = false) (hlife : s.life = .ready)
    (hx : x.isFinite = false) : execSample x s = .refused .nonFiniteSample := by
  rw [execSample, guardHostOp_of_legal _ _ _ _ hbusy hlife, if_neg (Bool.eq_false_iff.mp hx)]

/-- LPF to SLC on a finite sample outside the envelope: one of them overflows. -/
theorem sampleFront_of_outside {x : F64} {s : State} (hx : x.isFinite = true) (henv : s.sampleInEnvelope x = false) :
    sampleFront { s with wires := { s.wires with x := x } } = .refused .intermediateOverflow := by
  rw [sampleFront_eq _ hx]
  exact if_neg (Bool.eq_false_iff.mp henv)

theorem execSample_of_outside {x : F64} {s : State} (hbusy : s.busy = false) (hlife : s.life = .ready)
    (hx : x.isFinite = true) (henv : s.sampleInEnvelope x = false) :
    execSample x s = .refused .intermediateOverflow := by
  rw [execSample, guardHostOp_of_legal _ _ _ _ hbusy hlife, if_pos hx, sampleFront_of_outside hx henv,
    andThen_refused]

/-- Settles O16: the sample itself is tested first, and an overflow in the numeric part ends the SAMPLE. -/
theorem sampleIsRefusedOutsideTheEnvelope : Obligations.SampleIsRefusedOutsideTheEnvelope := by
  unfold Obligations.SampleIsRefusedOutsideTheEnvelope
  exact ⟨fun _ _ hbusy hlife hx => execSample_of_not_finite hbusy hlife hx,
    fun _ _ hbusy hlife hx henv => execSample_of_outside hbusy hlife hx henv⟩

end Sys2Proof.Machine
end
